-- ==== Sys2Proof/Word.lean ====
section
/-! DEFINITION. The word types of the block: bytes, command words, 32-bit counts and times, 64-bit operands
(00_scope.md R8, 10_state.md R31 and R32, 30_encoding.md R75 and R76). -/

namespace Sys2Proof

/-- A byte, 0x00..0xFF (00_scope.md R8). -/
abbrev Byte := BitVec 8

/-- A command word (30_encoding.md R75). -/
abbrev CmdWord := BitVec 32

/-- An event counter: `CNT_W` = 32 bits, wrapping (10_state.md R32; 00_scope.md R6). -/
abbrev Count := BitVec 32

/-- A value of the time input: `TIME_W` = 32 bits (20_memory.md R57; 00_scope.md R6). -/
abbrev Time := BitVec 32

/-- A 64-bit data-port operand: a key, a raw value or the bits of a binary64 (30_encoding.md R76). -/
abbrev Word64 := BitVec 64

end Sys2Proof
end

