-- ==== Sys2Proof/Config.lean ====
section
/-! DEFINITION. The synthesis-time parameters of 00_scope.md R6 and their well-formedness, R7. A configuration is an
argument of the model: it travels in `State.cfg`, which no step changes (10_state.md R34; log entry 1). -/

namespace Sys2Proof

/-- `CMD_MODE`: how a command entry's value is read (00_scope.md R6; 45_motor.md R150). -/
inductive CmdMode where
  | throttle
  | rawUs
  deriving DecidableEq, Repr

/-- `COBS_FF_TAIL`: the encoder's output after a final 0xFF run (00_scope.md R6; 42_cobs.md R110). -/
inductive CobsTail where
  | explicit
  | minimal
  deriving DecidableEq, Repr

/-- `THROTTLE_ARITH`: exact rationals, or binary32/binary64 rounding before the final floor
(00_scope.md R6; 93_implementation_defined.md I7). -/
inductive ThrottleArith where
  | exactRational
  | float32
  | float64
  deriving DecidableEq, Repr

/-- The parameters of one motor: `MIN_US[i]`, `CENTER_US[i]`, `MAX_US[i]`, `BIDIR[i]` (00_scope.md R6). -/
structure Motor where
  minUs : Nat
  centerUs : Nat
  maxUs : Nat
  bidir : Bool
  deriving DecidableEq, Repr

/-- Every parameter of 00_scope.md R6, with its decided or source default; `NMOT` is the length of `motors`.
`CNT_W` and `TIME_W` are decided as 32 and are the widths of `Count` and `Time`. -/
structure Config where
  /-- `CRC_POLY`, default 0x07. -/
  crcPoly : Byte := 0x07#8
  /-- `CRC_INIT`, default 0x00. -/
  crcInit : Byte := 0x00#8
  /-- `FIFO_N`, the FIFO's storage slots. -/
  fifoN : Nat
  /-- `ACC_MAX`, the most encoded bytes the receiver accumulates. -/
  accMax : Nat
  /-- `QDEPTH`, the intake queue's depth in command sets. -/
  qDepth : Nat
  /-- The per-motor parameters, motor 0 first. -/
  motors : List Motor
  /-- `CMD_MODE`. -/
  cmdMode : CmdMode
  /-- `PWM_FREQ_HZ`. -/
  pwmFreqHz : Nat
  /-- `DUTY_RES_BITS`. -/
  dutyResBits : Nat
  /-- `WDT_T`, the safety timeout in ticks. -/
  wdtT : Nat
  /-- `WAIT_W`, the supervisor's intake wait window in ticks. No rule of a step reads it (45_motor.md R161). -/
  waitW : Nat
  /-- `TICK`, the duration of one tick, in a unit the spec leaves open. No rule reads it. -/
  tick : Nat
  /-- `BLOCK_BASE`. No rule reads it (20_memory.md R64). -/
  blockBase : Nat
  /-- `KEY_BASE`, the key that addresses motor 0, decided 1. -/
  keyBase : Int := 1
  /-- `COBS_FF_TAIL`, decided EXPLICIT. -/
  cobsFfTail : CobsTail := .explicit
  /-- `TX_LEADING_DELIM`, decided false. -/
  txLeadingDelim : Bool := false
  /-- `WDT_CHECK_ON_CMD`, decided false. -/
  wdtCheckOnCmd : Bool := false
  /-- `THROTTLE_ARITH`, decided EXACT. -/
  throttleArith : ThrottleArith := .exactRational
  deriving DecidableEq, Repr

namespace Config

/-- `NMOT`, the number of motors (00_scope.md R6). -/
def nMot (c : Config) : Nat := c.motors.length

/-- The constraints on one motor's pulse widths: `MIN_US ≤ CENTER_US ≤ MAX_US` (00_scope.md R6), and a pulse no longer
than the PWM period (R7). -/
def motorOk (c : Config) (m : Motor) : Bool :=
  decide (m.minUs ≤ m.centerUs) && decide (m.centerUs ≤ m.maxUs) && decide (m.maxUs * c.pwmFreqHz ≤ 1000000)

/-- A well-formed configuration (00_scope.md R7, over the ranges of R6): every one of these holds. -/
def wf (c : Config) : Bool :=
  [ decide (2 ≤ c.fifoN), decide (c.fifoN ≤ 65536), decide (1 ≤ c.accMax), decide (c.accMax ≤ 65535),
    decide (1 ≤ c.qDepth), decide (c.qDepth ≤ 65535), decide (1 ≤ c.nMot), decide (c.nMot ≤ 32),
    c.motors.all c.motorOk, decide (1 ≤ c.pwmFreqHz), decide (1 ≤ c.dutyResBits), decide (c.dutyResBits ≤ 30),
    decide (c.wdtT < 2 ^ 32), decide (1 ≤ c.waitW), c.crcPoly.getLsbD 0 ].all id

/-- The motor both motors of the spec's test configuration are: 1000/1500/2000 µs, bidirectional
(95_test_vectors.md, Test configuration TC). -/
def testMotor : Motor := { minUs := 1000, centerUs := 1500, maxUs := 2000, bidir := true }

/-- The spec's test configuration TC (95_test_vectors.md). The spec leaves these parameters OPEN and gives TC for its
vectors and programs; `TICK` and `BLOCK_BASE`, which TC does not give and no rule reads, are 1 and 0
(DESIGN CHOICE, unsafe: log entry 2). -/
def testConfig : Config :=
  { fifoN := 16, accMax := 32, qDepth := 2, motors := [testMotor, testMotor], cmdMode := .throttle, pwmFreqHz := 50,
    dutyResBits := 16, wdtT := 500, waitW := 100, tick := 1, blockBase := 0 }

end Config

end Sys2Proof
end

