-- ==== Sys2Proof/Syntax.lean ====
section
/-! DEFINITION. The abstract syntax: the four agents, a command entry, and the instructions, one constructor for each row
of spec/opcode_table.json (30_encoding.md R77 and R73). -/

namespace Sys2Proof

/-- The agents that issue operations: producer P, consumer C, supervisor S and transmitter client T
(00_scope.md R5; 60_exceptions.md R213). -/
inductive Agent where
  | producer
  | consumer
  | supervisor
  | transmitter
  deriving DecidableEq, Repr

/-- One command entry: a 64-bit key and a 64-bit value, whose reading `CMD_MODE` decides
(45_motor.md R150; 30_encoding.md R76). -/
structure Entry where
  key : Word64
  value : Word64
  deriving DecidableEq, Repr

/-- A command set: its entries in the order given (45_motor.md R150). -/
abbrev CommandSet := List Entry

/-- The instructions: the 19 operations of 30_encoding.md R77, each with the operands its command word and data port
carry, and the three COBS code classes of R73, which the frame codec executes one run at a time. -/
inductive Instr where
  /-- CRC8_INIT (41_crc8.md R102). -/
  | crc8Init
  /-- CRC8_STEP, byte `b` in `A8` (41_crc8.md R103). -/
  | crc8Step (b : Byte)
  /-- CRC8 over the data-port bytes (41_crc8.md R104). -/
  | crc8 (s : List Byte)
  /-- CRC8_CHECK of the data-port bytes (41_crc8.md R105). -/
  | crc8Check (s : List Byte)
  /-- COBS_ENC of the data-port bytes (42_cobs.md R112). -/
  | cobsEnc (s : List Byte)
  /-- COBS_DEC of the data-port bytes (42_cobs.md R113). -/
  | cobsDec (f : List Byte)
  /-- FIFO_PUSH, byte `b` in `A8` (43_fifo.md R120). -/
  | fifoPush (b : Byte)
  /-- FIFO_POP (43_fifo.md R121). -/
  | fifoPop
  /-- FIFO_CLEAR (43_fifo.md R122). -/
  | fifoClear
  /-- FIFO_LEVEL (43_fifo.md R123). -/
  | fifoLevel
  /-- RX_STEP (44_frame.md R130). -/
  | rxStep
  /-- RX_PUMP (44_frame.md R133). -/
  | rxPump
  /-- TX_FRAME, channel `ch` in `A8`, payload on the data port (44_frame.md R137). -/
  | txFrame (ch : Byte) (payload : List Byte)
  /-- CMD_ENQ of the data-port entries (45_motor.md R151). -/
  | cmdEnq (cs : CommandSet)
  /-- SUP_STEP (45_motor.md R161). -/
  | supStep
  /-- SET_THROTTLE, motor `i` in `A8`, the bits of a binary64 on the data port (45_motor.md R155). -/
  | setThrottle (i : Byte) (v : Word64)
  /-- SET_DUTY_US, motor `i` in `A8`, pulse width in `L16` (45_motor.md R157). -/
  | setDutyUs (i : Byte) (us : BitVec 16)
  /-- NEUTRAL_ALL (45_motor.md R158). -/
  | neutralAll
  /-- STAT_READ, status index `k` in `A8` (46_status.md R180). -/
  | statRead (k : Byte)
  /-- The COBS code byte 0x00, illegal in a frame (30_encoding.md R73). -/
  | cobsCodeZero
  /-- The COBS code byte 0xFF: 254 data bytes, no implied zero (30_encoding.md R73). -/
  | cobsCodeFull
  /-- A COBS code byte `c` in 0x01..0xFE: `c − 1` data bytes and an implied zero (30_encoding.md R73). -/
  | cobsCodeRun (c : Byte)
  deriving DecidableEq, Repr

end Sys2Proof
end

