-- ==== Sys2Proof/WellFormed.lean ====
section
/-! DEFINITION. Well-formed instructions: what the command word can carry (30_encoding.md R75 to R78) and what the
configuration allows (R78: `A8 ≥ NMOT`; reserved status indices, 46_status.md R181). -/

namespace Sys2Proof

/-- The longest data port, in bytes or entries, that the 16-bit `L16` can announce (30_encoding.md R75). -/
def maxL16 : Nat := 65535

namespace Instr

/-- The operands fit the encoding: a length that `L16` holds, a non-empty CRC8_CHECK, a run's code byte in 0x01..0xFE
(30_encoding.md R73, R75, R78). -/
def encodable : Instr → Bool
  | .crc8Init => true
  | .crc8Step _ => true
  | .crc8 s => decide (s.length ≤ maxL16)
  | .crc8Check s => decide (1 ≤ s.length) && decide (s.length ≤ maxL16)
  | .cobsEnc s => decide (s.length ≤ maxL16)
  | .cobsDec f => decide (f.length ≤ maxL16)
  | .fifoPush _ => true
  | .fifoPop => true
  | .fifoClear => true
  | .fifoLevel => true
  | .rxStep => true
  | .rxPump => true
  | .txFrame _ payload => decide (payload.length ≤ maxL16)
  | .cmdEnq cs => decide (cs.length ≤ maxL16)
  | .supStep => true
  | .setThrottle _ _ => true
  | .setDutyUs _ _ => true
  | .neutralAll => true
  | .statRead _ => true
  | .cobsCodeZero => true
  | .cobsCodeFull => true
  | .cobsCodeRun c => decide (c ≠ 0x00#8) && decide (c ≠ 0xFF#8)

end Instr

/-- The status indices 46_status.md R181 gives a register: the ten counters 0x00..0x09, 0x10..0x16, and one duty register
a motor from 0x20. -/
def statIndexDefined (nMot : Nat) (k : Byte) : Bool :=
  decide (k.toNat ≤ 0x09) || (decide (0x10 ≤ k.toNat) && decide (k.toNat ≤ 0x16))
  || (decide (0x20 ≤ k.toNat) && decide (k.toNat < 0x20 + nMot))

namespace Instr

/-- The operand checks of 30_encoding.md R78 that depend on the configuration: a motor index below `NMOT`, a status index
that is not reserved. -/
def operandsLegal (c : Config) : Instr → Bool
  | .setThrottle i _ => decide (i.toNat < c.nMot)
  | .setDutyUs i _ => decide (i.toNat < c.nMot)
  | .statRead k => statIndexDefined c.nMot k
  | .crc8Init | .crc8Step _ | .crc8 _ | .crc8Check _ | .cobsEnc _ | .cobsDec _ => true
  | .fifoPush _ | .fifoPop | .fifoClear | .fifoLevel | .rxStep | .rxPump | .txFrame _ _ => true
  | .cmdEnq _ | .supStep | .neutralAll | .cobsCodeZero | .cobsCodeFull | .cobsCodeRun _ => true

/-- A well-formed instruction of a configuration: none of the `ILLEGAL` cases of 30_encoding.md R78 holds. -/
def wf (c : Config) (i : Instr) : Bool := i.encodable && i.operandsLegal c

end Instr

end Sys2Proof
end

