-- ==== Sys2Proof/Decode.lean ====
section
/-! DEFINITION. The decoder of the two encoding formats an instruction has (30_encoding.md R70): `CMD`, a 32-bit command
word with its data-port bytes (R75 to R78), and `COBS_CODE`, one code byte (R73). After it, the encoder, written from the
same tables. Total: whatever is no instruction is rejected by name. -/

namespace Sys2Proof

/-! ## Multi-byte operands: little-endian (20_memory.md R52) -/

/-- The number whose little-endian bytes are `bs`, byte 0 being bits [7:0] (20_memory.md R52). -/
def natOfBytes : List Byte → Nat
  | [] => 0
  | b :: bs => b.toNat + 256 * natOfBytes bs

/-- The `n` little-endian bytes of `v` (20_memory.md R52). -/
def bytesOfNat : Nat → Nat → List Byte
  | 0, _ => []
  | n + 1, v => BitVec.ofNat 8 v :: bytesOfNat n (v / 256)

/-- The 64-bit operand whose little-endian bytes are `bs` (30_encoding.md R76). -/
def word64OfBytes (bs : List Byte) : Word64 := BitVec.ofNat 64 (natOfBytes bs)

/-- The 8 little-endian bytes of a 64-bit operand (30_encoding.md R76). -/
def bytesOfWord64 (v : Word64) : List Byte := bytesOfNat 8 v.toNat

/-- `entries[m]`: `m` entries of 16 bytes each, key first (30_encoding.md R76). -/
def entriesOfBytes : Nat → List Byte → CommandSet
  | 0, _ => []
  | m + 1, d =>
    { key := word64OfBytes (d.take 8), value := word64OfBytes ((d.drop 8).take 8) } :: entriesOfBytes m (d.drop 16)

/-- The data-port bytes of a command set (30_encoding.md R76). -/
def bytesOfEntries : CommandSet → List Byte
  | [] => []
  | e :: es => bytesOfWord64 e.key ++ bytesOfWord64 e.value ++ bytesOfEntries es

/-! ## The command word's fields (30_encoding.md R75) -/

/-- `OPC`, bits [31:24]. -/
def opcOf (w : CmdWord) : Byte := w.extractLsb' 24 8

/-- `A8`, bits [23:16]. -/
def a8Of (w : CmdWord) : Byte := w.extractLsb' 16 8

/-- `L16`, bits [15:0]. -/
def l16Of (w : CmdWord) : BitVec 16 := w.extractLsb' 0 16

/-- The command word of three fields (30_encoding.md R75). -/
def packWord (opc a8 : Byte) (l16 : BitVec 16) : CmdWord := opc ++ a8 ++ l16

/-- How many data-port bytes a command word announces: `L16` for the byte operations, 8 for SET_THROTTLE, `16 × L16` for
CMD_ENQ and 0 for every other (30_encoding.md R80). -/
def dataLength (w : CmdWord) : Nat :=
  match (opcOf w).toNat with
  | 0x03 | 0x04 | 0x10 | 0x11 | 0x32 => (l16Of w).toNat
  | 0x42 => 8
  | 0x40 => 16 * (l16Of w).toNat
  | _ => 0

/-! ## The decoder -/

/-- Why a command word is `ILLEGAL` whatever the configuration (30_encoding.md R78). -/
inductive Illegal where
  /-- `OPC` is not in the table of R77. -/
  | reservedOpcode
  /-- `A8` is required to be 0 and is not. -/
  | nonzeroA8
  /-- `L16` is required to be 0 and is not. -/
  | nonzeroL16
  /-- CRC8_CHECK with `L16 = 0`. -/
  | emptyCheck
  /-- The data-port operand is shorter or longer than the word implies. -/
  | dataPortLength
  deriving DecidableEq, Repr

/-- Go on where a required condition holds, reject by name where it does not. -/
def require (ok : Bool) (why : Illegal) (k : Except Illegal Instr) : Except Illegal Instr :=
  if ok then k else .error why

/-- Decode a command word whose data port has the announced length (30_encoding.md R77, R78). -/
def decodeFields (w : CmdWord) (data : List Byte) : Except Illegal Instr :=
  let a8 := a8Of w
  let l16 := l16Of w
  let noA8 := require (decide (a8 = 0#8)) .nonzeroA8
  let noL16 := require (decide (l16 = 0#16)) .nonzeroL16
  match (opcOf w).toNat with
  | 0x01 => noA8 (noL16 (.ok .crc8Init))
  | 0x02 => noL16 (.ok (.crc8Step a8))
  | 0x03 => noA8 (.ok (.crc8 data))
  | 0x04 => noA8 (require (decide (l16 ≠ 0#16)) .emptyCheck (.ok (.crc8Check data)))
  | 0x10 => noA8 (.ok (.cobsEnc data))
  | 0x11 => noA8 (.ok (.cobsDec data))
  | 0x20 => noL16 (.ok (.fifoPush a8))
  | 0x21 => noA8 (noL16 (.ok .fifoPop))
  | 0x22 => noA8 (noL16 (.ok .fifoClear))
  | 0x23 => noA8 (noL16 (.ok .fifoLevel))
  | 0x30 => noA8 (noL16 (.ok .rxStep))
  | 0x31 => noA8 (noL16 (.ok .rxPump))
  | 0x32 => .ok (.txFrame a8 data)
  | 0x40 => noA8 (.ok (.cmdEnq (entriesOfBytes l16.toNat data)))
  | 0x41 => noA8 (noL16 (.ok .supStep))
  | 0x42 => noL16 (.ok (.setThrottle a8 (word64OfBytes data)))
  | 0x43 => .ok (.setDutyUs a8 l16)
  | 0x44 => noA8 (noL16 (.ok .neutralAll))
  | 0x50 => noL16 (.ok (.statRead a8))
  | _ => .error .reservedOpcode

/-- Decode a command word and its data-port operand (30_encoding.md R75 to R78). -/
def decodeCommand (w : CmdWord) (data : List Byte) : Except Illegal Instr :=
  match decodeFields w data with
  | .error why => .error why
  | .ok i => require (decide (data.length = dataLength w)) .dataPortLength (.ok i)

/-- Decode a COBS code byte: every byte is in exactly one class (30_encoding.md R73). -/
def decodeCode (c : Byte) : Instr :=
  if c = 0x00#8 then .cobsCodeZero else if c = 0xFF#8 then .cobsCodeFull else .cobsCodeRun c

/-- An instruction as it is presented to the block: a command word with its data-port operand, or a COBS code byte
(30_encoding.md R70). -/
inductive Packet where
  | command (w : CmdWord) (data : List Byte)
  | code (c : Byte)
  deriving DecidableEq, Repr

/-- Decode what is presented to the block. -/
def decode : Packet → Except Illegal Instr
  | .command w data => decodeCommand w data
  | .code c => .ok (decodeCode c)

/-! ## The encoder, from the tables of 30_encoding.md R73, R76 and R77 -/

/-- The 16-bit length field of a data port of `n` bytes or entries. -/
def lengthField (n : Nat) : BitVec 16 := BitVec.ofNat 16 n

/-- The word or code byte of an instruction, with its data-port bytes. -/
def encode : Instr → Packet
  | .crc8Init => .command (packWord 0x01#8 0#8 0#16) []
  | .crc8Step b => .command (packWord 0x02#8 b 0#16) []
  | .crc8 s => .command (packWord 0x03#8 0#8 (lengthField s.length)) s
  | .crc8Check s => .command (packWord 0x04#8 0#8 (lengthField s.length)) s
  | .cobsEnc s => .command (packWord 0x10#8 0#8 (lengthField s.length)) s
  | .cobsDec f => .command (packWord 0x11#8 0#8 (lengthField f.length)) f
  | .fifoPush b => .command (packWord 0x20#8 b 0#16) []
  | .fifoPop => .command (packWord 0x21#8 0#8 0#16) []
  | .fifoClear => .command (packWord 0x22#8 0#8 0#16) []
  | .fifoLevel => .command (packWord 0x23#8 0#8 0#16) []
  | .rxStep => .command (packWord 0x30#8 0#8 0#16) []
  | .rxPump => .command (packWord 0x31#8 0#8 0#16) []
  | .txFrame ch payload => .command (packWord 0x32#8 ch (lengthField payload.length)) payload
  | .cmdEnq cs => .command (packWord 0x40#8 0#8 (lengthField cs.length)) (bytesOfEntries cs)
  | .supStep => .command (packWord 0x41#8 0#8 0#16) []
  | .setThrottle i v => .command (packWord 0x42#8 i 0#16) (bytesOfWord64 v)
  | .setDutyUs i us => .command (packWord 0x43#8 i us) []
  | .neutralAll => .command (packWord 0x44#8 0#8 0#16) []
  | .statRead k => .command (packWord 0x50#8 k 0#16) []
  | .cobsCodeZero => .code 0x00#8
  | .cobsCodeFull => .code 0xFF#8
  | .cobsCodeRun c => .code c

/-! ## The opcode table as data (spec/opcode_table.json), to state that no two rows overlap and that the decoder agrees -/

/-- One `CMD` row of spec/opcode_table.json: a command word belongs to it when `w AND mask = pattern`. -/
structure TableRow where
  mnemonic : String
  pattern : CmdWord
  mask : CmdWord
  deriving DecidableEq, Repr

/-- A command word has the fixed bits of a row. -/
def TableRow.matchesWord (r : TableRow) (w : CmdWord) : Bool := decide (w &&& r.mask = r.pattern)

/-- The `CMD` rows of spec/opcode_table.json, in its order. -/
def commandRows : List TableRow :=
  [ ⟨"CRC8_INIT", 0x01000000#32, 0xFFFFFFFF#32⟩, ⟨"CRC8_STEP", 0x02000000#32, 0xFF00FFFF#32⟩,
    ⟨"CRC8", 0x03000000#32, 0xFFFF0000#32⟩, ⟨"CRC8_CHECK", 0x04000000#32, 0xFFFF0000#32⟩,
    ⟨"COBS_ENC", 0x10000000#32, 0xFFFF0000#32⟩, ⟨"COBS_DEC", 0x11000000#32, 0xFFFF0000#32⟩,
    ⟨"FIFO_PUSH", 0x20000000#32, 0xFF00FFFF#32⟩, ⟨"FIFO_POP", 0x21000000#32, 0xFFFFFFFF#32⟩,
    ⟨"FIFO_CLEAR", 0x22000000#32, 0xFFFFFFFF#32⟩, ⟨"FIFO_LEVEL", 0x23000000#32, 0xFFFFFFFF#32⟩,
    ⟨"RX_STEP", 0x30000000#32, 0xFFFFFFFF#32⟩, ⟨"RX_PUMP", 0x31000000#32, 0xFFFFFFFF#32⟩,
    ⟨"TX_FRAME", 0x32000000#32, 0xFF000000#32⟩, ⟨"CMD_ENQ", 0x40000000#32, 0xFFFF0000#32⟩,
    ⟨"SUP_STEP", 0x41000000#32, 0xFFFFFFFF#32⟩, ⟨"SET_THROTTLE", 0x42000000#32, 0xFF00FFFF#32⟩,
    ⟨"SET_DUTY_US", 0x43000000#32, 0xFF000000#32⟩, ⟨"NEUTRAL_ALL", 0x44000000#32, 0xFFFFFFFF#32⟩,
    ⟨"STAT_READ", 0x50000000#32, 0xFF00FFFF#32⟩ ]

/-- The mnemonic of an instruction, as spec/opcode_table.json spells it. -/
def Instr.mnemonic : Instr → String
  | .crc8Init => "CRC8_INIT"
  | .crc8Step _ => "CRC8_STEP"
  | .crc8 _ => "CRC8"
  | .crc8Check _ => "CRC8_CHECK"
  | .cobsEnc _ => "COBS_ENC"
  | .cobsDec _ => "COBS_DEC"
  | .fifoPush _ => "FIFO_PUSH"
  | .fifoPop => "FIFO_POP"
  | .fifoClear => "FIFO_CLEAR"
  | .fifoLevel => "FIFO_LEVEL"
  | .rxStep => "RX_STEP"
  | .rxPump => "RX_PUMP"
  | .txFrame _ _ => "TX_FRAME"
  | .cmdEnq _ => "CMD_ENQ"
  | .supStep => "SUP_STEP"
  | .setThrottle _ _ => "SET_THROTTLE"
  | .setDutyUs _ _ => "SET_DUTY_US"
  | .neutralAll => "NEUTRAL_ALL"
  | .statRead _ => "STAT_READ"
  | .cobsCodeZero => "COBS_CODE_ZERO"
  | .cobsCodeFull => "COBS_CODE_FULL"
  | .cobsCodeRun _ => "COBS_CODE_RUN"

/-! ## The host's reading of one instruction of the opcode table -/

/-- An operand of `n` zero bytes: what stands above the bits the table gives a row. -/
def zeroBytes (n : Nat) : List Byte := List.replicate n 0x00#8

/-- What is presented to the block for an instruction whose bits are `w`: a code byte when the table gives the row one
byte, else a command word with a data port of zeros of the length the word announces. -/
def tablePacket (nbits w : Nat) : Packet :=
  if nbits ≤ 8 then .code (BitVec.ofNat 8 w)
  else .command (BitVec.ofNat 32 w) (zeroBytes (dataLength (BitVec.ofNat 32 w)))

/-- The instruction the decoder reads from an instruction whose bits are `w`, every bit above `nbits` 0. -/
def decodeTableWord (nbits w : Nat) : Option Instr :=
  match decode (tablePacket nbits w) with
  | .ok i => some i
  | .error _ => none

end Sys2Proof
end

