-- ==== Sys2Proof/Machine/Operands.lean ====
section
/-! DEFINITION. The operand forms and the numeric part of the actuation driver: exact fractions, the binary64 operand
(30_encoding.md R76), the rounding a float implementation makes (93_implementation_defined.md I7), and clamp, map and duty
conversion (45_motor.md R152 to R156). Everything is on integers and naturals, so the kernel evaluates it. -/

namespace Sys2Proof.Machine

/-! ## Exact rationals (00_scope.md R11) -/

/-- An exact rational `num / den`. The denominators built here are positive; the fraction need not be in lowest terms. -/
structure Frac where
  num : Int
  den : Nat
  deriving DecidableEq, Repr

namespace Frac

/-- An integer as a fraction. -/
def ofInt (n : Int) : Frac := ⟨n, 1⟩

/-- The sum of two fractions. -/
def add (a b : Frac) : Frac := ⟨a.num * b.den + b.num * a.den, a.den * b.den⟩

/-- The product of two fractions. -/
def mul (a b : Frac) : Frac := ⟨a.num * b.num, a.den * b.den⟩

/-- A fraction over a positive natural number. -/
def divNat (a : Frac) (n : Nat) : Frac := ⟨a.num, a.den * n⟩

/-- `a ≤ b`, for positive denominators. -/
def le (a b : Frac) : Bool := decide (a.num * b.den ≤ b.num * a.den)

/-- `floor`, the greatest integer not above the fraction (00_scope.md R11). -/
def floor (a : Frac) : Int := a.num / a.den

/-- The greater of two fractions. -/
def max (a b : Frac) : Frac := if le a b then b else a

/-- The lesser of two fractions. -/
def min (a b : Frac) : Frac := if le a b then a else b

end Frac

/-- `2 ^ e` for an integer exponent. -/
def pow2 : Int → Frac
  | .ofNat n => ⟨(2 ^ n : Nat), 1⟩
  | .negSucc n => ⟨1, 2 ^ (n + 1)⟩

/-! ## The binary64 operand (30_encoding.md R76) -/

/-- What 64 bits mean as an IEEE 754 binary64: not a number, an infinity with its sign, or a finite value. -/
inductive Binary64 where
  | nan
  | inf (negative : Bool)
  | finite (q : Frac)
  deriving DecidableEq, Repr

/-- The binary64 value of 64 bits: sign in bit 63, exponent in bits 62..52, fraction in bits 51..0
(PRESUMED, log entry 3: 30_encoding.md R76 takes the format itself from general knowledge). -/
def binary64 (v : Word64) : Binary64 :=
  let negative := v.getLsbD 63
  let e := (v.extractLsb' 52 11).toNat
  let m := (v.extractLsb' 0 52).toNat
  if e = 2047 then
    if m = 0 then .inf negative else .nan
  else if e = 0 ∧ m = 0 then .finite (Frac.ofInt 0)
  else
    let significand : Nat := if e = 0 then m else 2 ^ 52 + m
    let exponent : Int := (if e = 0 then 1 else (e : Int)) - 1075
    let signed : Int := if negative then -(significand : Int) else significand
    .finite ((Frac.ofInt signed).mul (pow2 exponent))

/-! ## The rounding of a float implementation (93_implementation_defined.md I7) -/

/-- The nearest integer to a fraction, a tie going to the even one. -/
def roundHalfEven (a : Frac) : Int :=
  let f := a.floor
  let r := a.num - f * a.den
  if 2 * r < a.den then f else if a.den < 2 * r then f + 1 else if f % 2 = 0 then f else f + 1

/-- The exponent of the leading bit of a positive fraction: the `e` with `2^e ≤ a < 2^(e+1)`. -/
def leadingExponent (a : Frac) : Int :=
  let e : Int := (Nat.log2 a.num.natAbs : Int) - Nat.log2 a.den
  if (pow2 e).le a then e else e - 1

/-- The absolute value of a fraction. -/
def Frac.abs (a : Frac) : Frac := ⟨a.num.natAbs, a.den⟩

/-- The spacing exponent, at a value, of a binary format with `p` significant bits and least exponent `emin`. -/
def spacingExponent (p : Nat) (emin : Int) (a : Frac) : Int :=
  if leadingExponent a.abs - (p - 1) ≤ emin then emin else leadingExponent a.abs - (p - 1)

/-- A fraction rounded to the nearest value of a binary format with `p` significant bits and least exponent `emin`, a tie
going to the even significand. Overflow does not arise: the values rounded here stay below 2^50. -/
def roundToFormat (p : Nat) (emin : Int) (a : Frac) : Frac :=
  if a.num = 0 then Frac.ofInt 0
  else
    let e := spacingExponent p emin a
    (Frac.ofInt (roundHalfEven (a.mul (pow2 (-e))))).mul (pow2 e)

/-- One arithmetic result in the format `THROTTLE_ARITH` selects: unrounded, binary32 or binary64 (00_scope.md R6). -/
def inArith : ThrottleArith → Frac → Frac
  | .exactRational, a => a
  | .float32, a => roundToFormat 24 (-149) a
  | .float64, a => roundToFormat 53 (-1074) a

/-! ## Clamp, map, conversion (45_motor.md R152 to R156) -/

/-- The lower end of the throttle range: −1 when bidirectional, else 0 (45_motor.md R152). -/
def throttleLow (m : Motor) : Frac := Frac.ofInt (if m.bidir then -1 else 0)

/-- `clamp_i(v)` for a value that is not NaN: `max(low, min(1, v))`, an infinity going to the end it is beyond
(45_motor.md R152). -/
def clampThrottle (m : Motor) : Binary64 → Option Frac
  | .nan => none
  | .inf negative => some (if negative then throttleLow m else Frac.ofInt 1)
  | .finite q => some (Frac.max (throttleLow m) (Frac.min (Frac.ofInt 1) q))

/-- `map_i(c)`: `value ≥ 0` onto `[center, max]` and `value < 0` onto `[min, center]` when bidirectional, `[min, max]`
when not, each operation in the arithmetic selected (45_motor.md R153; the place of each rounding is a DESIGN CHOICE, log
entry 4). -/
def mapThrottle (ar : ThrottleArith) (m : Motor) (c : Frac) : Frac :=
  let c := inArith ar c
  let base : Int := if m.bidir then m.centerUs else m.minUs
  let span : Int :=
    if m.bidir then
      if 0 ≤ c.num then (m.maxUs : Int) - m.centerUs else (m.centerUs : Int) - m.minUs
    else (m.maxUs : Int) - m.minUs
  inArith ar ((Frac.ofInt base).add (inArith ar (c.mul (Frac.ofInt span))))

/-- `us_to_duty(u) = floor(u × PWM_FREQ_HZ × 2^DUTY_RES_BITS / 1 000 000)`, the operations from left to right in the
arithmetic selected (45_motor.md R154; 93_implementation_defined.md I7). -/
def usToDuty (c : Config) (u : Frac) : Nat :=
  let ar := c.throttleArith
  let hz := inArith ar (u.mul (Frac.ofInt c.pwmFreqHz))
  let scaled := inArith ar (hz.mul (Frac.ofInt (2 ^ c.dutyResBits)))
  (inArith ar (scaled.divNat 1000000)).floor.toNat

/-- The pulse width of zero commanded motion (45_motor.md R156). -/
def neutralUs (m : Motor) : Nat := if m.bidir then m.centerUs else m.minUs

/-- `NEUTRAL_DUTY[i]` for a motor's parameters (45_motor.md R156). -/
def neutralDuty (c : Config) (m : Motor) : Nat := usToDuty c (Frac.ofInt (neutralUs m))

/-- The neutral duty of every motor, motor 0 first (45_motor.md R156). -/
def neutralDuties (c : Config) : List Nat := c.motors.map (neutralDuty c)

end Sys2Proof.Machine
end

