-- ==== Sys2Proof/Machine/State.lean ====
section
/-! DEFINITION. The state of the block as plain data: every element of 10_state.md R22 to R39, the interfaces of R35 as
the inputs a step reads and the output histories it extends, and the reset values of 70_reset_and_hazards.md R230. Also
the reasons a step stops. -/

namespace Sys2Proof.Machine

/-! ## Why a step stops -/

/-- The reasons of `fault(reason)`: a use the source forbids (60_exceptions.md R202). -/
inductive Misuse where
  /-- `WRONG_AGENT`: an operation issued by an agent that does not own it. -/
  | wrongAgent
  /-- `CLEAR_ACTIVE`: FIFO_CLEAR while the producer or a pump is active. -/
  | clearActive
  /-- `REENTRANT`: RX_STEP or RX_PUMP while another is unfinished. -/
  | reentrant
  /-- `BAD_CONFIG`: the configuration is not well-formed. -/
  | badConfig
  deriving DecidableEq, Repr

/-- The reasons the machine stops. -/
inductive Fault where
  /-- Raised by `step` in a state whose run a `fault(reason)` has already marked (00_scope.md R13, 10_state.md R33), and,
  with `badConfig`, before the first step of an ill-formed configuration (60_exceptions.md R202). Safe: nothing more is
  claimed of the run. -/
  | forbidden (why : Misuse)
  /-- Raised by FIFO_PUSH, by a command of producer P while its hook is detached, by a pump iteration that is not C's next
  step, and by a codec run with no frame loaded: the outcome `stuck` of 00_scope.md R13, the agent has no step. Safe: such
  a schedule is none of the block's. -/
  | stuck
  /-- Raised by the read of a storage slot that no write has filled (10_state.md R22 and R26: it holds no value and no rule
  reads it). No state that a run reaches raises it. Safe. -/
  | unwrittenSlot
  /-- Raised by the write of a storage slot beyond `FIFO_N` or `ACC_MAX`, which 20_memory.md R51 says does not exist. No
  state that a run reaches raises it. Safe. -/
  | noSuchSlot
  deriving DecidableEq, Repr

/-- The reasons an instruction is given no meaning. -/
inductive Refusal where
  /-- Raised by an arm of `exec` whose instruction has no meaning yet. Safe. No arm of this model raises it. -/
  | notModelled (mnemonic : String)
  deriving DecidableEq, Repr

/-! ## The pieces of the state -/

/-- A storage array as (slot, byte) cells, slots strictly rising; a slot not listed holds no value
(10_state.md R22, R26). -/
abbrev Memory := List Host.Cell

/-- The events, in the order of their codes (60_exceptions.md R200). -/
inductive Event where
  | fifoOvf
  | accOvf
  | cobsErr
  | short
  | crcErr
  | txShort
  | cmdqDrop
  | dutyRej
  | wdtTrip
  | msgOut
  deriving DecidableEq, Repr

/-- `CNT[E]`, one wrapping counter an event (10_state.md R32). -/
structure Counters where
  fifoOvf : Count := 0#32
  accOvf : Count := 0#32
  cobsErr : Count := 0#32
  short : Count := 0#32
  crcErr : Count := 0#32
  txShort : Count := 0#32
  cmdqDrop : Count := 0#32
  dutyRej : Count := 0#32
  wdtTrip : Count := 0#32
  msgOut : Count := 0#32
  deriving DecidableEq, Repr

/-- The status of a result (00_scope.md R13). -/
inductive Status where
  | ok
  | none
  | illegal
  deriving DecidableEq, Repr

/-- The `out` of a result: absent, a byte sequence, or `INVALID`, which is not a byte sequence (00_scope.md R9, R13). -/
inductive Out where
  | absent
  | bytes (s : List Byte)
  | invalid
  deriving DecidableEq, Repr

/-- The result `(status, value, out)` of an operation (00_scope.md R13; 30_encoding.md R76). -/
structure OpResult where
  status : Status
  value : Option Nat
  out : Out
  deriving DecidableEq, Repr

/-- The inputs of one step that the environment draws (00_scope.md R14; 10_state.md R35): the issuing agent, the time
input `now`, and how many bytes the link would accept of a write. -/
structure Inputs where
  issuer : Agent
  now : Time
  linkAccepts : Nat
  deriving DecidableEq, Repr

/-- A command as an agent issues it: the word, its data-port operand, and the draws of its step (30_encoding.md R75). -/
structure Command where
  word : CmdWord
  data : List Byte
  inputs : Inputs
  deriving DecidableEq, Repr

/-- A decode in progress in the frame codec: the bytes of the frame not yet read and the bytes decoded so far
(the `f` from `i` on, and the `out`, of 42_cobs.md R111). Empty between frames. -/
structure Codec where
  rest : List Byte
  out : List Byte
  deriving DecidableEq, Repr

/-- One entry of the schedule: the next step, of an agent or of the environment (20_memory.md R50). -/
inductive Action where
  /-- An agent issues a command word (30_encoding.md R75). -/
  | issue (c : Command)
  /-- Agent C takes the next RX_STEP of its unfinished RX_PUMP (44_frame.md R133). -/
  | pump
  /-- The link's "byte arrived" notification (60_exceptions.md R204). -/
  | byteArrived (b : Byte)
  /-- The message sink returns (44_frame.md R132). -/
  | sinkReturn
  /-- PROD_DISABLE (43_fifo.md R124). -/
  | prodDisable
  /-- PROD_ENABLE (43_fifo.md R125). -/
  | prodEnable
  /-- RESET, sampling the time input as `t` (70_reset_and_hazards.md R230). -/
  | reset (t : Time)
  /-- A frame is presented to the frame codec (42_cobs.md R111). -/
  | codecFrame (f : List Byte)
  /-- The frame codec reads its next run (30_encoding.md R73). -/
  | codecRun
  deriving DecidableEq, Repr

/-- The state. The first group is the spec's; the second is the model's own (INVENTORY.md, State). -/
structure State where
  /-- The synthesis-time parameters: an argument of the model, which no step changes (00_scope.md R6; 10_state.md R34). -/
  cfg : Config
  /-- `FIFO_MEM` (10_state.md R22; a slot no push has written since the last RESET holds no value: log entries 10 and 23). -/
  fifoMem : Memory
  /-- `FIFO_RD` (10_state.md R23). -/
  fifoRd : Nat
  /-- `FIFO_WR` (10_state.md R24). -/
  fifoWr : Nat
  /-- `ACC_MEM` (10_state.md R26; a slot not written since the last RESET holds no value: log entries 10 and 23). -/
  accMem : Memory
  /-- `ACC_LEN` (10_state.md R27). -/
  accLen : Nat
  /-- `CRC_ACC` (10_state.md R28). -/
  crcAcc : Byte
  /-- `CMDQ`, oldest first (10_state.md R29). -/
  cmdq : List CommandSet
  /-- `DUTY[i]`, motor 0 first (10_state.md R30). -/
  duty : List Nat
  /-- `LAST_CMD_TIME` (10_state.md R31). -/
  lastCmdTime : Time
  /-- `CNT[E]` (10_state.md R32). -/
  cnt : Counters
  /-- `FAULTED`, with the reason of the fault that set it: `FAULTED` is true when this is `some` (10_state.md R33). -/
  fault : Option Misuse
  /-- `PROD_EN` (10_state.md R38). -/
  prodEn : Bool
  /-- `C_IN_PUMP` (10_state.md R39). -/
  cInPump : Bool
  /-- The `count` of the RX_PUMP in progress (44_frame.md R133); 0 when none is. -/
  pumpCount : Nat
  /-- The message sink has not returned yet (44_frame.md R132). -/
  sinkBusy : Bool
  /-- The frame codec's decode in progress (42_cobs.md R111). -/
  codec : Codec
  /-- The inputs of the current step (10_state.md R35). -/
  inputs : Inputs
  /-- The result the last step returned, if it returned one (10_state.md R36). -/
  result : Option OpResult
  /-- The result of C's last RX_STEP, alone or inside a pump: the `r` of 44_frame.md R133. -/
  rxResult : Option OpResult
  /-- The run's link output history (44_frame.md R137). -/
  linkOut : List Byte
  /-- The run's message output history, the pairs of `MSG_OUT(ch, P)` (44_frame.md R132). -/
  msgOut : List (Byte × List Byte)
  /-- The schedule: the steps still to be taken (20_memory.md R50; log entry 5). -/
  agenda : List Action
  deriving DecidableEq, Repr

namespace State

/-- `FAULTED` (10_state.md R33). -/
def faulted (s : State) : Bool := s.fault.isSome

/-- Every state element at its reset value, the time input sampled as `t` (70_reset_and_hazards.md R230); the model's own
fields at rest (log entry 6). R230 leaves the contents of `FIFO_MEM` and `ACC_MEM` unspecified: here every slot is emptied,
those written before a RESET too (DESIGN CHOICE, unsafe: log entry 23). -/
def atReset (c : Config) (t : Time) : State :=
  { cfg := c
    fifoMem := []
    fifoRd := 0
    fifoWr := 0
    accMem := []
    accLen := 0
    crcAcc := c.crcInit
    cmdq := []
    duty := neutralDuties c
    lastCmdTime := t
    cnt := {}
    fault := none
    prodEn := true
    cInPump := false
    pumpCount := 0
    sinkBusy := false
    codec := { rest := [], out := [] }
    inputs := { issuer := .transmitter, now := t, linkAccepts := 0 }
    result := none
    rxResult := none
    linkOut := []
    msgOut := []
    agenda := [] }

/-- The machine right after reset: the spec's own reset state RST0, in its test configuration TC with `now = 0`
(95_test_vectors.md; 70_reset_and_hazards.md R230). The configuration and the sampled time are OPEN in the spec
(DESIGN CHOICE, unsafe: log entry 2). -/
def reset : State := atReset Config.testConfig 0#32

end State

end Sys2Proof.Machine
end

