-- ==== Sys2Proof/Machine/Flags.lean ====
section
/-! DEFINITION. The block's flags. It has no condition-code register (10_state.md R36): the FIFO conditions are functions of
the two indices (R25), the receiver's state is a function of `ACC_LEN` (R27), and the watchdog's condition is the compare of
45_motor.md R160. -/

namespace Sys2Proof.Machine

/-- `EMPTY ⇔ FIFO_RD = FIFO_WR` (10_state.md R25). -/
def fifoEmpty (s : State) : Bool := decide (s.fifoRd = s.fifoWr)

/-- `FULL ⇔ (FIFO_WR + 1) mod FIFO_N = FIFO_RD` (10_state.md R25). -/
def fifoFull (s : State) : Bool := decide ((s.fifoWr + 1) % s.cfg.fifoN = s.fifoRd)

/-- `LEVEL = (FIFO_WR − FIFO_RD) mod FIFO_N`, the remainder of integers (10_state.md R25; 00_scope.md R11). -/
def fifoLevel (s : State) : Nat := (((s.fifoWr : Int) - s.fifoRd) % s.cfg.fifoN).toNat

/-- The receiver is `Idle` (10_state.md R27). -/
def receiverIdle (s : State) : Bool := decide (s.accLen = 0)

/-- The intake queue holds `QDEPTH` command sets (45_motor.md R151). -/
def intakeFull (s : State) : Bool := decide (s.cmdq.length = s.cfg.qDepth)

/-- The elapsed time `wrap32(now − LAST_CMD_TIME)` strictly exceeds `WDT_T` (45_motor.md R160). -/
def wdtExpired (s : State) : Bool := decide (s.cfg.wdtT < (s.inputs.now - s.lastCmdTime).toNat)

/-- FIFO_CLEAR's two sides are quiesced: the hook is detached and no pump runs (43_fifo.md R122). -/
def quiesced (s : State) : Bool := !s.prodEn && !s.cInPump

/-- An RX_STEP or RX_PUMP of C is unfinished: a pump is in progress, or the sink an RX_STEP called has not returned
(44_frame.md R130, R132; 60_exceptions.md R202). -/
def receiverBusy (s : State) : Bool := s.cInPump || s.sinkBusy

/-- Agent `a` has steps: only the producer can have none, while its hook is detached (10_state.md R38;
93_implementation_defined.md I16). -/
def agentEnabled (s : State) (a : Agent) : Bool := decide (a ≠ .producer) || s.prodEn

end Sys2Proof.Machine
end

