-- ==== Sys2Proof/Machine/Ops.lean ====
section
/-! DEFINITION. The named operations the meanings are written over: storage reads and writes, the event primitive, results,
the checks of 60_exceptions.md R206, and `fault(reason)`. The block has no trap entry and no trap return
(60_exceptions.md R208, R209): a `fault` is final and nothing returns from it. -/

namespace Sys2Proof.Machine

/-- What a step of this machine answers. -/
abbrev Answer := Host.Outcome State Fault Refusal

/-! ## Storage (00_scope.md R10; 20_memory.md R51) -/

namespace Memory

/-- The byte of a slot, or none where nothing has been written (10_state.md R22, R26). -/
def read : Memory → Nat → Option Byte
  | [], _ => none
  | (k, b) :: m, a => if a = k then some b else if a < k then none else read m a

/-- Write one slot, keeping the slots strictly rising. -/
def write : Memory → Nat → Byte → Memory
  | [], a, b => [(a, b)]
  | (k, x) :: m, a, b =>
    if a < k then (a, b) :: (k, x) :: m else if a = k then (a, b) :: m else (k, x) :: write m a b

/-- Every listed slot lies above `a`, and the slots rise strictly. -/
def risingAbove : Nat → Memory → Bool
  | _, [] => true
  | a, (k, _) :: m => decide (a < k) && risingAbove k m

/-- The canonical form: slots strictly rising. No byte is what an unlisted slot reads as, since that is no byte. -/
def wf : Memory → Bool
  | [] => true
  | (k, _) :: m => risingAbove k m

/-- Every listed slot exists: its index is below the array's size (20_memory.md R51). -/
def below (n : Nat) (m : Memory) : Bool := m.all fun c => decide (c.1 < n)

/-- `MemWrite` into an array of `n` slots; none where the slot does not exist (20_memory.md R51). -/
def store (n : Nat) (m : Memory) (a : Nat) (b : Byte) : Option Memory :=
  if a < n then some (write m a b) else none

/-- The bytes of `n` slots from slot `a` on; none where one of them holds no value. -/
def readRange (m : Memory) : Nat → Nat → Option (List Byte)
  | _, 0 => some []
  | a, n + 1 =>
    match read m a, readRange m (a + 1) n with
    | some b, some bs => some (b :: bs)
    | _, _ => none

end Memory

/-! ## Events (00_scope.md R12) -/

namespace Counters

/-- The counter of an event (10_state.md R32). -/
def get (c : Counters) : Event → Count
  | .fifoOvf => c.fifoOvf
  | .accOvf => c.accOvf
  | .cobsErr => c.cobsErr
  | .short => c.short
  | .crcErr => c.crcErr
  | .txShort => c.txShort
  | .cmdqDrop => c.cmdqDrop
  | .dutyRej => c.dutyRej
  | .wdtTrip => c.wdtTrip
  | .msgOut => c.msgOut

/-- `CNT[E] <- wrap32(CNT[E] + 1)` (00_scope.md R12; 44_frame.md R132 for `MSG_OUT`). -/
def bump (c : Counters) : Event → Counters
  | .fifoOvf => { c with fifoOvf := c.fifoOvf + 1#32 }
  | .accOvf => { c with accOvf := c.accOvf + 1#32 }
  | .cobsErr => { c with cobsErr := c.cobsErr + 1#32 }
  | .short => { c with short := c.short + 1#32 }
  | .crcErr => { c with crcErr := c.crcErr + 1#32 }
  | .txShort => { c with txShort := c.txShort + 1#32 }
  | .cmdqDrop => { c with cmdqDrop := c.cmdqDrop + 1#32 }
  | .dutyRej => { c with dutyRej := c.dutyRej + 1#32 }
  | .wdtTrip => { c with wdtTrip := c.wdtTrip + 1#32 }
  | .msgOut => { c with msgOut := c.msgOut + 1#32 }

end Counters

/-- The event's code, which is its counter's index in the status space (60_exceptions.md R200). -/
def Event.code : Event → Nat
  | .fifoOvf => 0x00
  | .accOvf => 0x01
  | .cobsErr => 0x02
  | .short => 0x03
  | .crcErr => 0x04
  | .txShort => 0x05
  | .cmdqDrop => 0x06
  | .dutyRej => 0x07
  | .wdtTrip => 0x08
  | .msgOut => 0x09

/-- `raise Soft(E)`: count the event and change nothing else (00_scope.md R12). -/
def State.raise (s : State) (e : Event) : State := { s with cnt := s.cnt.bump e }

/-! ## Results (00_scope.md R13) -/

/-- A number as a result value, `wrap32` (30_encoding.md R76: at most 32 bits). -/
def wrap32 (n : Nat) : Nat := n % 2 ^ 32

/-- `(OK, value, absent)`. -/
def OpResult.okValue (n : Nat) : OpResult := { status := .ok, value := some n, out := .absent }

/-- `(OK, absent, absent)`. -/
def OpResult.okPlain : OpResult := { status := .ok, value := none, out := .absent }

/-- `(NONE, absent, absent)`. -/
def OpResult.nonePlain : OpResult := { status := .none, value := none, out := .absent }

/-- `(NONE, value, absent)`. -/
def OpResult.noneValue (n : Nat) : OpResult := { status := .none, value := some n, out := .absent }

/-- `(OK, |s|, s)`. -/
def OpResult.okBytes (s : List Byte) : OpResult := { status := .ok, value := some s.length, out := .bytes s }

/-- `(NONE, absent, INVALID)`. -/
def OpResult.invalid : OpResult := { status := .none, value := none, out := .invalid }

/-- `(ILLEGAL, absent, absent)` (30_encoding.md R78). -/
def OpResult.illegal : OpResult := { status := .illegal, value := none, out := .absent }

/-- The step ends in a result. -/
def State.answer (s : State) (r : OpResult) : State := { s with result := some r }

/-- The step ends in no result: an environment action, or a pump that goes on. -/
def State.noResult (s : State) : State := { s with result := none }

/-- The operation completes with a result. -/
def answer (r : OpResult) (s : State) : Answer := .next (s.answer r)

/-- The `ILLEGAL` verdict: no state changes (60_exceptions.md R203). -/
def illegal (s : State) : Answer := answer .illegal s

/-! ## The forbidden uses (60_exceptions.md R202) and the order of the checks (R206) -/

/-- `fault(reason)`: sets `FAULTED`, which nothing clears, and returns no result (00_scope.md R13; 10_state.md R33;
60_exceptions.md R202). Nothing else changes (DEDUCED, log entry 7). -/
def takeFault (why : Misuse) (s : State) : Answer := .next { s with fault := some why, result := none }

/-- An operation only agent `a` may issue (60_exceptions.md R202 `WRONG_AGENT`). -/
def ownedBy (a : Agent) (op : State → Answer) (s : State) : Answer :=
  if s.inputs.issuer = a then op s else takeFault .wrongAgent s

/-- An operation of the receiver, forbidden while another one is unfinished (60_exceptions.md R202 `REENTRANT`). -/
def notReentrant (op : State → Answer) (s : State) : Answer :=
  if receiverBusy s then takeFault .reentrant s else op s

/-- The answer of an operation that may meet a slot that holds no value. -/
def finish : Except Fault (OpResult × State) → Answer
  | .error f => .fault f
  | .ok (r, s) => answer r s

end Sys2Proof.Machine
end

