-- ==== Sys2Proof/Machine/Cobs.lean ====
section
/-! DEFINITION. The COBS frame encoder and decoder (42_cobs.md R110 to R113): the codec functions, the two operations, and
the three code classes of 30_encoding.md R73 as the codec's own steps, one run each. -/

namespace Sys2Proof.Machine

/-! ## The encoder -/

/-- One run on the wire: the code byte `|run| + 1`, then the run (42_cobs.md R110). -/
def cobsRunBytes (run : List Byte) : List Byte := BitVec.ofNat 8 (run.length + 1) :: run

/-- The encoder's loop from the middle of a run: `run` are the run's bytes so far and `full` is `full_at_end`. It writes
the rest of the output (42_cobs.md R110). -/
def cobsEncodeFrom (tail : CobsTail) : List Byte → Bool → List Byte → List Byte
  | run, full, [] => if tail = .explicit ∨ full = false then cobsRunBytes run else []
  | run, _, b :: s =>
    if b = 0x00#8 then cobsRunBytes run ++ cobsEncodeFrom tail [] false s
    else if run.length + 1 = 254 then cobsRunBytes (run ++ [b]) ++ cobsEncodeFrom tail [] true s
    else cobsEncodeFrom tail (run ++ [b]) false s

/-- `cobs_encode(s)` (42_cobs.md R110). -/
def cobsEncode (tail : CobsTail) (s : List Byte) : List Byte := cobsEncodeFrom tail [] false s

/-! ## The decoder -/

/-- Decode the run whose code byte has just been read: take its `n` data bytes, none of them zero, and add the implied zero
when the class has one and the frame goes on. None is `INVALID` (42_cobs.md R111; 30_encoding.md R74). -/
def cobsTakeRun (n : Nat) (implied : Bool) (c : Codec) : Option Codec :=
  if c.rest.length < n then none
  else if (c.rest.take n).contains 0x00#8 then none
  else
    let rest := c.rest.drop n
    some { rest := rest, out := c.out ++ c.rest.take n ++ (if implied && !rest.isEmpty then [0x00#8] else []) }

/-- The step of the decoder that a code byte selects (30_encoding.md R73): 0x00 is illegal, 0xFF takes 254 bytes and implies
no zero, any other takes `c − 1` and implies one. -/
def cobsCodeStep (code : Byte) (c : Codec) : Option Codec :=
  if code = 0x00#8 then none
  else if code = 0xFF#8 then cobsTakeRun 254 false c
  else cobsTakeRun (code.toNat - 1) true c

/-- The decoder's loop over the runs of a frame; `fuel` bounds their number, which the frame's length does
(42_cobs.md R111). -/
def cobsDecodeRuns : Nat → Codec → Option (List Byte)
  | 0, c => if c.rest.isEmpty then some c.out else none
  | fuel + 1, c =>
    match c.rest with
    | [] => some c.out
    | code :: rest =>
      match cobsCodeStep code { c with rest := rest } with
      | none => none
      | some c' => cobsDecodeRuns fuel c'

/-- `cobs_decode(f)`; none is `INVALID`, and the empty frame is (42_cobs.md R111). -/
def cobsDecode (f : List Byte) : Option (List Byte) :=
  if f.isEmpty then none else cobsDecodeRuns f.length { rest := f, out := [] }

/-! ## The operations -/

/-- COBS_ENC (42_cobs.md R112). -/
def execCobsEnc (bytes : List Byte) (s : State) : Answer := answer (.okBytes (cobsEncode s.cfg.cobsFfTail bytes)) s

/-- The result of a decode: the whole decoded sequence, or `INVALID` (42_cobs.md R113). -/
def decodeResult : Option (List Byte) → OpResult
  | none => .invalid
  | some d => .okBytes d

/-- COBS_DEC (42_cobs.md R113). -/
def execCobsDec (frame : List Byte) (s : State) : Answer := answer (decodeResult (cobsDecode frame)) s

/-! ## The codec's own steps: one run of the frame it holds (30_encoding.md R73; log entry 8) -/

/-- The codec at rest, between frames. -/
def idleCodec : Codec := { rest := [], out := [] }

/-- What follows a run: `INVALID` ends the frame, a frame read to its end has its result, and another run is still to come
otherwise (42_cobs.md R111). -/
def codecAfter (s : State) : Option Codec → Answer
  | none => answer .invalid { s with codec := idleCodec }
  | some c =>
    if c.rest.isEmpty then answer (.okBytes c.out) { s with codec := idleCodec }
    else .next { s.noResult with codec := c }

/-- COBS_CODE_ZERO: the frame is invalid (30_encoding.md R73). -/
def execCobsCodeZero (s : State) : Answer := codecAfter s none

/-- COBS_CODE_FULL: 254 data bytes, no implied zero (30_encoding.md R73). -/
def execCobsCodeFull (s : State) : Answer := codecAfter s (cobsTakeRun 254 false s.codec)

/-- COBS_CODE_RUN: `c − 1` data bytes, then an implied zero unless the run ends the frame; the code byte 0x00, which is of
another class, has no data length (30_encoding.md R73, R74). -/
def execCobsCodeRun (c : Byte) (s : State) : Answer :=
  codecAfter s (if c = 0x00#8 then none else cobsTakeRun (c.toNat - 1) true s.codec)

end Sys2Proof.Machine
end

