-- ==== Sys2Proof/Machine/Crc.lean ====
section
/-! DEFINITION. The CRC-8 checksum generator (41_crc8.md R100 to R105): the function, and its four operations. -/

namespace Sys2Proof.Machine

/-! ## The CRC function -/

/-- One bit of the update: shift left and reduce when the top bit was set (41_crc8.md R100). -/
def crcShift (poly x : Byte) : Byte := if x.getLsbD 7 then (x <<< 1) ^^^ poly else x <<< 1

/-- `n` bits of the update. -/
def crcShifts (poly : Byte) : Nat → Byte → Byte
  | 0, x => x
  | n + 1, x => crcShifts poly n (crcShift poly x)

/-- `crc_step(c, b)`, most significant bit first (41_crc8.md R100). -/
def crcStep (poly c b : Byte) : Byte := crcShifts poly 8 (c ^^^ b)

/-- The CRC of a sequence from a starting value: `crc_step` over its bytes in order (41_crc8.md R101). -/
def crcFrom (poly : Byte) : Byte → List Byte → Byte
  | c, [] => c
  | c, b :: s => crcFrom poly (crcStep poly c b) s

/-- `crc8(s)` in a configuration (41_crc8.md R101). -/
def crc8 (c : Config) (s : List Byte) : Byte := crcFrom c.crcPoly c.crcInit s

/-! ## The operations -/

/-- CRC8_INIT (41_crc8.md R102). -/
def execCrc8Init (s : State) : Answer :=
  answer (.okValue s.cfg.crcInit.toNat) { s with crcAcc := s.cfg.crcInit }

/-- CRC8_STEP (41_crc8.md R103). -/
def execCrc8Step (b : Byte) (s : State) : Answer :=
  answer (.okValue (crcStep s.cfg.crcPoly s.crcAcc b).toNat) { s with crcAcc := crcStep s.cfg.crcPoly s.crcAcc b }

/-- CRC8 (41_crc8.md R104). -/
def execCrc8 (bytes : List Byte) (s : State) : Answer := answer (.okValue (crc8 s.cfg bytes).toNat) s

/-- The receiver's check: the CRC of all but the last byte against the last byte; none for an empty sequence, which has no
last byte (41_crc8.md R105). -/
def crcCheck (c : Config) (bytes : List Byte) : Option OpResult :=
  match bytes.getLast? with
  | none => none
  | some last =>
    let k := crc8 c bytes.dropLast
    some (if k = last then .okValue k.toNat else .noneValue k.toNat)

/-- CRC8_CHECK; an empty sequence is `ILLEGAL` (41_crc8.md R105; 30_encoding.md R78). -/
def execCrc8Check (bytes : List Byte) (s : State) : Answer :=
  match crcCheck s.cfg bytes with
  | none => illegal s
  | some r => answer r s

end Sys2Proof.Machine
end

