-- ==== Sys2Proof/Machine/Fifo.lean ====
section
/-! DEFINITION. The SPSC byte FIFO (43_fifo.md R120 to R123). -/

namespace Sys2Proof.Machine

/-- The index after `i` (10_state.md R23, R24). -/
def nextIndex (s : State) (i : Nat) : Nat := (i + 1) % s.cfg.fifoN

/-- FIFO_PUSH's own rule: drop and count on a full FIFO, else store and advance the write index (43_fifo.md R120). -/
def pushByte (b : Byte) (s : State) : Except Fault (OpResult × State) :=
  if fifoFull s then .ok (.nonePlain, s.raise .fifoOvf)
  else
    match Memory.store s.cfg.fifoN s.fifoMem s.fifoWr b with
    | none => .error .noSuchSlot
    | some m => .ok (.okPlain, { s with fifoMem := m, fifoWr := nextIndex s s.fifoWr })

/-- FIFO_PUSH: only by P, and only while its hook is attached; P has no step otherwise (43_fifo.md R120;
10_state.md R38). -/
def execFifoPush (b : Byte) (s : State) : Answer :=
  ownedBy .producer (fun s => if s.prodEn then finish (pushByte b s) else .fault .stuck) s

/-- The pop: none on an empty FIFO, else the byte of the read slot, the read index advanced (43_fifo.md R121). -/
def popByte (s : State) : Except Fault (Option Byte × State) :=
  if fifoEmpty s then .ok (none, s)
  else
    match Memory.read s.fifoMem s.fifoRd with
    | none => .error .unwrittenSlot
    | some b => .ok (some b, { s with fifoRd := nextIndex s s.fifoRd })

/-- The result of a pop (43_fifo.md R121). -/
def popResult : Option Byte → OpResult
  | none => .nonePlain
  | some b => .okValue b.toNat

/-- FIFO_POP: only by C (43_fifo.md R121). -/
def execFifoPop (s : State) : Answer :=
  ownedBy .consumer
    (fun s =>
      match popByte s with
      | .error f => .fault f
      | .ok (b, s) => answer (popResult b) s) s

/-- FIFO_CLEAR: only with both sides quiesced; the slots keep their contents (43_fifo.md R122). -/
def execFifoClear (s : State) : Answer :=
  if quiesced s then answer .okPlain { s with fifoRd := 0, fifoWr := 0 } else takeFault .clearActive s

/-- FIFO_LEVEL (43_fifo.md R123). -/
def execFifoLevel (s : State) : Answer := answer (.okValue (fifoLevel s)) s

end Sys2Proof.Machine
end

