-- ==== Sys2Proof/Machine/Frame.lean ====
section
/-! DEFINITION. The frame receiver and the frame transmitter (44_frame.md R130 to R137). -/

namespace Sys2Proof.Machine

/-! ## Receiver -/

/-- The result codes of RX_STEP (30_encoding.md R83). -/
inductive RxCode where
  | accumulated
  | idleDelim
  | delivered
  | dropped
  | accOverflow
  deriving DecidableEq, Repr

/-- The number of a result code (30_encoding.md R83). -/
def RxCode.number : RxCode → Nat
  | .accumulated => 0
  | .idleDelim => 1
  | .delivered => 2
  | .dropped => 3
  | .accOverflow => 4

/-- `deliver(ch, P)`: the pair goes to the message sink, is recorded and counted, and the sink runs on C
(44_frame.md R132). -/
def deliver (ch : Byte) (payload : List Byte) (s : State) : State :=
  { s.raise .msgOut with msgOut := s.msgOut ++ [(ch, payload)], sinkBusy := true }

/-- What the checks of a frame decide: the first that fails gives the one event, else the message (44_frame.md R131). -/
inductive Verdict where
  | rejected (e : Event)
  | message (ch : Byte) (payload : List Byte)
  deriving DecidableEq, Repr

/-- The checks of `frame_validate`: COBS decode, then length, then checksum (44_frame.md R131). -/
def judgeFrame (c : Config) (frame : List Byte) : Verdict :=
  match cobsDecode frame with
  | none => .rejected .cobsErr
  | some [] => .rejected .short
  | some [_] => .rejected .short
  | some [_, _] => .rejected .short
  | some (ch :: d) =>
    if crc8 c (ch :: d.dropLast) = d.getLastD 0x00#8 then .message ch d.dropLast else .rejected .crcErr

/-- `frame_validate(F)`: the event counted or the message delivered, and RX_STEP's result code (44_frame.md R131). -/
def validateFrame (frame : List Byte) (s : State) : RxCode × State :=
  match judgeFrame s.cfg frame with
  | .rejected e => (.dropped, s.raise e)
  | .message ch payload => (.delivered, deliver ch payload s)

/-- A delimiter: an empty frame is ignored, else the accumulated frame is taken, the buffer cleared and the frame judged
(44_frame.md R130). -/
def takeDelimiter (s : State) : Except Fault (RxCode × State) :=
  if receiverIdle s then .ok (.idleDelim, s)
  else
    match Memory.readRange s.accMem 0 s.accLen with
    | none => .error .unwrittenSlot
    | some frame => .ok (validateFrame frame { s with accLen := 0 })

/-- A non-delimiter byte: appended, or discarded with the buffer when it would exceed `ACC_MAX` (44_frame.md R130). -/
def takeDataByte (b : Byte) (s : State) : Except Fault (RxCode × State) :=
  if s.accLen = s.cfg.accMax then .ok (.accOverflow, { s with accLen := 0 }.raise .accOvf)
  else
    match Memory.store s.cfg.accMax s.accMem s.accLen b with
    | none => .error .noSuchSlot
    | some m => .ok (.accumulated, { s with accMem := m, accLen := s.accLen + 1 })

/-- What a popped byte does to the receiver (44_frame.md R130). -/
def takeByte (b : Byte) (s : State) : Except Fault (RxCode × State) :=
  if b = 0x00#8 then takeDelimiter s else takeDataByte b s

/-- One iteration of the receiver: pop a byte and take it; its result is kept as `r` too (44_frame.md R130). -/
def receiveByte (s : State) : Except Fault (OpResult × State) :=
  match popByte s with
  | .error f => .error f
  | .ok (none, s) => .ok (.nonePlain, { s with rxResult := some .nonePlain })
  | .ok (some b, s) =>
    match takeByte b s with
    | .error f => .error f
    | .ok (code, s) => .ok (.okValue code.number, { s with rxResult := some (.okValue code.number) })

/-- RX_STEP: only by C, and not while another RX_STEP or RX_PUMP is unfinished (44_frame.md R130). -/
def execRxStep (s : State) : Answer :=
  ownedBy .consumer (notReentrant fun s => finish (receiveByte s)) s

/-- One iteration of RX_PUMP's loop: the RX_STEP that finds the FIFO empty ends the pump and returns the count, any other is
counted and the pump goes on with no result yet (44_frame.md R133). -/
def pumpIteration (s : State) : Answer :=
  match receiveByte s with
  | .error f => .fault f
  | .ok (r, s) =>
    if r.status = .none then answer (.okValue (wrap32 s.pumpCount)) { s with cInPump := false, pumpCount := 0 }
    else .next { s.noResult with cInPump := true, pumpCount := s.pumpCount + 1 }

/-- RX_PUMP: its first step, which sets `C_IN_PUMP` together with the first RX_STEP (44_frame.md R133). -/
def execRxPump (s : State) : Answer :=
  ownedBy .consumer (notReentrant fun s => pumpIteration { s with cInPump := true, pumpCount := 0 }) s

/-- A later step of an RX_PUMP in progress; C has none while the sink runs (44_frame.md R132, R133). -/
def pumpStep (s : State) : Answer := if s.cInPump && !s.sinkBusy then pumpIteration s else .fault .stuck

/-! ## Transmitter -/

/-- `build_wire(ch, P)` (44_frame.md R136). -/
def buildWire (c : Config) (ch : Byte) (payload : List Byte) : List Byte :=
  (if c.txLeadingDelim then [0x00#8] else [])
    ++ cobsEncode c.cobsFfTail (ch :: payload ++ [crc8 c (ch :: payload)]) ++ [0x00#8]

/-- TX_FRAME: the link accepts `k` bytes, a draw in 0..|W|; a short write is counted and not retried (44_frame.md R137). -/
def execTxFrame (ch : Byte) (payload : List Byte) (s : State) : Answer :=
  let w := buildWire s.cfg ch payload
  let k := min s.inputs.linkAccepts w.length
  let sent := { s with linkOut := s.linkOut ++ w.take k }
  if k < w.length then answer (.noneValue k) (sent.raise .txShort) else answer (.okValue k) sent

end Sys2Proof.Machine
end

