-- ==== Sys2Proof/Machine/Motor.lean ====
section
/-! DEFINITION. The motor supervisor, its intake queue, the actuation driver and the failsafe watchdog
(45_motor.md R150 to R163). -/

namespace Sys2Proof.Machine

/-! ## The intake queue -/

/-- CMD_ENQ: only by C; a full queue drops the new command set and counts it (45_motor.md R151). -/
def execCmdEnq (cs : CommandSet) (s : State) : Answer :=
  ownedBy .consumer
    (fun s =>
      if intakeFull s then answer .nonePlain (s.raise .cmdqDrop)
      else answer .okPlain { s with cmdq := s.cmdq ++ [cs] }) s

/-! ## The actuation driver -/

/-- Write one duty register (10_state.md R30). -/
def setDuty (s : State) (i d : Nat) : State := { s with duty := s.duty.set i d }

/-- SET_THROTTLE's rule for a motor: NaN is counted and not applied, else clamp, map, convert and write
(45_motor.md R155). -/
def driveThrottle (i : Nat) (m : Motor) (v : Word64) (s : State) : OpResult × State :=
  match clampThrottle m (binary64 v) with
  | none => (.nonePlain, s.raise .dutyRej)
  | some c =>
    let d := usToDuty s.cfg (mapThrottle s.cfg.throttleArith m c)
    (.okValue d, setDuty s i d)

/-- SET_DUTY_US's rule for a motor: a pulse width outside `[MIN_US, MAX_US]` is counted and not applied, else converted and
written (45_motor.md R157). -/
def drivePulse (i : Nat) (m : Motor) (us : Int) (s : State) : OpResult × State :=
  if us < m.minUs ∨ (m.maxUs : Int) < us then (.nonePlain, s.raise .dutyRej)
  else
    let d := usToDuty s.cfg (Frac.ofInt us)
    (.okValue d, setDuty s i d)

/-- A driver operation on the motor `i` names; `i ≥ NMOT` is `ILLEGAL`, before the issuer is checked
(30_encoding.md R78; 60_exceptions.md R206). -/
def withMotor (i : Byte) (op : Nat → Motor → State → OpResult × State) (s : State) : Answer :=
  match s.cfg.motors[i.toNat]? with
  | none => illegal s
  | some m => ownedBy .supervisor (fun s => answer (op i.toNat m s).1 (op i.toNat m s).2) s

/-- SET_THROTTLE (45_motor.md R155). -/
def execSetThrottle (i : Byte) (v : Word64) (s : State) : Answer :=
  withMotor i (fun i m s => driveThrottle i m v s) s

/-- SET_DUTY_US (45_motor.md R157). -/
def execSetDutyUs (i : Byte) (us : BitVec 16) (s : State) : Answer :=
  withMotor i (fun i m s => drivePulse i m us.toNat s) s

/-- Every duty register to its neutral value (45_motor.md R158, R160). -/
def neutralise (s : State) : State := { s with duty := neutralDuties s.cfg }

/-- NEUTRAL_ALL: only by S (45_motor.md R158). -/
def execNeutralAll (s : State) : Answer := ownedBy .supervisor (fun s => answer .okPlain (neutralise s)) s

/-! ## The supervisor's step and the watchdog -/

/-- The result codes of SUP_STEP (30_encoding.md R83). -/
inductive SupCode where
  | cmd
  | idle
  | trip
  | cmdTrip
  deriving DecidableEq, Repr

/-- The number of a result code (30_encoding.md R83). -/
def SupCode.number : SupCode → Nat
  | .cmd => 0
  | .idle => 1
  | .trip => 2
  | .cmdTrip => 3

/-- The motor a command key addresses: motor `k − KEY_BASE`, when that is below `NMOT` (45_motor.md R159). -/
def motorOfKey (c : Config) (key : Word64) : Option (Nat × Motor) :=
  let i := key.toInt - c.keyBase
  if i < 0 then none else (c.motors[i.toNat]?).map fun m => (i.toNat, m)

/-- The driver rule `CMD_MODE` selects for an entry's value (45_motor.md R159). -/
def driveValue (i : Nat) (m : Motor) (v : Word64) (s : State) : OpResult × State :=
  match s.cfg.cmdMode with
  | .throttle => driveThrottle i m v s
  | .rawUs => drivePulse i m v.toInt s

/-- `apply_entry(k, v, now)`: an out-of-range key is ignored, and only a successful application refreshes `LAST_CMD_TIME`
(45_motor.md R159). -/
def applyEntry (e : Entry) (s : State) : State :=
  match motorOfKey s.cfg e.key with
  | none => s
  | some (i, m) =>
    let r := driveValue i m e.value s
    if r.1.status = .ok then { r.2 with lastCmdTime := r.2.inputs.now } else r.2

/-- The entries of a command set, in order (45_motor.md R161). -/
def applyEntries : CommandSet → State → State
  | [], s => s
  | e :: es, s => applyEntries es (applyEntry e s)

/-- `wdt_check(now)`: whether the watchdog trips, and the state after (45_motor.md R160). -/
def wdtCheck (s : State) : Bool × State :=
  if wdtExpired s then (true, { neutralise s with lastCmdTime := s.inputs.now }.raise .wdtTrip) else (false, s)

/-- The command branch of SUP_STEP, on the head of the queue (45_motor.md R161). -/
def supervisorCommand (cs : CommandSet) (s : State) : SupCode × State :=
  let s := applyEntries cs s
  if s.cfg.wdtCheckOnCmd then
    let w := wdtCheck s
    (if w.1 then .cmdTrip else .cmd, w.2)
  else (.cmd, s)

/-- The idle branch of SUP_STEP (45_motor.md R161). -/
def supervisorIdle (s : State) : SupCode × State :=
  let w := wdtCheck s
  (if w.1 then .trip else .idle, w.2)

/-- One iteration of the supervisor's loop (45_motor.md R161). -/
def supervise (s : State) : SupCode × State :=
  match s.cmdq with
  | [] => supervisorIdle s
  | cs :: rest => supervisorCommand cs { s with cmdq := rest }

/-- SUP_STEP: only by S; reads the time input (45_motor.md R161). -/
def execSupStep (s : State) : Answer :=
  ownedBy .supervisor (fun s => answer (.okValue (supervise s).1.number) (supervise s).2) s

end Sys2Proof.Machine
end

