-- ==== Sys2Proof/Machine/Status.lean ====
section
/-! DEFINITION. The status registers (46_status.md R180, R181): one read-only index space, which a read never changes. -/

namespace Sys2Proof.Machine

/-- A value in bits `[w−1:0]`, the bits above reading 0 (46_status.md R181). -/
def statField (w v : Nat) : Nat := v % 2 ^ w

/-- The value of the status register of an index; none where the index is reserved (46_status.md R181). -/
def statusValue (s : State) (k : Byte) : Option Nat :=
  match k.toNat with
  | 0x00 => some (s.cnt.get .fifoOvf).toNat
  | 0x01 => some (s.cnt.get .accOvf).toNat
  | 0x02 => some (s.cnt.get .cobsErr).toNat
  | 0x03 => some (s.cnt.get .short).toNat
  | 0x04 => some (s.cnt.get .crcErr).toNat
  | 0x05 => some (s.cnt.get .txShort).toNat
  | 0x06 => some (s.cnt.get .cmdqDrop).toNat
  | 0x07 => some (s.cnt.get .dutyRej).toNat
  | 0x08 => some (s.cnt.get .wdtTrip).toNat
  | 0x09 => some (s.cnt.get .msgOut).toNat
  | 0x10 => some (statField 16 s.fifoRd)
  | 0x11 => some (statField 16 s.fifoWr)
  | 0x12 => some (statField 16 (fifoLevel s))
  | 0x13 => some (statField 16 s.accLen)
  | 0x14 => some (statField 16 s.cmdq.length)
  | 0x15 => some s.lastCmdTime.toNat
  | 0x16 => some s.crcAcc.toNat
  | n =>
    if 0x20 ≤ n ∧ n < 0x20 + s.cfg.nMot then
      some (statField (s.cfg.dutyResBits + 1) (s.duty.getD (n - 0x20) 0))
    else none

/-- STAT_READ; a reserved index is `ILLEGAL` (46_status.md R180; 30_encoding.md R78). -/
def execStatRead (k : Byte) (s : State) : Answer :=
  match statusValue s k with
  | none => illegal s
  | some v => answer (.okValue v) s

end Sys2Proof.Machine
end

