-- ==== Sys2Proof/Machine/Dispatch.lean ====
section
/-! DEFINITION. One arm for each instruction of spec/opcode_table.json. -/

namespace Sys2Proof.Machine

def exec (i : Instr) (s : State) : Host.Outcome State Fault Refusal :=
  match i with
  | .crc8Init => Sys2Proof.Machine.execCrc8Init s
  | .crc8Step b => Sys2Proof.Machine.execCrc8Step b s
  | .crc8 bytes => Sys2Proof.Machine.execCrc8 bytes s
  | .crc8Check bytes => Sys2Proof.Machine.execCrc8Check bytes s
  | .cobsEnc bytes => Sys2Proof.Machine.execCobsEnc bytes s
  | .cobsDec frame => Sys2Proof.Machine.execCobsDec frame s
  | .fifoPush b => Sys2Proof.Machine.execFifoPush b s
  | .fifoPop => Sys2Proof.Machine.execFifoPop s
  | .fifoClear => Sys2Proof.Machine.execFifoClear s
  | .fifoLevel => Sys2Proof.Machine.execFifoLevel s
  | .rxStep => Sys2Proof.Machine.execRxStep s
  | .rxPump => Sys2Proof.Machine.execRxPump s
  | .txFrame ch payload => Sys2Proof.Machine.execTxFrame ch payload s
  | .cmdEnq cs => Sys2Proof.Machine.execCmdEnq cs s
  | .supStep => Sys2Proof.Machine.execSupStep s
  | .setThrottle j v => Sys2Proof.Machine.execSetThrottle j v s
  | .setDutyUs j us => Sys2Proof.Machine.execSetDutyUs j us s
  | .neutralAll => Sys2Proof.Machine.execNeutralAll s
  | .statRead k => Sys2Proof.Machine.execStatRead k s
  | .cobsCodeZero => Sys2Proof.Machine.execCobsCodeZero s
  | .cobsCodeFull => Sys2Proof.Machine.execCobsCodeFull s
  | .cobsCodeRun c => Sys2Proof.Machine.execCobsCodeRun c s

end Sys2Proof.Machine
end

