-- ==== Sys2Proof/Machine/Schedule.lean ====
section
/-! DEFINITION. What each entry of the schedule does (20_memory.md R50): an agent's command is decoded and executed, an
unfinished pump goes on, or the environment acts. The block fetches nothing (10_state.md R21); a command comes from the
schedule, and a COBS code byte from the frame in the codec. -/

namespace Sys2Proof.Machine

/-- Run what a packet decodes to; a command word that is no instruction has the `ILLEGAL` verdict
(30_encoding.md R78; 60_exceptions.md R203). -/
def runDecoded (p : Packet) (s : State) : Answer :=
  match decode p with
  | .error _ => illegal s
  | .ok i => exec i s

/-- An agent issues a command word: nothing where the agent has no step (10_state.md R38), else decode and execute with the
inputs of this step. -/
def issueCommand (c : Command) (s : State) : Answer :=
  if agentEnabled s c.inputs.issuer then runDecoded (.command c.word c.data) { s with inputs := c.inputs }
  else .fault .stuck

/-- The link's notification: one FIFO_PUSH of P while the hook is attached; while it is detached the byte is none of the
block's (60_exceptions.md R204; 43_fifo.md R124). -/
def byteArrives (b : Byte) (s : State) : Answer :=
  if s.prodEn then exec (.fifoPush b) { s with inputs := { s.inputs with issuer := .producer } }
  else .next s.noResult

/-- RESET: every state element takes its reset value; the run's output histories and the schedule are the environment's and
stay (70_reset_and_hazards.md R230; 10_state.md R35). -/
def resetBlock (t : Time) (s : State) : State :=
  { State.atReset s.cfg t with linkOut := s.linkOut, msgOut := s.msgOut, agenda := s.agenda }

/-- A frame is presented to the codec; an empty one is `INVALID` at once (42_cobs.md R111). -/
def loadFrame (f : List Byte) (s : State) : Answer :=
  if f.isEmpty then answer .invalid { s with codec := idleCodec }
  else .next { s.noResult with codec := { rest := f, out := [] } }

/-- The codec reads the code byte of its next run and executes its class; with no frame in it there is no step
(30_encoding.md R73). -/
def runCodec (s : State) : Answer :=
  match s.codec.rest with
  | [] => .fault .stuck
  | c :: rest => runDecoded (.code c) { s with codec := { s.codec with rest := rest } }

/-- C's next iteration of its pump (44_frame.md R133). -/
def continuePump (s : State) : Answer := pumpStep { s with inputs := { s.inputs with issuer := .consumer } }

/-- One entry of the schedule, already taken off it. -/
def act (a : Action) (s : State) : Answer :=
  match a with
  | .issue c => issueCommand c s
  | .pump => continuePump s
  | .byteArrived b => byteArrives b s
  | .sinkReturn => .next { s.noResult with sinkBusy := false }
  | .prodDisable => .next { s.noResult with prodEn := false }
  | .prodEnable => .next { s.noResult with prodEn := true }
  | .reset t => .next (resetBlock t s)
  | .codecFrame f => loadFrame f s
  | .codecRun => runCodec s

/-- With nothing scheduled, C goes on with a pump that can go on, and otherwise every element waits unchanged
(44_frame.md R133; 60_exceptions.md R215). -/
def actUnscheduled (s : State) : Answer := if s.cInPump && !s.sinkBusy then continuePump s else .next s.noResult

/-- One step of the machine: none from an ill-formed configuration, none after a `fault(reason)`, else the next entry of the
schedule (60_exceptions.md R202; 10_state.md R33). -/
def nextStep (s : State) : Answer :=
  if s.cfg.wf then
    match s.fault, s.agenda with
    | some why, _ => .fault (.forbidden why)
    | none, a :: rest => act a { s with agenda := rest }
    | none, [] => actUnscheduled s
  else .fault (.forbidden .badConfig)

/-! ## One instruction of the opcode table as the next step -/

/-- The agent that may issue a command word: the owner 30_encoding.md R77 names, T where any agent may. -/
def ownerOf (w : CmdWord) : Agent :=
  match (opcOf w).toNat with
  | 0x20 => .producer
  | 0x21 | 0x30 | 0x31 | 0x40 => .consumer
  | 0x41 | 0x42 | 0x43 | 0x44 => .supervisor
  | _ => .transmitter

/-- The state whose next step runs what a packet presents: a command put first on the schedule with its owner as issuer and
the other inputs as they stand, or a code byte put into the codec with zeros as the run's data bytes. -/
def presentPacket (p : Packet) (s : State) : State :=
  match p with
  | .command w data =>
    { s with agenda := .issue { word := w, data := data, inputs := { s.inputs with issuer := ownerOf w } } :: s.agenda }
  | .code c => { s with agenda := .codecRun :: s.agenda, codec := { rest := c :: zeroBytes (c.toNat - 1), out := [] } }

end Sys2Proof.Machine
end

