-- ==== Sys2Proof/Machine/Step.lean ====
section
/-! DEFINITION. One step of the machine, and the state that the host steps one instruction from. -/

namespace Sys2Proof.Machine

/-- One step: of an agent or of the environment, as the schedule says (20_memory.md R50). -/
def step (s : State) : Host.Outcome State Fault Refusal := nextStep s

/-- The state `s` with the instruction whose bits are `w` presented as its next step (log entry 9). -/
def State.withFetchWord (s : State) (nbits w : Nat) : State := presentPacket (tablePacket nbits w) s

end Sys2Proof.Machine
end

