-- ==== Sys2Proof/Safety.lean ====
section
/-! DEFINITION. What the statements speak of: the invariant of the machine, the contents of the FIFO, the bytes of a frame
fed to the receiver, the runs of a frame stepped through the codec, and what counts as a neutral state. -/

namespace Sys2Proof.Machine

/-! ## The FIFO as a queue -/

/-- The slot of the `j`-th pending byte, 0 being the next one popped (10_state.md R22 to R25). -/
def pendingSlot (s : State) (j : Nat) : Nat := (s.fifoRd + j) % s.cfg.fifoN

/-- The pending bytes, the next one popped first: the contents of the `LEVEL` slots from `FIFO_RD` on. -/
def pendingBytes (s : State) : List Byte :=
  (List.range (fifoLevel s)).filterMap fun j => Memory.read s.fifoMem (pendingSlot s j)

/-- The accumulated bytes of the frame being received: slots 0 to `ACC_LEN − 1` (10_state.md R26, R27). -/
def accumulatedBytes (s : State) : List Byte :=
  (List.range s.accLen).filterMap fun a => Memory.read s.accMem a

/-! ## The invariant -/

/-- What every step keeps, and reset has: a well-formed configuration, storage in its canonical form and within its array,
indices and lengths in their ranges, every pending FIFO slot filled, every accumulated byte there and not a delimiter, the
queue within its depth, one duty register a motor within its range, and no pump count outside a pump
(10_state.md R22 to R30; 00_scope.md R7). -/
structure Inv (s : State) : Prop where
  cfgWf : s.cfg.wf = true
  fifoMemWf : Memory.wf s.fifoMem = true
  fifoMemBelow : Memory.below s.cfg.fifoN s.fifoMem = true
  fifoRdLt : s.fifoRd < s.cfg.fifoN
  fifoWrLt : s.fifoWr < s.cfg.fifoN
  fifoFilled : ∀ j, j < fifoLevel s → (Memory.read s.fifoMem (pendingSlot s j)).isSome = true
  accMemWf : Memory.wf s.accMem = true
  accMemBelow : Memory.below s.cfg.accMax s.accMem = true
  accLenLe : s.accLen ≤ s.cfg.accMax
  accFilled : ∀ a, a < s.accLen → ∃ b, Memory.read s.accMem a = some b ∧ b ≠ 0x00#8
  cmdqLe : s.cmdq.length ≤ s.cfg.qDepth
  dutyLength : s.duty.length = s.cfg.nMot
  dutyLe : ∀ d, d ∈ s.duty → d ≤ 2 ^ s.cfg.dutyResBits
  pumpIdle : s.cInPump = false → s.pumpCount = 0

/-- Every duty register is at its motor's neutral value (45_motor.md R156). -/
def Neutral (s : State) : Prop := s.duty = neutralDuties s.cfg

/-- The stop of a step is none of the storage faults, which no rule of the spec has (20_memory.md R51). -/
def Fault.isStorage : Fault → Bool
  | .unwrittenSlot => true
  | .noSuchSlot => true
  | .stuck => false
  | .forbidden _ => false

/-! ## Sequences of steps -/

/-- The popped bytes of a sequence taken by the receiver one after the other, with the sink returning at once
(44_frame.md R130, R132). -/
def receiveAll : List Byte → State → Except Fault State
  | [], s => .ok s
  | b :: bs, s =>
    match takeByte b s with
    | .error f => .error f
    | .ok (_, s') => receiveAll bs { s' with sinkBusy := false }

/-- The codec reading the runs of the frame it holds to the end, at most `n` of them (30_encoding.md R73). -/
def codecToEnd : Nat → State → Answer
  | 0, s => .next s
  | n + 1, s =>
    match runCodec s with
    | .next s' => if s'.codec.rest.isEmpty then .next s' else codecToEnd n s'
    | .fault f => .fault f
    | .refused r => .refused r

/-- CRC8_STEP executed over the bytes of a sequence in order (30_encoding.md R82 `CRCSEQ`). -/
def crcSteps : List Byte → State → Answer
  | [], s => .next s
  | b :: bs, s =>
    match exec (.crc8Step b) s with
    | .next s' => crcSteps bs s'
    | .fault f => .fault f
    | .refused r => .refused r

/-- FIFO_PUSH executed over the bytes of a sequence in order (30_encoding.md R82 `RXBYTES`). -/
def pushAll : List Byte → State → Answer
  | [], s => .next s
  | b :: bs, s =>
    match exec (.fifoPush b) s with
    | .next s' => pushAll bs s'
    | .fault f => .fault f
    | .refused r => .refused r

/-- SUP_STEP executed by S at each of a sequence of times (30_encoding.md R82 `IDLE`, while the queue is empty). -/
def supervisorAt : List Time → State → Answer
  | [], s => .next s
  | now :: ts, s =>
    match exec .supStep { s with inputs := { s.inputs with issuer := .supervisor, now := now } } with
    | .next s' => supervisorAt ts s'
    | .fault f => .fault f
    | .refused r => .refused r

/-- The steps of a schedule, to its end, from a state. -/
def runAll : List Action → State → Answer
  | [], s => .next s
  | a :: rest, s =>
    match step { s with agenda := a :: rest } with
    | .next s' => runAll rest s'
    | .fault f => .fault f
    | .refused r => .refused r

/-! ## A frame arriving over the link -/

/-- What happens at a receiver while a frame arrives: a byte arrives, or C takes one step of the receiver, by a pump if it is
in one, and otherwise by a new RX_PUMP or a single RX_STEP. -/
inductive LinkEvent where
  | arrives (b : Byte)
  | takes (byPump : Bool)
  deriving DecidableEq, Repr

/-- The bytes that arrive, in order. -/
def arrivedBytes : List LinkEvent → List Byte
  | [] => []
  | .arrives b :: es => b :: arrivedBytes es
  | .takes _ :: es => arrivedBytes es

/-- How many bytes are pending after the events, `n` being pending before them; none where one arrives with `room` bytes
already pending. -/
def pendingAfter (room : Nat) : Nat → List LinkEvent → Option Nat
  | n, [] => some n
  | n, .arrives _ :: es => if n < room then pendingAfter room (n + 1) es else none
  | n, .takes _ :: es => pendingAfter room (n - 1) es

/-- A command word of the receiver, as C issues it. -/
def consumerCommand (w : CmdWord) : Command :=
  { word := w, data := [], inputs := { issuer := .consumer, now := 0#32, linkAccepts := 0 } }

/-- C's step of the receiver: its pump's next, a new RX_PUMP, or an RX_STEP (44_frame.md R130, R133). -/
def takesAction (inPump byPump : Bool) : Action :=
  if inPump then .pump else .issue (consumerCommand (if byPump then 0x31000000#32 else 0x30000000#32))

/-- The schedule of the events: each byte's notification, and each step of the receiver followed by the sink's return, which
changes nothing where no sink runs. `n` is how many bytes are pending and `inPump` whether C is in a pump, which the step
that finds none pending ends (44_frame.md R132, R133; 60_exceptions.md R204). -/
def receiverSchedule : Nat → Bool → List LinkEvent → List Action
  | _, _, [] => []
  | n, inPump, .arrives b :: es => .byteArrived b :: receiverSchedule (n + 1) inPump es
  | n, inPump, .takes byPump :: es =>
    takesAction inPump byPump :: .sinkReturn
      :: receiverSchedule (n - 1) ((inPump || byPump) && decide (n ≠ 0)) es

/-- A receiver to which a frame can arrive: no fault has been taken, the hook is attached, no pump is in progress, no sink
runs and no byte is pending (44_frame.md R138). -/
structure ReceiverReady (s : State) : Prop where
  noFault : s.fault = none
  hookAttached : s.prodEn = true
  noPump : s.cInPump = false
  noSink : s.sinkBusy = false
  nonePending : s.fifoRd = s.fifoWr

/-- What a delimiter makes of the frame being received, where there is one: the frame's own bytes decide its event
(44_frame.md R130, R131). -/
def endedFrame (s : State) : State := if s.accLen = 0 then s else (validateFrame (accumulatedBytes s) s).2

/-! ## Comparing answers -/

/-- An answer with its next state, if it has one, changed. -/
def mapNext (f : State → State) : Answer → Answer
  | .next s => .next (f s)
  | .fault r => .fault r
  | .refused r => .refused r

/-! ## Illegal command words -/

/-- The operation codes of 30_encoding.md R77. -/
def definedOpcodes : List Nat :=
  [0x01, 0x02, 0x03, 0x04, 0x10, 0x11, 0x20, 0x21, 0x22, 0x23, 0x30, 0x31, 0x32, 0x40, 0x41, 0x42, 0x43, 0x44, 0x50]

/-- The operation codes whose `A8` is required to be 0 (30_encoding.md R77). -/
def zeroA8Opcodes : List Nat :=
  [0x01, 0x03, 0x04, 0x10, 0x11, 0x21, 0x22, 0x23, 0x30, 0x31, 0x40, 0x41, 0x44]

/-- The operation codes whose `L16` is required to be 0 (30_encoding.md R77). -/
def zeroL16Opcodes : List Nat :=
  [0x01, 0x02, 0x20, 0x21, 0x22, 0x23, 0x30, 0x31, 0x41, 0x42, 0x44, 0x50]

/-- The cases of 30_encoding.md R78, in its order, for a command word with its data-port operand. -/
def IllegalWord (c : Config) (w : CmdWord) (data : List Byte) : Prop :=
  (opcOf w).toNat ∉ definedOpcodes
  ∨ ((opcOf w).toNat ∈ zeroA8Opcodes ∧ a8Of w ≠ 0x00#8)
  ∨ ((opcOf w).toNat ∈ zeroL16Opcodes ∧ l16Of w ≠ 0#16)
  ∨ ((opcOf w).toNat = 0x04 ∧ l16Of w = 0#16)
  ∨ (((opcOf w).toNat = 0x42 ∨ (opcOf w).toNat = 0x43) ∧ c.nMot ≤ (a8Of w).toNat)
  ∨ ((opcOf w).toNat = 0x50 ∧ statIndexDefined c.nMot (a8Of w) = false)
  ∨ data.length ≠ dataLength w

/-! ## Terms of the derived properties -/

/-- `F(B)`, the number of 0xFF runs of an encoding: the sum over the maximal zero-free stretches of `floor(length / 254)`,
`n` being the length of the stretch so far (42_cobs.md R114). -/
def fullRunsFrom : Nat → List Byte → Nat
  | n, [] => n / 254
  | n, b :: s => if b = 0x00#8 then n / 254 + fullRunsFrom 0 s else fullRunsFrom (n + 1) s

/-- The length of the zero-free stretch a sequence ends in (42_cobs.md R110, `full_at_end`). -/
def lastStretchFrom : Nat → List Byte → Nat
  | n, [] => n
  | n, b :: s => if b = 0x00#8 then lastStretchFrom 0 s else lastStretchFrom (n + 1) s

/-- `full_at_end`: the sequence ends in a zero-free stretch of a positive multiple of 254 bytes (42_cobs.md R110). -/
def fullAtEnd (s : List Byte) : Bool := decide (0 < lastStretchFrom 0 s) && decide (lastStretchFrom 0 s % 254 = 0)

/-- The bytewise exclusive or of two sequences (41_crc8.md R106). -/
def xorBytes (a e : List Byte) : List Byte := List.zipWith (· ^^^ ·) a e

/-- The rational a fraction stands for (00_scope.md R11). -/
def Frac.val (a : Frac) : ℚ := a.num / a.den

/-- The agent that owns an instruction, where only one may issue it (30_encoding.md R77; 60_exceptions.md R202). -/
def ownerOfInstr : Instr → Option Agent
  | .fifoPush _ => some .producer
  | .fifoPop | .rxStep | .rxPump | .cmdEnq _ => some .consumer
  | .supStep | .setThrottle _ _ | .setDutyUs _ _ | .neutralAll => some .supervisor
  | .crc8Init | .crc8Step _ | .crc8 _ | .crc8Check _ | .cobsEnc _ | .cobsDec _ => none
  | .fifoClear | .fifoLevel | .txFrame _ _ | .statRead _ => none
  | .cobsCodeZero | .cobsCodeFull | .cobsCodeRun _ => none

/-- The one agent whose steps count an event, where there is one (10_state.md R32): `TX_SHORT` is counted by whichever agent
issued the TX_FRAME. -/
def writerOfEvent : Event → Option Agent
  | .fifoOvf => some .producer
  | .accOvf | .cobsErr | .short | .crcErr | .msgOut | .cmdqDrop => some .consumer
  | .dutyRej | .wdtTrip => some .supervisor
  | .txShort => none

end Sys2Proof.Machine
end

