-- ==== Sys2Proof/Certificates/Slice0/Obligations.lean ====
section
/-! DEFINITION. The statements for the provers. -/

open Sys2Proof Sys2Proof.Machine

/-! ## Encodings -/

/-- Decoding the encoding of an instruction gives it back, whatever its operands, as long as they fit the encoding
(30_encoding.md R73, R75, R76, R77). -/
def Obligations.DecodeOfEncodeIsTheInstruction : Prop :=
  ∀ i : Instr, i.encodable = true → decode (encode i) = .ok i

/-- A command word with its data port has one meaning: what it decodes to is encodable and encodes to it; so does every code
byte (30_encoding.md R73, R75, R76, R77). -/
def Obligations.EncodeOfDecodeIsThePacket : Prop :=
  (∀ (w : CmdWord) (data : List Byte) (i : Instr), decodeCommand w data = .ok i →
    i.encodable = true ∧ encode i = .command w data)
  ∧ ∀ c : Byte, (decodeCode c).encodable = true ∧ encode (decodeCode c) = .code c

/-- No command word has the fixed bits of two rows of the opcode table, and a command word that decodes has the fixed bits of
its instruction's row and of no other (30_encoding.md R77; spec/opcode_table.json). -/
def Obligations.OpcodeTableRowsAreDisjointAndDecoded : Prop :=
  (∀ w : CmdWord, ∀ r ∈ commandRows, ∀ r' ∈ commandRows, r.matchesWord w = true → r'.matchesWord w = true → r = r')
  ∧ ∀ (w : CmdWord) (data : List Byte) (i : Instr), decodeCommand w data = .ok i →
      ∀ r ∈ commandRows, r.matchesWord w = true ↔ r.mnemonic = i.mnemonic

/-- Command words of the spec's own programs and vectors decode to the operations they stand for (95_test_vectors.md, V-STAT
and programs P1 to P4). -/
def Obligations.SpecProgramWordsDecode : Prop :=
  decodeCommand 0x20070000#32 [] = .ok (.fifoPush 0x07#8)
  ∧ decodeCommand 0x31000000#32 [] = .ok .rxPump
  ∧ decodeCommand 0x41000000#32 [] = .ok .supStep
  ∧ decodeCommand 0x430107D1#32 [] = .ok (.setDutyUs 0x01#8 2001#16)
  ∧ decodeCommand 0x50160000#32 [] = .ok (.statRead 0x16#8)
  ∧ decodeCommand 0x10000004#32 [0x11#8, 0x22#8, 0x00#8, 0x33#8] = .ok (.cobsEnc [0x11#8, 0x22#8, 0x00#8, 0x33#8])
  ∧ decodeCommand 0x05000000#32 [] = .error .reservedOpcode
  ∧ decodeCommand 0x21010000#32 [] = .error .nonzeroA8
  ∧ decodeCommand 0x01000001#32 [] = .error .nonzeroL16
  ∧ decodeCommand 0x04000000#32 [] = .error .emptyCheck

/-- A command word that is illegal in the configuration is answered `(ILLEGAL, absent, absent)` and changes no state of the
block, and any other decodes to a well-formed instruction, which the step executes (30_encoding.md R78; 60_exceptions.md
R203). -/
def Obligations.IllegalWordsChangeNothingAndOthersRun : Prop :=
  ∀ (s : State) (c : Command) (rest : List Action), s.cfg.wf = true → s.fault = none → s.agenda = .issue c :: rest →
    agentEnabled s c.inputs.issuer = true →
      (IllegalWord s.cfg c.word c.data →
        step s = .next { s with agenda := rest, inputs := c.inputs
                                result := some ⟨.illegal, none, .absent⟩ })
      ∧ (¬ IllegalWord s.cfg c.word c.data →
        ∃ i : Instr, decodeCommand c.word c.data = .ok i ∧ i.wf s.cfg = true
          ∧ step s = exec i { s with agenda := rest, inputs := c.inputs })

/-- A step runs the instruction that the scheduled command decodes to, with that command's inputs and the schedule's first
entry taken off (20_memory.md R50; 30_encoding.md R75). A codec step runs the class of the next code byte, that byte read,
and a frame presented to the codec is loaded (the codec's own steps are the model's choice, log entry 8). C's next step of
its pump is a pump iteration, which there is only while a pump is in progress and no sink runs; the sink's return ends its
call (44_frame.md R132, R133; log entries 12 and 13); with an empty schedule a pump that can go on does, and otherwise nothing
changes (the schedule is the model's choice, log entry 5). -/
def Obligations.StepRunsTheDecodedInstruction : Prop :=
  (∀ (s : State) (c : Command) (rest : List Action) (i : Instr), s.cfg.wf = true → s.fault = none →
    s.agenda = .issue c :: rest → agentEnabled s c.inputs.issuer = true → decodeCommand c.word c.data = .ok i →
      step s = exec i { s with agenda := rest, inputs := c.inputs })
  ∧ (∀ (s : State) (code : Byte) (frame : List Byte) (rest : List Action), s.cfg.wf = true → s.fault = none →
      s.agenda = .codecRun :: rest → s.codec.rest = code :: frame →
        step s = exec (decodeCode code) { s with agenda := rest, codec := { s.codec with rest := frame } })
  ∧ ∀ (s : State) (rest : List Action) (f : List Byte), s.cfg.wf = true → s.fault = none →
      (s.agenda = .codecRun :: rest → s.codec.rest = [] → step s = .fault .stuck)
      ∧ (s.agenda = .codecFrame f :: rest → f ≠ [] →
          step s = .next { s with agenda := rest, codec := { rest := f, out := [] }, result := none })
      ∧ (s.agenda = .codecFrame [] :: rest →
          step s = .next { s with agenda := rest, codec := { rest := [], out := [] }
                                  result := some ⟨.none, none, .invalid⟩ })
      ∧ (s.agenda = .pump :: rest → s.cInPump = true → s.sinkBusy = false →
          step s = pumpStep { s with agenda := rest, inputs := { s.inputs with issuer := .consumer } })
      ∧ (s.agenda = .pump :: rest → s.cInPump = false ∨ s.sinkBusy = true → step s = .fault .stuck)
      ∧ (s.agenda = .sinkReturn :: rest →
          step s = .next { s with agenda := rest, sinkBusy := false, result := none })
      ∧ (s.agenda = [] → s.cInPump = true → s.sinkBusy = false →
          step s = pumpStep { s with inputs := { s.inputs with issuer := .consumer } })
      ∧ (s.agenda = [] → s.cInPump = false ∨ s.sinkBusy = true → step s = .next { s with result := none })

/-! ## CRC-8 -/

/-- `crc_step` is eight times: shift left within 8 bits, and add the polynomial when bit 7 was set, from `c xor b`; and
`crc8` is `crc_step` over the bytes in order from `CRC_INIT` (41_crc8.md R100, R101). -/
def Obligations.CrcStepIsEightShifts : Prop :=
  (∀ poly x : Byte, (crcShift poly x).toNat
      = if 128 ≤ x.toNat then (2 * x.toNat % 256) ^^^ poly.toNat else 2 * x.toNat % 256)
  ∧ (∀ poly c b : Byte, crcStep poly c b = (crcShift poly)^[8] (c ^^^ b))
  ∧ (∀ poly c : Byte, crcStep poly c c = 0x00#8)
  ∧ ∀ (cfg : Config) (s : List Byte), Sys2Proof.Machine.crc8 cfg s = s.foldl (crcStep cfg.crcPoly) cfg.crcInit

/-- CRC8_INIT loads `CRC_ACC` with `CRC_INIT`, answers it, and changes nothing else (41_crc8.md R102). -/
def Obligations.Crc8InitLoadsTheInitialValue : Prop :=
  encode .crc8Init = .command 0x01000000#32 []
  ∧ ∀ s : State, exec .crc8Init s
      = .next { s with crcAcc := s.cfg.crcInit
                       result := some ⟨.ok, some s.cfg.crcInit.toNat, .absent⟩ }

/-- CRC8_STEP takes one byte into `CRC_ACC`, answers the new value, and changes nothing else (41_crc8.md R103). -/
def Obligations.Crc8StepTakesOneByte : Prop :=
  ∀ (b : Byte), encode (.crc8Step b) = .command (0x02#8 ++ b ++ 0#16) [] ∧ ∀ s : State,
    exec (.crc8Step b) s
      = .next { s with crcAcc := crcStep s.cfg.crcPoly s.crcAcc b
                       result := some ⟨.ok, some (crcStep s.cfg.crcPoly s.crcAcc b).toNat, .absent⟩ }

/-- CRC8_INIT followed by CRC8_STEP over every byte of a sequence leaves `CRC_ACC` at the sequence's CRC, and nothing else of
the block changed (41_crc8.md R103, corner cases; 30_encoding.md R82 `CRCSEQ`). -/
def Obligations.SerialCrcIsTheCrcOfTheSequence : Prop :=
  ∀ (bytes : List Byte) (s : State), ∃ t u : State,
    exec .crc8Init s = .next t ∧ crcSteps bytes t = .next u
      ∧ u = { s with crcAcc := Sys2Proof.Machine.crc8 s.cfg bytes, result := u.result }

/-- CRC8 answers the CRC of its operand and changes nothing (41_crc8.md R104). -/
def Obligations.Crc8AnswersTheCrc : Prop :=
  ∀ (bytes : List Byte), encode (.crc8 bytes) = .command (0x03#8 ++ 0x00#8 ++ BitVec.ofNat 16 bytes.length) bytes
    ∧ ∀ s : State, exec (.crc8 bytes) s
        = .next { s with result := some ⟨.ok, some (Sys2Proof.Machine.crc8 s.cfg bytes).toNat, .absent⟩ }

/-- CRC8_CHECK compares the CRC of all but the last byte with the last byte, answers `OK` or `NONE` with that CRC, and changes
nothing; with no operand it is `ILLEGAL` (41_crc8.md R105; 30_encoding.md R78). That it answers `OK` exactly when the CRC of the
whole operand is zero is what R105 marks as derived, from R100; one direction also needs the odd polynomial of a well-formed
configuration (00_scope.md R7). -/
def Obligations.Crc8CheckComparesTheLastByte : Prop :=
  (∀ (bytes : List Byte) (last : Byte) (s : State), exec (.crc8Check (bytes ++ [last])) s
    = .next { s with
        result := some ⟨if Sys2Proof.Machine.crc8 s.cfg bytes = last then .ok else .none,
          some (Sys2Proof.Machine.crc8 s.cfg bytes).toNat, .absent⟩ })
  ∧ (∀ (bytes : List Byte) (last : Byte) (s : State), s.cfg.wf = true →
      (Sys2Proof.Machine.crc8 s.cfg bytes = last ↔ Sys2Proof.Machine.crc8 s.cfg (bytes ++ [last]) = 0x00#8))
  ∧ (∀ s : State, exec (.crc8Check []) s = .next { s with result := some ⟨.illegal, none, .absent⟩ })
  ∧ ∀ bytes : List Byte,
      encode (.crc8Check bytes) = .command (0x04#8 ++ 0x00#8 ++ BitVec.ofNat 16 bytes.length) bytes

/-- The derived properties of the CRC: a sequence followed by its CRC has the CRC zero, for any polynomial and initial value;
the CRC of the exclusive or of two sequences of one length is the exclusive or of the CRC of the first and the CRC of the second
from the initial value zero; and with an odd polynomial, changing one byte of a sequence followed by its CRC, at any place and
to any other value, makes the check fail (41_crc8.md R106). -/
def Obligations.CrcResidueLinearityAndSingleByteErrors : Prop :=
  (∀ (c : Config) (s : List Byte), Sys2Proof.Machine.crc8 c (s ++ [Sys2Proof.Machine.crc8 c s]) = 0x00#8)
  ∧ (∀ (c : Config) (a e : List Byte), a.length = e.length →
      Sys2Proof.Machine.crc8 c (xorBytes a e)
        = Sys2Proof.Machine.crc8 c a ^^^ Sys2Proof.Machine.crc8 { c with crcInit := 0x00#8 } e)
  ∧ ∀ (c : Config) (s before after : List Byte) (b b' : Byte), c.crcPoly.getLsbD 0 = true →
      s ++ [Sys2Proof.Machine.crc8 c s] = before ++ b :: after → b' ≠ b →
        ∃ r, crcCheck c (before ++ b' :: after) = some r ∧ r.status = .none

/-- The running CRC register is read and written only by CRC8_INIT, CRC8_STEP and STAT_READ of its index: any other
instruction does the same whatever it holds, and leaves it (10_state.md R28). -/
def Obligations.CrcAccTouchesNoOtherInstruction : Prop :=
  ∀ (i : Instr) (s : State) (x : Byte), i ≠ .crc8Init → (∀ b, i ≠ .crc8Step b) → i ≠ .statRead 0x16#8 →
    exec i { s with crcAcc := x } = mapNext (fun t => { t with crcAcc := x }) (exec i s)

/-! ## COBS -/

/-- Decoding an encoding gives the sequence back, under either value of `COBS_FF_TAIL` (42_cobs.md R114 (a)). -/
def Obligations.CobsDecodeOfEncodeIsTheSequence : Prop :=
  ∀ (tail : CobsTail) (s : List Byte), cobsDecode (cobsEncode tail s) = some s

/-- No byte of an encoding is zero, and its length is one code byte, the sequence, one more for each full run, and one less
where the final run is left out; so at most one byte in 254 more, and at least one byte (42_cobs.md R114 (b), (c), (d)). -/
def Obligations.CobsEncodingHasNoZeroAndItsLength : Prop :=
  ∀ (tail : CobsTail) (s : List Byte),
    0x00#8 ∉ cobsEncode tail s
    ∧ (cobsEncode tail s).length + (if tail = .minimal ∧ fullAtEnd s = true then 1 else 0)
        = s.length + 1 + fullRunsFrom 0 s
    ∧ (cobsEncode tail s).length ≤ s.length + 1 + s.length / 254
    ∧ 1 ≤ (cobsEncode tail s).length

/-- What the decoder refuses, and what it accepts besides the encoder's own output: an empty frame, a frame with a zero byte
anywhere and a run that reads past the end are `INVALID`; a full run decodes to its data with or without a final 0x01
(42_cobs.md R111, R114 (e)). -/
def Obligations.CobsDecodeRefusesAndAccepts : Prop :=
  cobsDecode [] = none
  ∧ (∀ f : List Byte, 0x00#8 ∈ f → cobsDecode f = none)
  ∧ (∀ (s : List Byte) (tail : CobsTail) (n : Byte) (f : List Byte), f.length + 1 < n.toNat →
      cobsDecode (cobsEncode tail s ++ n :: f) = none)
  ∧ ∀ x : List Byte, x.length = 254 → 0x00#8 ∉ x →
      cobsDecode (0xFF#8 :: x) = some x ∧ cobsDecode (0xFF#8 :: x ++ [0x01#8]) = some x

/-- COBS_ENC answers the encoding and its length and changes nothing (42_cobs.md R112). -/
def Obligations.CobsEncAnswersTheEncoding : Prop :=
  ∀ (bytes : List Byte), encode (.cobsEnc bytes) = .command (0x10#8 ++ 0x00#8 ++ BitVec.ofNat 16 bytes.length) bytes
    ∧ ∀ s : State, exec (.cobsEnc bytes) s
        = .next { s with result := some ⟨.ok, some (cobsEncode s.cfg.cobsFfTail bytes).length,
            .bytes (cobsEncode s.cfg.cobsFfTail bytes)⟩ }

/-- COBS_DEC answers the decoded sequence and its length, or `INVALID`, and changes nothing and counts nothing (42_cobs.md
R113). -/
def Obligations.CobsDecAnswersTheSequence : Prop :=
  ∀ (f : List Byte), encode (.cobsDec f) = .command (0x11#8 ++ 0x00#8 ++ BitVec.ofNat 16 f.length) f ∧ ∀ s : State,
    (cobsDecode f = none → exec (.cobsDec f) s
      = .next { s with result := some ⟨.none, none, .invalid⟩ })
    ∧ ∀ d, cobsDecode f = some d → exec (.cobsDec f) s
        = .next { s with result := some ⟨.ok, some d.length, .bytes d⟩ }

/-- The code byte 0x00 makes the frame in the codec invalid (30_encoding.md R73; the codec's own step is the model's, log
entry 8). -/
def Obligations.CobsCodeZeroInvalidatesTheFrame : Prop :=
  ∀ s : State, exec .cobsCodeZero s
    = .next { s with codec := { rest := [], out := [] }
                     result := some ⟨.none, none, .invalid⟩ }

/-- The code byte 0xFF: 254 non-zero data bytes must follow; they are decoded with no implied zero, and the frame ends there
or goes on (30_encoding.md R73, R74; the codec's own step is the model's, log entry 8). -/
def Obligations.CobsCodeFullTakesTwoHundredFiftyFourBytes : Prop :=
  ∀ s : State,
    (s.codec.rest.length < 254 ∨ 0x00#8 ∈ s.codec.rest.take 254 → exec .cobsCodeFull s
      = .next { s with codec := { rest := [], out := [] }
                       result := some ⟨.none, none, .invalid⟩ })
    ∧ (s.codec.rest.length = 254 → 0x00#8 ∉ s.codec.rest → exec .cobsCodeFull s
        = .next { s with codec := { rest := [], out := [] }
                         result := some ⟨.ok, some (s.codec.out.length + 254), .bytes (s.codec.out ++ s.codec.rest)⟩ })
    ∧ (254 < s.codec.rest.length → 0x00#8 ∉ s.codec.rest.take 254 → exec .cobsCodeFull s
        = .next { s with codec := { rest := s.codec.rest.drop 254, out := s.codec.out ++ s.codec.rest.take 254 }
                         result := none })

/-- A code byte `c` in 0x01..0xFE: `c − 1` non-zero data bytes must follow; they are decoded, and a zero is implied after them
where the frame goes on and none where it ends (30_encoding.md R73, R74; the codec's own step is the model's, log entry
8). -/
def Obligations.CobsCodeRunTakesItsDataBytes : Prop :=
  ∀ (c : Byte) (s : State), 1 ≤ c.toNat → c.toNat ≤ 254 →
    (s.codec.rest.length < c.toNat - 1 ∨ 0x00#8 ∈ s.codec.rest.take (c.toNat - 1) → exec (.cobsCodeRun c) s
      = .next { s with codec := { rest := [], out := [] }
                       result := some ⟨.none, none, .invalid⟩ })
    ∧ (s.codec.rest.length = c.toNat - 1 → 0x00#8 ∉ s.codec.rest → exec (.cobsCodeRun c) s
        = .next { s with codec := { rest := [], out := [] }
                         result := some ⟨.ok, some (s.codec.out.length + (c.toNat - 1)),
                           .bytes (s.codec.out ++ s.codec.rest)⟩ })
    ∧ (c.toNat - 1 < s.codec.rest.length → 0x00#8 ∉ s.codec.rest.take (c.toNat - 1) → exec (.cobsCodeRun c) s
        = .next { s with codec := { rest := s.codec.rest.drop (c.toNat - 1)
                                    out := s.codec.out ++ s.codec.rest.take (c.toNat - 1) ++ [0x00#8] }
                         result := none })

/-- Stepping the code classes over a frame, run by run, reads it exactly as `cobs_decode` does (30_encoding.md R73;
42_cobs.md R111; the codec's own step is the model's, log entry 8). -/
def Obligations.CodecRunsReadAFrameAsCobsDecode : Prop :=
  ∀ (s : State) (f : List Byte), f ≠ [] →
    codecToEnd f.length { s with codec := { rest := f, out := [] } }
      = .next { s with codec := { rest := [], out := [] }
                       result := some (match cobsDecode f with
                         | none => ⟨.none, none, .invalid⟩
                         | some d => ⟨.ok, some d.length, .bytes d⟩) }

/-! ## FIFO -/

/-- FIFO_PUSH: by P with its hook attached it stores the byte in the slot `FIFO_WR` and advances the index, or on a full FIFO
drops and counts it and changes no slot and no index; by another agent it is `fault(WRONG_AGENT)`; with the hook detached P
has no step (43_fifo.md R120). -/
def Obligations.FifoPushStoresOrCountsTheOverflow : Prop :=
  ∀ (b : Byte) (s : State),
    encode (.fifoPush b) = .command (0x20#8 ++ b ++ 0#16) []
    ∧ (s.inputs.issuer ≠ .producer →
        exec (.fifoPush b) s = .next { s with fault := some .wrongAgent, result := none })
    ∧ (s.inputs.issuer = .producer → s.prodEn = false → exec (.fifoPush b) s = .fault .stuck)
    ∧ (s.inputs.issuer = .producer → s.prodEn = true → (s.fifoWr + 1) % s.cfg.fifoN = s.fifoRd →
        exec (.fifoPush b) s
          = .next { s with cnt := { s.cnt with fifoOvf := s.cnt.fifoOvf + 1#32 }
                           result := some ⟨.none, none, .absent⟩ })
    ∧ (s.inputs.issuer = .producer → s.prodEn = true → (s.fifoWr + 1) % s.cfg.fifoN ≠ s.fifoRd →
        s.fifoWr < s.cfg.fifoN → ∃ t : State, exec (.fifoPush b) s = .next t
          ∧ t = { s with fifoMem := t.fifoMem, fifoWr := (s.fifoWr + 1) % s.cfg.fifoN
                         result := some ⟨.ok, none, .absent⟩ }
          ∧ Memory.read t.fifoMem s.fifoWr = some b
          ∧ ∀ a, a ≠ s.fifoWr → Memory.read t.fifoMem a = Memory.read s.fifoMem a)

/-- FIFO_POP: by C it answers the byte of the slot `FIFO_RD` and advances the index, or `NONE` on an empty FIFO, changing
nothing else; by another agent it is `fault(WRONG_AGENT)` (43_fifo.md R121). -/
def Obligations.FifoPopAnswersTheOldestByte : Prop :=
  ∀ s : State,
    encode .fifoPop = .command 0x21000000#32 []
    ∧ (s.inputs.issuer ≠ .consumer → exec .fifoPop s = .next { s with fault := some .wrongAgent, result := none })
    ∧ (s.inputs.issuer = .consumer → s.fifoRd = s.fifoWr →
        exec .fifoPop s = .next { s with result := some ⟨.none, none, .absent⟩ })
    ∧ (s.inputs.issuer = .consumer → s.fifoRd ≠ s.fifoWr → ∀ b, Memory.read s.fifoMem s.fifoRd = some b →
        exec .fifoPop s
          = .next { s with fifoRd := (s.fifoRd + 1) % s.cfg.fifoN
                           result := some ⟨.ok, some b.toNat, .absent⟩ })

/-- FIFO_CLEAR: with the hook detached and no pump it sets both indices to 0 and changes no slot and no counter; otherwise it
is `fault(CLEAR_ACTIVE)` (43_fifo.md R122). -/
def Obligations.FifoClearNeedsBothSidesQuiesced : Prop :=
  ∀ s : State,
    encode .fifoClear = .command 0x22000000#32 []
    ∧ (s.prodEn = false → s.cInPump = false → exec .fifoClear s
        = .next { s with fifoRd := 0, fifoWr := 0
                         result := some ⟨.ok, none, .absent⟩ })
    ∧ (s.prodEn = true ∨ s.cInPump = true →
        exec .fifoClear s = .next { s with fault := some .clearActive, result := none })

/-- FIFO_LEVEL answers how many bytes are pending and changes nothing (43_fifo.md R123). -/
def Obligations.FifoLevelAnswersTheLevel : Prop :=
  ∀ s : State,
    encode .fifoLevel = .command 0x23000000#32 []
    ∧ exec .fifoLevel s
        = .next { s with result := some ⟨.ok, some ((((s.fifoWr : Int) - s.fifoRd) % s.cfg.fifoN).toNat), .absent⟩ }

/-- The FIFO is a queue of never more than `FIFO_N − 1` bytes: a push appends its byte or, on a full queue, leaves it as it is and
counts; a pop answers the oldest byte and removes it, or answers `NONE` on an empty queue (43_fifo.md R126 (a), (b), (c)). -/
def Obligations.FifoIsABoundedByteQueue : Prop :=
  ∀ s : State, Inv s →
    (pendingBytes s).length = fifoLevel s
    ∧ (pendingBytes s).length ≤ s.cfg.fifoN - 1
    ∧ (∀ b, s.inputs.issuer = .producer → s.prodEn = true → (pendingBytes s).length < s.cfg.fifoN - 1 →
        ∃ t, exec (.fifoPush b) s = .next t ∧ pendingBytes t = pendingBytes s ++ [b] ∧ t.cnt = s.cnt)
    ∧ (∀ b, s.inputs.issuer = .producer → s.prodEn = true → (pendingBytes s).length = s.cfg.fifoN - 1 →
        ∃ t, exec (.fifoPush b) s = .next t ∧ pendingBytes t = pendingBytes s
          ∧ t.cnt = { s.cnt with fifoOvf := s.cnt.fifoOvf + 1#32 })
    ∧ (∀ b bs, s.inputs.issuer = .consumer → pendingBytes s = b :: bs →
        ∃ t, exec .fifoPop s = .next t ∧ pendingBytes t = bs
          ∧ t.result = some ⟨.ok, some b.toNat, .absent⟩)
    ∧ (s.inputs.issuer = .consumer → pendingBytes s = [] →
        ∃ t, exec .fifoPop s = .next t ∧ pendingBytes t = []
          ∧ t.result = some ⟨.none, none, .absent⟩)

/-- From an empty FIFO exactly `FIFO_N − 1` pushes with no pop between them succeed, and the next fails and is counted
(43_fifo.md R126 (d)). -/
def Obligations.FifoTakesExactlyItsCapacity : Prop :=
  ∀ (s : State) (bytes : List Byte) (b : Byte), Inv s → s.inputs.issuer = .producer → s.prodEn = true →
    s.fifoRd = s.fifoWr → bytes.length = s.cfg.fifoN - 1 →
      ∃ t u : State, pushAll bytes s = .next t ∧ pendingBytes t = bytes ∧ t.cnt = s.cnt
        ∧ exec (.fifoPush b) t = .next u ∧ u.cnt = { t.cnt with fifoOvf := t.cnt.fifoOvf + 1#32 }
        ∧ u.result = some ⟨.none, none, .absent⟩

/-! ## Receiver -/

/-- RX_STEP: an empty FIFO, a delimiter of an empty frame, a delimiter that ends a frame, a byte that overflows the buffer and
a byte appended, each with its result code and nothing else changed; another agent is `fault(WRONG_AGENT)`, and another
RX_STEP or RX_PUMP unfinished is `fault(REENTRANT)` (44_frame.md R130). -/
def Obligations.RxStepTakesOneByte : Prop :=
  ∀ s : State,
    encode .rxStep = .command 0x30000000#32 []
    ∧ (s.inputs.issuer ≠ .consumer → exec .rxStep s = .next { s with fault := some .wrongAgent, result := none })
    ∧ (s.inputs.issuer = .consumer → s.cInPump = true ∨ s.sinkBusy = true →
        exec .rxStep s = .next { s with fault := some .reentrant, result := none })
    ∧ (s.inputs.issuer = .consumer → s.cInPump = false → s.sinkBusy = false →
        (s.fifoRd = s.fifoWr → exec .rxStep s
          = .next { s with result := some ⟨.none, none, .absent⟩
                           rxResult := some ⟨.none, none, .absent⟩ })
        ∧ ∀ b, s.fifoRd ≠ s.fifoWr → Memory.read s.fifoMem s.fifoRd = some b →
            (b = 0x00#8 → s.accLen = 0 → exec .rxStep s
              = .next { s with fifoRd := (s.fifoRd + 1) % s.cfg.fifoN
                               result := some ⟨.ok, some 1, .absent⟩
                               rxResult := some ⟨.ok, some 1, .absent⟩ })
            ∧ (b = 0x00#8 → 0 < s.accLen → ∀ frame, Memory.readRange s.accMem 0 s.accLen = some frame →
                ∃ (code : RxCode) (t : State),
                  validateFrame frame { s with fifoRd := (s.fifoRd + 1) % s.cfg.fifoN, accLen := 0 } = (code, t)
                  ∧ (code = .delivered ∨ code = .dropped)
                  ∧ exec .rxStep s
                      = .next { t with
                          result := some ⟨.ok, some (if code = .delivered then 2 else 3), .absent⟩
                          rxResult := some ⟨.ok, some (if code = .delivered then 2 else 3), .absent⟩ })
            ∧ (b ≠ 0x00#8 → s.accLen = s.cfg.accMax → exec .rxStep s
                = .next { s with fifoRd := (s.fifoRd + 1) % s.cfg.fifoN, accLen := 0
                                 cnt := { s.cnt with accOvf := s.cnt.accOvf + 1#32 }
                                 result := some ⟨.ok, some 4, .absent⟩
                                 rxResult := some ⟨.ok, some 4, .absent⟩ })
            ∧ (b ≠ 0x00#8 → s.accLen < s.cfg.accMax → ∃ t : State, exec .rxStep s = .next t
                ∧ t = { s with fifoRd := (s.fifoRd + 1) % s.cfg.fifoN, accMem := t.accMem, accLen := s.accLen + 1
                               result := some ⟨.ok, some 0, .absent⟩
                               rxResult := some ⟨.ok, some 0, .absent⟩ }
                ∧ Memory.read t.accMem s.accLen = some b
                ∧ ∀ a, a ≠ s.accLen → Memory.read t.accMem a = Memory.read s.accMem a))

/-- `frame_validate`: COBS decode, then the length, then the checksum; the first check that fails counts its one event and
drops the frame, and a frame that passes is handed to the sink and counted, nothing else changing (44_frame.md R131). -/
def Obligations.FrameChecksComeInOrder : Prop :=
  ∀ (frame : List Byte) (s : State),
    (cobsDecode frame = none →
      validateFrame frame s = (.dropped, { s with cnt := { s.cnt with cobsErr := s.cnt.cobsErr + 1#32 } }))
    ∧ ∀ d, cobsDecode frame = some d →
        (d.length < 3 → validateFrame frame s = (.dropped, { s with cnt := { s.cnt with short := s.cnt.short + 1#32 } }))
        ∧ (3 ≤ d.length → Sys2Proof.Machine.crc8 s.cfg (d.take (d.length - 1)) ≠ d.getD (d.length - 1) 0x00#8 →
            validateFrame frame s = (.dropped, { s with cnt := { s.cnt with crcErr := s.cnt.crcErr + 1#32 } }))
        ∧ (3 ≤ d.length → Sys2Proof.Machine.crc8 s.cfg (d.take (d.length - 1)) = d.getD (d.length - 1) 0x00#8 →
            validateFrame frame s
              = (.delivered, { s with cnt := { s.cnt with msgOut := s.cnt.msgOut + 1#32 }
                                      msgOut := s.msgOut ++ [(d.getD 0 0x00#8, (d.drop 1).take (d.length - 2))]
                                      sinkBusy := true }))

/-- RX_PUMP: its first step and every later one is one RX_STEP; the one that finds the FIFO empty ends the pump and answers how
many bytes it took, and any other leaves the pump in progress with no result (44_frame.md R133). -/
def Obligations.RxPumpIsASequenceOfRxSteps : Prop :=
  ∀ s : State,
    encode .rxPump = .command 0x31000000#32 []
    ∧ (s.inputs.issuer ≠ .consumer → exec .rxPump s = .next { s with fault := some .wrongAgent, result := none })
    ∧ (s.inputs.issuer = .consumer → s.cInPump = true ∨ s.sinkBusy = true →
        exec .rxPump s = .next { s with fault := some .reentrant, result := none })
    ∧ (s.inputs.issuer = .consumer → s.cInPump = false → s.sinkBusy = false → s.fifoRd = s.fifoWr →
        exec .rxPump s
          = .next { s with pumpCount := 0
                           result := some ⟨.ok, some 0, .absent⟩
                           rxResult := some ⟨.none, none, .absent⟩ })
    ∧ (s.inputs.issuer = .consumer → s.cInPump = false → s.sinkBusy = false → s.fifoRd ≠ s.fifoWr →
        ∀ u, exec .rxStep s = .next u →
          exec .rxPump s = .next { u with cInPump := true, pumpCount := 1, result := none })
    ∧ (s.inputs.issuer = .consumer → s.cInPump = true → s.sinkBusy = false → s.fifoRd = s.fifoWr →
        pumpStep s
          = .next { s with cInPump := false, pumpCount := 0
                           result := some ⟨.ok, some (s.pumpCount % 2 ^ 32), .absent⟩
                           rxResult := some ⟨.none, none, .absent⟩ })
    ∧ (s.inputs.issuer = .consumer → s.cInPump = true → s.sinkBusy = false → s.fifoRd ≠ s.fifoWr →
        ∀ u, exec .rxStep { s with cInPump := false } = .next u →
          pumpStep s = .next { u with cInPump := true, pumpCount := s.pumpCount + 1, result := none })

/-- In every state that meets the invariant, an RX_STEP or RX_PUMP of C that no other is in the way of completes, whatever the
FIFO and the accumulation buffer hold (44_frame.md R130, R133). -/
def Obligations.ReceiverCompletesFromTheInvariant : Prop :=
  ∀ s : State, Inv s → s.inputs.issuer = .consumer → s.cInPump = false → s.sinkBusy = false →
    (∃ t r, exec .rxStep s = .next t ∧ t.fault = s.fault ∧ t.result = some r ∧ r.status ≠ .illegal)
    ∧ ∃ t, exec .rxPump s = .next t ∧ t.fault = s.fault ∧ t.cInPump = decide (s.fifoRd ≠ s.fifoWr)

/-- While the message sink runs, no step but RESET changes the accumulation buffer or delivers a message, and only its return
or RESET ends it, whatever the schedule, the empty one included (44_frame.md R132; 60_exceptions.md R202). -/
def Obligations.ReceiverIsStillWhileTheSinkRuns : Prop :=
  ∀ s t : State, step s = .next t → s.sinkBusy = true → (∀ now rest, s.agenda ≠ .reset now :: rest) →
    t.accMem = s.accMem ∧ t.accLen = s.accLen ∧ t.msgOut = s.msgOut
      ∧ (t.sinkBusy = true ∨ ∃ rest, s.agenda = .sinkReturn :: rest)

/-! ## Transmitter -/

/-- `build_wire`: the encoding of channel, payload and checksum, a delimiter after it and, where configured, one before it;
zero stands nowhere else (44_frame.md R136). -/
def Obligations.WireIsTheEncodedMessageAndItsDelimiters : Prop :=
  ∀ (c : Config) (ch : Byte) (payload : List Byte), ∃ e : List Byte,
    e = cobsEncode c.cobsFfTail ([ch] ++ payload ++ [Sys2Proof.Machine.crc8 c ([ch] ++ payload)])
    ∧ 0x00#8 ∉ e
    ∧ buildWire c ch payload = (if c.txLeadingDelim = true then [0x00#8] else []) ++ e ++ [0x00#8]
    ∧ (buildWire c ch payload).length = e.length + 1 + (if c.txLeadingDelim = true then 1 else 0)

/-- TX_FRAME: the link gets the first `k` bytes of the frame's wire bytes, `k` being what it accepts of them; a short write is
`NONE` and counted, and nothing else changes (44_frame.md R137). That any agent may issue it is the model's reading of
"T (any task)", log entry 18. -/
def Obligations.TxFrameWritesWhatTheLinkAccepts : Prop :=
  ∀ (ch : Byte) (payload : List Byte) (s : State),
    encode (.txFrame ch payload) = .command (0x32#8 ++ ch ++ BitVec.ofNat 16 payload.length) payload
    ∧ ((buildWire s.cfg ch payload).length ≤ s.inputs.linkAccepts → exec (.txFrame ch payload) s
        = .next { s with linkOut := s.linkOut ++ buildWire s.cfg ch payload
                         result := some ⟨.ok, some (buildWire s.cfg ch payload).length, .absent⟩ })
    ∧ (s.inputs.linkAccepts < (buildWire s.cfg ch payload).length → exec (.txFrame ch payload) s
        = .next { s with linkOut := s.linkOut ++ (buildWire s.cfg ch payload).take s.inputs.linkAccepts
                         cnt := { s.cnt with txShort := s.cnt.txShort + 1#32 }
                         result := some ⟨.none, some s.inputs.linkAccepts, .absent⟩ })

/-- End to end, for a frame with a payload. Taken by an idle receiver with room for them, all the wire bytes deliver exactly
that channel and payload, once, and count no error. And through the operations: where TX_FRAME's link accepts all of the
frame and the bytes it got arrive at a receiver with the same polynomial and initial value, each pushed by the FIFO_PUSH of
its arrival and taken by RX_STEPs and RX_PUMPs of C in any interleaving that leaves the FIFO room for every byte and empty at
the end, the run completes and does the same. The receiver is idle, or the transmitter leads with a delimiter, which ends
whatever frame was being received as that frame's own bytes decide (44_frame.md R138; the schedule of the run is the model's,
log entries 5 and 12). -/
def Obligations.ReceiverDeliversWhatTheTransmitterSent : Prop :=
  (∀ (s : State) (ch : Byte) (payload : List Byte), Inv s → s.accLen = 0 → payload ≠ [] →
    (cobsEncode s.cfg.cobsFfTail (ch :: payload ++ [Sys2Proof.Machine.crc8 s.cfg (ch :: payload)])).length
        ≤ s.cfg.accMax →
      ∃ t : State, receiveAll (buildWire s.cfg ch payload) s = .ok t
        ∧ t.msgOut = s.msgOut ++ [(ch, payload)]
        ∧ t.cnt = { s.cnt with msgOut := s.cnt.msgOut + 1#32 }
        ∧ t.accLen = 0)
  ∧ ∀ (s r : State) (ch : Byte) (payload : List Byte) (events : List LinkEvent), payload ≠ [] →
      (buildWire s.cfg ch payload).length ≤ s.inputs.linkAccepts →
      Inv r → ReceiverReady r → r.cfg.crcPoly = s.cfg.crcPoly → r.cfg.crcInit = s.cfg.crcInit →
      r.accLen = 0 ∨ s.cfg.txLeadingDelim = true →
      (cobsEncode s.cfg.cobsFfTail (ch :: payload ++ [Sys2Proof.Machine.crc8 s.cfg (ch :: payload)])).length
        ≤ r.cfg.accMax →
      arrivedBytes events = buildWire s.cfg ch payload → pendingAfter (r.cfg.fifoN - 1) 0 events = some 0 →
        (∃ u : State, exec (.txFrame ch payload) s = .next u ∧ u.linkOut = s.linkOut ++ arrivedBytes events)
        ∧ ∃ t : State, runAll (receiverSchedule 0 false events) r = .next t ∧ t.fault = none
            ∧ t.msgOut = (endedFrame r).msgOut ++ [(ch, payload)]
            ∧ t.cnt = { (endedFrame r).cnt with msgOut := (endedFrame r).cnt.msgOut + 1#32 }
            ∧ t.accLen = 0

/-! ## Motor supervisor -/

/-- CMD_ENQ: by C it appends the command set, or on a full queue drops it and counts, changing nothing else; by another agent
it is `fault(WRONG_AGENT)` (45_motor.md R151). -/
def Obligations.CmdEnqAppendsOrDropsTheNewest : Prop :=
  ∀ (cs : CommandSet) (s : State),
    encode (.cmdEnq cs) = .command (0x40#8 ++ 0x00#8 ++ BitVec.ofNat 16 cs.length) (bytesOfEntries cs)
    ∧ (s.inputs.issuer ≠ .consumer → exec (.cmdEnq cs) s = .next { s with fault := some .wrongAgent, result := none })
    ∧ (s.inputs.issuer = .consumer → s.cmdq.length = s.cfg.qDepth → exec (.cmdEnq cs) s
        = .next { s with cnt := { s.cnt with cmdqDrop := s.cnt.cmdqDrop + 1#32 }
                         result := some ⟨.none, none, .absent⟩ })
    ∧ (s.inputs.issuer = .consumer → s.cmdq.length ≠ s.cfg.qDepth → exec (.cmdEnq cs) s
        = .next { s with cmdq := s.cmdq ++ [cs]
                         result := some ⟨.ok, none, .absent⟩ })

/-- The exact duty of a throttle, in rationals: clamp to the motor's range, map linearly to a pulse in `[MIN_US, MAX_US]`, and
convert any pulse width with one floor, to at most full scale for a pulse of at most `MAX_US` (45_motor.md R152, R153,
R154). -/
def Obligations.ThrottleDutyIsTheExactFormula : Prop :=
  ∀ (c : Config) (m : Motor), c.wf = true → m ∈ c.motors → c.throttleArith = .exactRational →
    (∀ (v : Word64) (y : Frac), clampThrottle m (binary64 v) = some y →
      (∀ q, binary64 v = .finite q → y.val = max (if m.bidir = true then -1 else 0) (min 1 q.val))
      ∧ (binary64 v = .inf false → y.val = 1)
      ∧ (binary64 v = .inf true → y.val = if m.bidir = true then -1 else 0)
      ∧ (mapThrottle c.throttleArith m y).val
          = (if m.bidir = true then
              if 0 ≤ y.val then m.centerUs + y.val * (m.maxUs - m.centerUs)
              else m.centerUs + y.val * (m.centerUs - m.minUs)
            else m.minUs + y.val * (m.maxUs - m.minUs))
      ∧ 0 < (mapThrottle c.throttleArith m y).den
      ∧ (m.minUs : ℚ) ≤ (mapThrottle c.throttleArith m y).val
      ∧ (mapThrottle c.throttleArith m y).val ≤ m.maxUs)
    ∧ ∀ u : Frac, 0 < u.den → 0 ≤ u.val →
        (usToDuty c u : Int) = ⌊u.val * c.pwmFreqHz * 2 ^ c.dutyResBits / 1000000⌋
        ∧ (u.val ≤ m.maxUs → usToDuty c u ≤ 2 ^ c.dutyResBits)

/-- The value of a binary64 operand: zero exponent and fraction are zero, a zero exponent has no hidden bit, the all-ones
exponent is an infinity or not a number (30_encoding.md R76; the format itself is PRESUMED, log entry 3). -/
def Obligations.Binary64OperandValue : Prop :=
  ∀ v : Word64,
    ((v.toNat / 2 ^ 52 % 2 ^ 11 = 2047 ∧ v.toNat % 2 ^ 52 ≠ 0) → binary64 v = .nan)
    ∧ ((v.toNat / 2 ^ 52 % 2 ^ 11 = 2047 ∧ v.toNat % 2 ^ 52 = 0) → binary64 v = .inf (decide (2 ^ 63 ≤ v.toNat)))
    ∧ (v.toNat / 2 ^ 52 % 2 ^ 11 < 2047 → ∃ q, binary64 v = .finite q ∧ 0 < q.den
        ∧ q.val = (if 2 ^ 63 ≤ v.toNat then -1 else 1)
            * (if v.toNat / 2 ^ 52 % 2 ^ 11 = 0 then ((v.toNat % 2 ^ 52 : Nat) : ℚ) * (2 : ℚ) ^ (-1074 : Int)
               else ((2 ^ 52 + v.toNat % 2 ^ 52 : Nat) : ℚ)
                 * (2 : ℚ) ^ (((v.toNat / 2 ^ 52 % 2 ^ 11 : Nat) : Int) - 1075)))

/-- SET_THROTTLE: by S on a motor it writes that motor's duty, or counts `DUTY_REJ` and applies nothing for a NaN, changing
nothing else, the last command time included; a motor index beyond the motors is `ILLEGAL`, and another agent is
`fault(WRONG_AGENT)` (45_motor.md R155). -/
def Obligations.SetThrottleWritesOneDutyOrRejects : Prop :=
  ∀ (i : Byte) (v : Word64) (s : State),
    encode (.setThrottle i v) = .command (0x42#8 ++ i ++ 0#16) (bytesOfWord64 v)
    ∧ (s.cfg.nMot ≤ i.toNat → exec (.setThrottle i v) s
        = .next { s with result := some ⟨.illegal, none, .absent⟩ })
    ∧ (i.toNat < s.cfg.nMot → s.inputs.issuer ≠ .supervisor →
        exec (.setThrottle i v) s = .next { s with fault := some .wrongAgent, result := none })
    ∧ (i.toNat < s.cfg.nMot → s.inputs.issuer = .supervisor → binary64 v = .nan → exec (.setThrottle i v) s
        = .next { s with cnt := { s.cnt with dutyRej := s.cnt.dutyRej + 1#32 }
                         result := some ⟨.none, none, .absent⟩ })
    ∧ ∀ m, s.cfg.motors[i.toNat]? = some m → s.inputs.issuer = .supervisor → binary64 v ≠ .nan →
        ∃ y, clampThrottle m (binary64 v) = some y ∧ exec (.setThrottle i v) s
          = .next { s with
              duty := s.duty.set i.toNat (usToDuty s.cfg (mapThrottle s.cfg.throttleArith m y))
              result := some ⟨.ok, some (usToDuty s.cfg (mapThrottle s.cfg.throttleArith m y)), .absent⟩ }

/-- SET_DUTY_US: by S on a motor it writes the duty of a pulse width in `[MIN_US, MAX_US]`, or counts `DUTY_REJ` and applies
nothing outside it, changing nothing else, the last command time included; a motor index beyond the motors is `ILLEGAL`, and
another agent is `fault(WRONG_AGENT)` (45_motor.md R157). -/
def Obligations.SetDutyUsWritesOneDutyOrRejects : Prop :=
  ∀ (i : Byte) (us : BitVec 16) (s : State),
    encode (.setDutyUs i us) = .command (0x43#8 ++ i ++ us) []
    ∧ (s.cfg.nMot ≤ i.toNat → exec (.setDutyUs i us) s
        = .next { s with result := some ⟨.illegal, none, .absent⟩ })
    ∧ ∀ m, s.cfg.motors[i.toNat]? = some m →
        (s.inputs.issuer ≠ .supervisor →
          exec (.setDutyUs i us) s = .next { s with fault := some .wrongAgent, result := none })
        ∧ (s.inputs.issuer = .supervisor → us.toNat < m.minUs ∨ m.maxUs < us.toNat → exec (.setDutyUs i us) s
            = .next { s with cnt := { s.cnt with dutyRej := s.cnt.dutyRej + 1#32 }
                             result := some ⟨.none, none, .absent⟩ })
        ∧ (s.inputs.issuer = .supervisor → m.minUs ≤ us.toNat → us.toNat ≤ m.maxUs → exec (.setDutyUs i us) s
            = .next { s with duty := s.duty.set i.toNat (usToDuty s.cfg (Frac.ofInt us.toNat))
                             result := some ⟨.ok, some (usToDuty s.cfg (Frac.ofInt us.toNat)), .absent⟩ })

/-- NEUTRAL_ALL: by S it puts every duty at its motor's neutral duty, the duty of its centre or, unidirectional, of its
minimum, and changes nothing else; by another agent it is `fault(WRONG_AGENT)` (45_motor.md R156, R158). That duty is the one
of throttle zero, which R156 marks as derived; that the bits of 0 and of −0 are zero is PRESUMED, log entry 3. -/
def Obligations.NeutralAllWritesEveryNeutralDuty : Prop :=
  (∀ s : State,
    encode .neutralAll = .command 0x44000000#32 []
    ∧ (s.inputs.issuer ≠ .supervisor → exec .neutralAll s = .next { s with fault := some .wrongAgent, result := none })
    ∧ (s.inputs.issuer = .supervisor → exec .neutralAll s
        = .next { s with
            duty := s.cfg.motors.map fun m =>
              usToDuty s.cfg (Frac.ofInt (if m.bidir = true then m.centerUs else m.minUs : Nat))
            result := some ⟨.ok, none, .absent⟩ }))
  ∧ ∀ (c : Config) (m : Motor) (v : Word64), c.throttleArith = .exactRational → v = 0#64 ∨ v = 0x8000000000000000#64 →
      ∃ y, clampThrottle m (binary64 v) = some y
        ∧ usToDuty c (mapThrottle c.throttleArith m y)
            = usToDuty c (Frac.ofInt (if m.bidir = true then m.centerUs else m.minUs : Nat))

/-- `apply_entry`: a key outside the motors changes nothing; a rejected value counts `DUTY_REJ` and leaves the last command
time; only an applied one writes its motor's duty and refreshes that time (45_motor.md R159). -/
def Obligations.OnlyAnAppliedEntryRefreshesTheWatchdog : Prop :=
  ∀ (e : Entry) (s : State),
    (e.key.toInt < s.cfg.keyBase ∨ s.cfg.keyBase + s.cfg.nMot ≤ e.key.toInt → applyEntry e s = s)
    ∧ ∀ (i : Nat) (m : Motor), e.key.toInt = s.cfg.keyBase + i → s.cfg.motors[i]? = some m →
        (s.cfg.cmdMode = .throttle → binary64 e.value = .nan →
          applyEntry e s = { s with cnt := { s.cnt with dutyRej := s.cnt.dutyRej + 1#32 } })
        ∧ (s.cfg.cmdMode = .throttle → ∀ y, clampThrottle m (binary64 e.value) = some y →
            applyEntry e s
              = { s with duty := s.duty.set i (usToDuty s.cfg (mapThrottle s.cfg.throttleArith m y))
                         lastCmdTime := s.inputs.now })
        ∧ (s.cfg.cmdMode = .rawUs → e.value.toInt < m.minUs ∨ (m.maxUs : Int) < e.value.toInt →
            applyEntry e s = { s with cnt := { s.cnt with dutyRej := s.cnt.dutyRej + 1#32 } })
        ∧ (s.cfg.cmdMode = .rawUs → (m.minUs : Int) ≤ e.value.toInt → e.value.toInt ≤ m.maxUs →
            applyEntry e s
              = { s with duty := s.duty.set i (usToDuty s.cfg (Frac.ofInt e.value.toInt))
                         lastCmdTime := s.inputs.now })

/-- `wdt_check`: only an elapsed time, modulo 2^32, strictly above `WDT_T` trips; a trip puts every duty at neutral, sets the
last command time and counts, and no trip changes nothing (45_motor.md R160). -/
def Obligations.WatchdogTripsStrictlyAfterItsTimeout : Prop :=
  ∀ s : State,
    (s.cfg.wdtT < (s.inputs.now.toNat + 2 ^ 32 - s.lastCmdTime.toNat) % 2 ^ 32 →
      wdtCheck s = (true, { s with duty := neutralDuties s.cfg, lastCmdTime := s.inputs.now
                                   cnt := { s.cnt with wdtTrip := s.cnt.wdtTrip + 1#32 } }))
    ∧ ((s.inputs.now.toNat + 2 ^ 32 - s.lastCmdTime.toNat) % 2 ^ 32 ≤ s.cfg.wdtT → wdtCheck s = (false, s))

/-- SUP_STEP: by S it takes the oldest command set and applies its entries in order, checking the watchdog after it only where
configured, or with an empty queue checks the watchdog; its result says which and whether it tripped; nothing but the queue,
the duties, the last command time and the supervisor's two counters changes; by another agent it is `fault(WRONG_AGENT)`
(45_motor.md R161; 10_state.md R29 to R32). -/
def Obligations.SupStepAppliesACommandOrChecksTheWatchdog : Prop :=
  ∀ s : State,
    encode .supStep = .command 0x41000000#32 []
    ∧ (s.inputs.issuer ≠ .supervisor → exec .supStep s = .next { s with fault := some .wrongAgent, result := none })
    ∧ (s.inputs.issuer = .supervisor → s.cmdq = [] →
        exec .supStep s
          = .next { (wdtCheck s).2 with
              result := some ⟨.ok, some (if (wdtCheck s).1 = true then 2 else 1), .absent⟩ })
    ∧ (∀ cs rest, s.inputs.issuer = .supervisor → s.cmdq = cs :: rest →
        (s.cfg.wdtCheckOnCmd = false → exec .supStep s
          = .next { cs.foldl (fun u e => applyEntry e u) { s with cmdq := rest } with
              result := some ⟨.ok, some 0, .absent⟩ })
        ∧ (s.cfg.wdtCheckOnCmd = true → ∃ u, u = cs.foldl (fun u e => applyEntry e u) { s with cmdq := rest }
            ∧ exec .supStep s
                = .next { (wdtCheck u).2 with
                    result := some ⟨.ok, some (if (wdtCheck u).1 = true then 3 else 0), .absent⟩ }))
    ∧ ∀ t, s.inputs.issuer = .supervisor → exec .supStep s = .next t →
        t = { s with cmdq := s.cmdq.tail, duty := t.duty, lastCmdTime := t.lastCmdTime, result := t.result
                     cnt := { s.cnt with dutyRej := t.cnt.dutyRej, wdtTrip := t.cnt.wdtTrip } }

/-- The failsafe: if S steps at some time more than `WDT_T` after the last command while the queue stays empty, then after
those steps every duty is neutral (45_motor.md R162). -/
def Obligations.FailsafeDrivesEveryDutyToNeutral : Prop :=
  ∀ (times : List Time) (s : State), s.cmdq = [] → (∃ now ∈ times, s.cfg.wdtT < (now - s.lastCmdTime).toNat) →
    ∃ t, supervisorAt times s = .next t ∧ Neutral t ∧ t.cmdq = []

/-- Only a SUP_STEP, SET_THROTTLE, SET_DUTY_US or NEUTRAL_ALL that S issues, or RESET, changes a duty, and only that SUP_STEP
or RESET changes the last command time, whatever the schedule, the empty one included (10_state.md R30, R31; 45_motor.md
R163). -/
def Obligations.OnlyTheSupervisorMovesTheActuators : Prop :=
  ∀ s t : State, step s = .next t →
    (t.duty ≠ s.duty →
      (∃ now rest, s.agenda = .reset now :: rest)
      ∨ ∃ (c : Command) (rest : List Action), s.agenda = .issue c :: rest ∧ c.inputs.issuer = .supervisor
          ∧ (opcOf c.word = 0x41#8 ∨ opcOf c.word = 0x42#8 ∨ opcOf c.word = 0x43#8 ∨ opcOf c.word = 0x44#8))
    ∧ (t.lastCmdTime ≠ s.lastCmdTime →
      (∃ now rest, s.agenda = .reset now :: rest)
      ∨ ∃ (c : Command) (rest : List Action), s.agenda = .issue c :: rest ∧ c.inputs.issuer = .supervisor
          ∧ opcOf c.word = 0x41#8)

/-! ## Status registers and counters -/

/-- STAT_READ answers the counter of an event at the event's code, the indices, the levels, the last command time, the running
CRC and the duties at theirs, changes nothing, and is `ILLEGAL` at a reserved index (46_status.md R180, R181). -/
def Obligations.StatReadAnswersTheRegisterOfItsIndex : Prop :=
  ∀ (s : State) (k : Byte), Inv s →
    encode (.statRead k) = .command (0x50#8 ++ k ++ 0#16) []
    ∧ (statIndexDefined s.cfg.nMot k = false → exec (.statRead k) s
        = .next { s with result := some ⟨.illegal, none, .absent⟩ })
    ∧ (statIndexDefined s.cfg.nMot k = true → ∃ v, v < 2 ^ 32
        ∧ exec (.statRead k) s = .next { s with result := some ⟨.ok, some v, .absent⟩ }
        ∧ (∀ e : Event, k.toNat = e.code → v = (s.cnt.get e).toNat)
        ∧ (k = 0x10#8 → v = s.fifoRd) ∧ (k = 0x11#8 → v = s.fifoWr) ∧ (k = 0x12#8 → v = fifoLevel s)
        ∧ (k = 0x13#8 → v = s.accLen) ∧ (k = 0x14#8 → v = s.cmdq.length) ∧ (k = 0x15#8 → v = s.lastCmdTime.toNat)
        ∧ (k = 0x16#8 → v = s.crcAcc.toNat)
        ∧ (∀ i, k.toNat = 0x20 + i → s.duty[i]? = some v))

/-- Each counter has one writing agent: a step other than RESET changes it only when that agent issued it, and `TX_SHORT` only
in a TX_FRAME, by the agent that issued that TX_FRAME (10_state.md R32). -/
def Obligations.EachCounterHasOneWriter : Prop :=
  ∀ (s t : State) (e : Event), step s = .next t → (∀ now rest, s.agenda ≠ .reset now :: rest) →
    t.cnt.get e ≠ s.cnt.get e →
      (∀ g, writerOfEvent e = some g → t.inputs.issuer = g)
      ∧ (e = .txShort → ∃ (c : Command) (rest : List Action), s.agenda = .issue c :: rest ∧ opcOf c.word = 0x32#8
          ∧ t.inputs = c.inputs)

/-- STAT_READ, FIFO_LEVEL, CRC8, CRC8_CHECK, COBS_ENC and COBS_DEC complete in every state and change nothing but the result
they return, which the same operands in the same state give again (20_memory.md R55). -/
def Obligations.QueriesChangeNothing : Prop :=
  ∀ (i : Instr) (s : State),
    ((∃ k, i = .statRead k) ∨ i = .fifoLevel ∨ (∃ b, i = .crc8 b) ∨ (∃ b, i = .crc8Check b)
      ∨ (∃ b, i = .cobsEnc b) ∨ (∃ b, i = .cobsDec b)) →
      ∃ r, exec i s = .next { s with result := some r }
        ∧ exec i { s with result := some r } = .next { s with result := some r }

/-! ## Agents, faults and the environment -/

/-- The forbidden uses: an operation issued by an agent that does not own it, FIFO_CLEAR with a side active, an RX_STEP or
RX_PUMP of C inside another, each sets `FAULTED`, returns no result and changes nothing else; after a fault no step is taken
(the model's reading of a run that is marked faulted, log entry 7); and from an ill-formed configuration none is taken at all
(60_exceptions.md R202; 20_memory.md R65; 10_state.md R33). -/
def Obligations.ForbiddenUsesFaultAndAFaultIsFinal : Prop :=
  (∀ (i : Instr) (s : State) (a : Agent), ownerOfInstr i = some a → i.operandsLegal s.cfg = true → s.inputs.issuer ≠ a →
    exec i s = .next { s with fault := some .wrongAgent, result := none })
  ∧ (∀ s : State, s.prodEn = true ∨ s.cInPump = true →
      exec .fifoClear s = .next { s with fault := some .clearActive, result := none })
  ∧ (∀ (i : Instr) (s : State), i = .rxStep ∨ i = .rxPump → s.inputs.issuer = .consumer →
      s.cInPump = true ∨ s.sinkBusy = true → exec i s = .next { s with fault := some .reentrant, result := none })
  ∧ (∀ (s : State) (why : Misuse), s.cfg.wf = true → s.fault = some why → step s = .fault (.forbidden why))
  ∧ ∀ s : State, s.cfg.wf = false → step s = .fault (.forbidden .badConfig)

/-- A step that takes a fault changes nothing of the block but `FAULTED`: the rest of the state is as it was (60_exceptions.md
R202; the model's reading of what a fault leaves, log entry 7). -/
def Obligations.FaultLeavesTheBlockAsItWas : Prop :=
  ∀ (s t : State) (why : Misuse), step s = .next t → t.fault = some why →
    t = { s with fault := some why, result := none, agenda := s.agenda.tail, inputs := t.inputs }

/-- The parameters are the same in every step of a run (10_state.md R34). -/
def Obligations.ParametersNeverChange : Prop :=
  ∀ s t : State, step s = .next t → t.cfg = s.cfg

/-- A byte that arrives while the hook is attached is one FIFO_PUSH of P; while it is detached nothing changes, and a command
of P is no step; PROD_DISABLE and PROD_ENABLE move the hook alone (60_exceptions.md R204; 43_fifo.md R124, R125;
10_state.md R38). -/
def Obligations.ByteArrivalIsAPushWhileTheHookIsAttached : Prop :=
  ∀ (s : State) (rest : List Action) (b : Byte) (c : Command), s.cfg.wf = true → s.fault = none →
    (s.agenda = .byteArrived b :: rest → s.prodEn = true →
      step s = exec (.fifoPush b) { s with agenda := rest, inputs := { s.inputs with issuer := .producer } })
    ∧ (s.agenda = .byteArrived b :: rest → s.prodEn = false → step s = .next { s with agenda := rest, result := none })
    ∧ (s.agenda = .issue c :: rest → c.inputs.issuer = .producer → s.prodEn = false → step s = .fault .stuck)
    ∧ (s.agenda = .prodDisable :: rest → step s = .next { s with agenda := rest, result := none, prodEn := false })
    ∧ (s.agenda = .prodEnable :: rest → step s = .next { s with agenda := rest, result := none, prodEn := true })

/-! ## Reset and the invariant -/

/-- RESET sets every element that R230 gives a reset value to it, `LAST_CMD_TIME` to the time it samples, whatever the state
before, in a run that no fault has ended (70_reset_and_hazards.md R230; a faulted run takes no RESET, the model's reading of
10_state.md R33, log entry 7). Nothing is said of the slots of `FIFO_MEM` and `ACC_MEM`, which R230 leaves unspecified
(log entry 23). -/
def Obligations.ResetSetsEveryElement : Prop :=
  ∀ (s : State) (now : Time) (rest : List Action), s.cfg.wf = true → s.fault = none → s.agenda = .reset now :: rest →
    ∃ t, step s = .next t ∧ t.cfg = s.cfg ∧ t.fifoRd = 0 ∧ t.fifoWr = 0 ∧ t.accLen = 0 ∧ t.crcAcc = s.cfg.crcInit
      ∧ t.cmdq = [] ∧ t.duty = neutralDuties s.cfg ∧ t.lastCmdTime = now ∧ (∀ e, t.cnt.get e = 0#32)
      ∧ t.fault = none ∧ t.prodEn = true ∧ t.cInPump = false ∧ t.agenda = rest

/-- The first trip after a reset with no successful command comes at the first supervisor step more than `WDT_T` after the
sampled time; it changes no duty, and counts and sets the last command time (70_reset_and_hazards.md R231). -/
def Obligations.FirstTripAfterResetChangesNoDuty : Prop :=
  ∀ (c : Config) (t0 now : Time) (s : State),
    s = { State.atReset c t0 with inputs := { issuer := .supervisor, now := now, linkAccepts := 0 } } →
      (c.wdtT < (now - t0).toNat → exec .supStep s
        = .next { s with lastCmdTime := now, cnt := { s.cnt with wdtTrip := 1#32 }
                         result := some ⟨.ok, some 2, .absent⟩ })
      ∧ ((now - t0).toNat ≤ c.wdtT → exec .supStep s
        = .next { s with result := some ⟨.ok, some 1, .absent⟩ })

/-- The machine's reset state meets the invariant, and so does the reset state of every well-formed configuration
(70_reset_and_hazards.md R230; the model's choices are the configuration of `State.reset`, log entry 2, and the empty storage
slots, log entry 23). -/
def Obligations.ResetMeetsTheInvariant : Prop :=
  Inv State.reset ∧ ∀ (c : Config) (now : Time), c.wf = true → Inv (State.atReset c now)

/-- Every step keeps the invariant (10_state.md R22 to R30; 00_scope.md R7). -/
def Obligations.EveryStepKeepsTheInvariant : Prop :=
  ∀ s t : State, Inv s → step s = .next t → Inv t

/-- From a state that meets the invariant no step stops for an unwritten or missing storage slot, and none is refused: no rule
reads a slot that no write has filled (10_state.md R22, R26). -/
def Obligations.InvariantExcludesStorageFaults : Prop :=
  ∀ s : State, Inv s →
    (∀ f, step s = .fault f → f.isStorage = false) ∧ ∀ r, step s ≠ .refused r
end

