-- ==== Sys2Proof/Laws/Cobs.lean ====
section
/-! SUPPORT. Laws of the COBS codec: what one run does to a decode in progress, and how the decoder's loop goes on. -/

namespace Sys2Proof.Machine

/-- A run decodes exactly when its data bytes are there and none is zero; it then yields them, and the implied zero where
its class has one and the frame goes on. -/
theorem cobsTakeRun_eq_some {n : Nat} {implied : Bool} {c d : Codec} :
    cobsTakeRun n implied c = some d ↔
      n ≤ c.rest.length ∧ 0x00#8 ∉ c.rest.take n ∧
        d = { rest := c.rest.drop n
              out := c.out ++ c.rest.take n ++ (if implied && !(c.rest.drop n).isEmpty then [0x00#8] else []) } := by
  unfold cobsTakeRun
  by_cases h1 : c.rest.length < n
  · simp only [if_pos h1]; constructor
    · intro h; cases h
    · intro h; omega
  · rw [if_neg h1]
    by_cases h2 : (c.rest.take n).contains 0x00#8 = true
    · rw [if_pos h2]
      constructor
      · intro h; cases h
      · intro h; exact absurd (List.contains_iff_mem.mp h2) h.2.1
    · rw [if_neg h2]
      have h3 : 0x00#8 ∉ c.rest.take n := fun h => h2 (List.contains_iff_mem.mpr h)
      constructor
      · intro h; exact ⟨by omega, h3, (Option.some.inj h).symm⟩
      · rintro ⟨-, -, rfl⟩; rfl

/-- A run of data bytes that stand there, none zero, is taken. -/
theorem cobsTakeRun_append {implied : Bool} (run rest out : List Byte) (h : 0x00#8 ∉ run) :
    cobsTakeRun run.length implied { rest := run ++ rest, out := out }
      = some { rest := rest, out := out ++ run ++ (if implied && !rest.isEmpty then [0x00#8] else []) } := by
  rw [cobsTakeRun_eq_some]
  simp [h]

@[simp] theorem cobsCodeStep_zero (c : Codec) : cobsCodeStep 0x00#8 c = none := rfl

/-- The code byte of an ordinary run (30_encoding.md R73). -/
theorem cobsCodeStep_run (run rest out : List Byte) (hl : run.length ≤ 253) (h : 0x00#8 ∉ run) :
    cobsCodeStep (BitVec.ofNat 8 (run.length + 1)) { rest := run ++ rest, out := out }
      = some { rest := rest, out := out ++ run ++ (if rest.isEmpty then [] else [0x00#8]) } := by
  have hn : (BitVec.ofNat 8 (run.length + 1)).toNat = run.length + 1 := by
    simp only [BitVec.toNat_ofNat]; omega
  have h0 : BitVec.ofNat 8 (run.length + 1) ≠ 0x00#8 := fun h => by
    have := congrArg BitVec.toNat h; rw [hn] at this; simp at this
  have h1 : BitVec.ofNat 8 (run.length + 1) ≠ 0xFF#8 := fun h => by
    have := congrArg BitVec.toNat h; rw [hn] at this; simp at this; omega
  rw [cobsCodeStep, if_neg h0, if_neg h1, hn, Nat.add_sub_cancel, cobsTakeRun_append _ _ _ h]
  cases rest <;> simp

/-- The code byte 0xFF (30_encoding.md R73). -/
theorem cobsCodeStep_full (run rest out : List Byte) (hl : run.length = 254) (h : 0x00#8 ∉ run) :
    cobsCodeStep 0xFF#8 { rest := run ++ rest, out := out } = some { rest := rest, out := out ++ run } := by
  have := cobsTakeRun_append (implied := false) run rest out h
  rw [hl] at this
  simpa [cobsCodeStep] using this

/-- Every step of the decoder reads at least the data bytes it yields: what is left is not longer. -/
theorem cobsCodeStep_rest_le {code : Byte} {c d : Codec} (h : cobsCodeStep code c = some d) :
    d.rest.length ≤ c.rest.length := by
  unfold cobsCodeStep at h
  split at h
  · cases h
  · split at h <;> · obtain ⟨-, -, rfl⟩ := cobsTakeRun_eq_some.mp h; simp

@[simp] theorem cobsDecodeRuns_nil (fuel : Nat) (out : List Byte) :
    cobsDecodeRuns fuel { rest := [], out := out } = some out := by
  cases fuel <;> rfl

/-- The decoder's loop on a code byte. -/
theorem cobsDecodeRuns_cons (fuel : Nat) (code : Byte) (rest out : List Byte) :
    cobsDecodeRuns (fuel + 1) { rest := code :: rest, out := out }
      = (cobsCodeStep code { rest := rest, out := out }).bind (cobsDecodeRuns fuel) := by
  simp only [cobsDecodeRuns]
  cases cobsCodeStep code { rest := rest, out := out } <;> rfl

/-- The decoder's loop does not depend on its fuel once that covers the bytes left. -/
theorem cobsDecodeRuns_fuel {fuel fuel' : Nat} {c : Codec} (h : c.rest.length ≤ fuel) (h' : c.rest.length ≤ fuel') :
    cobsDecodeRuns fuel c = cobsDecodeRuns fuel' c := by
  induction fuel generalizing fuel' c with
  | zero =>
    obtain ⟨rest, out⟩ := c
    have : rest = [] := by simpa using h
    subst this; simp
  | succ fuel ih =>
    obtain ⟨rest, out⟩ := c
    cases rest with
    | nil => simp
    | cons code rest =>
      obtain ⟨fuel', rfl⟩ : ∃ k, fuel' = k + 1 := ⟨fuel' - 1, by simp at h'; omega⟩
      rw [cobsDecodeRuns_cons, cobsDecodeRuns_cons]
      cases hs : cobsCodeStep code { rest := rest, out := out } with
      | none => rfl
      | some d =>
        have := cobsCodeStep_rest_le hs
        simp only [List.length_cons] at h h' this
        exact ih (by omega) (by omega)

theorem cobsEncodeFrom_nil (tail : CobsTail) (run : List Byte) (full : Bool) :
    cobsEncodeFrom tail run full [] = if tail = .explicit ∨ full = false then cobsRunBytes run else [] := rfl

theorem cobsEncodeFrom_zero (tail : CobsTail) (run : List Byte) (full : Bool) (s : List Byte) :
    cobsEncodeFrom tail run full (0x00#8 :: s) = cobsRunBytes run ++ cobsEncodeFrom tail [] false s := rfl

theorem cobsEncodeFrom_cons (tail : CobsTail) (run : List Byte) (full : Bool) {b : Byte} (s : List Byte) (h : b ≠ 0x00#8) :
    cobsEncodeFrom tail run full (b :: s)
      = if run.length + 1 = 254 then cobsRunBytes (run ++ [b]) ++ cobsEncodeFrom tail [] true s
        else cobsEncodeFrom tail (run ++ [b]) false s := by
  simp only [cobsEncodeFrom, if_neg h]

/-- From a run in progress that has not just been closed, the encoder writes at least one byte. -/
theorem cobsEncodeFrom_ne_nil (tail : CobsTail) (run s : List Byte) : cobsEncodeFrom tail run false s ≠ [] := by
  induction s generalizing run with
  | nil => simp [cobsEncodeFrom_nil, cobsRunBytes]
  | cons b s ih =>
    by_cases h : b = 0x00#8
    · subst h; simp [cobsEncodeFrom_zero, cobsRunBytes]
    · rw [cobsEncodeFrom_cons _ _ _ _ h]
      split
      · simp [cobsRunBytes]
      · exact ih _

end Sys2Proof.Machine
end

