-- ==== Sys2Proof/Laws/Crc.lean ====
section
/-! SUPPORT. Laws of the CRC update: it is linear over exclusive or, and the CRC of a sequence is taken in pieces. -/

namespace Sys2Proof.Machine

/-- One bit of the update is linear. -/
theorem crcShift_xor (p x y : Byte) : crcShift p (x ^^^ y) = crcShift p x ^^^ crcShift p y := by
  have h : (x ^^^ y).getLsbD 7 = (x.getLsbD 7 ^^ y.getLsbD 7) := by simp
  unfold crcShift
  rw [h, BitVec.shiftLeft_xor_distrib]
  cases x.getLsbD 7 <;> cases y.getLsbD 7 <;> simp
  · ac_rfl
  · ac_rfl
  · have : x <<< 1 ^^^ p ^^^ (y <<< 1 ^^^ p) = x <<< 1 ^^^ y <<< 1 ^^^ (p ^^^ p) := by ac_rfl
    rw [this]; simp

/-- So are `n` bits of it. -/
theorem crcShifts_xor (p : Byte) (n : Nat) (x y : Byte) :
    crcShifts p n (x ^^^ y) = crcShifts p n x ^^^ crcShifts p n y := by
  induction n generalizing x y with
  | zero => rfl
  | succ n ih => simp only [crcShifts, crcShift_xor, ih]

@[simp] theorem crcShifts_zero (p : Byte) (n : Nat) : crcShifts p n 0x00#8 = 0x00#8 := by
  induction n with
  | zero => rfl
  | succ n ih => simpa [crcShifts, crcShift] using ih

/-- The update of an exclusive or of two registers by an exclusive or of two bytes. -/
theorem crcStep_xor (p c d b e : Byte) : crcStep p (c ^^^ d) (b ^^^ e) = crcStep p c b ^^^ crcStep p d e := by
  simp only [crcStep, ← crcShifts_xor]
  congr 1
  ac_rfl

/-- The CRC of two sequences in a row. -/
theorem crcFrom_append (p c : Byte) (a b : List Byte) : crcFrom p c (a ++ b) = crcFrom p (crcFrom p c a) b := by
  induction a generalizing c with
  | nil => rfl
  | cons x a ih => simp only [List.cons_append, crcFrom, ih]

end Sys2Proof.Machine
end

