-- ==== Sys2Proof/Laws/Decode.lean ====
section
/-! SUPPORT. Laws of the operand and command-word functions: each packing is undone by its unpacking. -/

namespace Sys2Proof

@[simp] theorem bytesOfNat_length (n v : Nat) : (bytesOfNat n v).length = n := by
  induction n generalizing v with
  | zero => rfl
  | succ n ih => simp [bytesOfNat, ih]

theorem natOfBytes_bytesOfNat (n v : Nat) : natOfBytes (bytesOfNat n v) = v % 256 ^ n := by
  induction n generalizing v with
  | zero => simp [bytesOfNat, natOfBytes, Nat.mod_one]
  | succ n ih =>
    rw [bytesOfNat, natOfBytes, ih, Nat.pow_succ, Nat.mul_comm (256 ^ n) 256, Nat.mod_mul]
    simp

theorem bytesOfNat_natOfBytes (bs : List Byte) : bytesOfNat bs.length (natOfBytes bs) = bs := by
  induction bs with
  | nil => rfl
  | cons b bs ih =>
    have h1 : (b.toNat + 256 * natOfBytes bs) / 256 = natOfBytes bs := by have := b.isLt; omega
    simp only [List.length_cons, bytesOfNat, natOfBytes, h1, ih]
    congr 1
    apply BitVec.eq_of_toNat_eq
    have := b.isLt
    simp only [BitVec.toNat_ofNat]
    omega

theorem natOfBytes_lt (bs : List Byte) : natOfBytes bs < 256 ^ bs.length := by
  induction bs with
  | nil => simp [natOfBytes]
  | cons b bs ih =>
    have := b.isLt
    simp only [natOfBytes, List.length_cons, Nat.pow_succ]
    omega

@[simp] theorem bytesOfWord64_length (v : Word64) : (bytesOfWord64 v).length = 8 := by simp [bytesOfWord64]

@[simp] theorem word64OfBytes_bytesOfWord64 (v : Word64) : word64OfBytes (bytesOfWord64 v) = v := by
  apply BitVec.eq_of_toNat_eq
  have := v.isLt
  simp only [word64OfBytes, bytesOfWord64, natOfBytes_bytesOfNat, BitVec.toNat_ofNat]
  omega

theorem bytesOfWord64_word64OfBytes (bs : List Byte) (h : bs.length = 8) : bytesOfWord64 (word64OfBytes bs) = bs := by
  have hlt := natOfBytes_lt bs
  have hb := bytesOfNat_natOfBytes bs
  rw [h] at hlt hb
  have hm : natOfBytes bs % 2 ^ 64 = natOfBytes bs := Nat.mod_eq_of_lt (by norm_num at hlt ⊢; exact hlt)
  simp only [bytesOfWord64, word64OfBytes, BitVec.toNat_ofNat, hm, hb]

@[simp] theorem bytesOfEntries_length (es : CommandSet) : (bytesOfEntries es).length = 16 * es.length := by
  induction es with
  | nil => rfl
  | cons e es ih => simp [bytesOfEntries, ih]; omega

@[simp] theorem entriesOfBytes_bytesOfEntries (es : CommandSet) :
    entriesOfBytes es.length (bytesOfEntries es) = es := by
  induction es with
  | nil => rfl
  | cons e es ih =>
    have h16 : ((bytesOfWord64 e.key ++ bytesOfWord64 e.value) ++ bytesOfEntries es).drop 16 = bytesOfEntries es :=
      List.drop_left' (by simp)
    have h8 : (bytesOfWord64 e.key ++ (bytesOfWord64 e.value ++ bytesOfEntries es)).drop 8
        = bytesOfWord64 e.value ++ bytesOfEntries es := List.drop_left' (by simp)
    have hk : (bytesOfWord64 e.key ++ (bytesOfWord64 e.value ++ bytesOfEntries es)).take 8 = bytesOfWord64 e.key :=
      List.take_left' (by simp)
    have hv : (bytesOfWord64 e.value ++ bytesOfEntries es).take 8 = bytesOfWord64 e.value := List.take_left' (by simp)
    simp only [List.length_cons, entriesOfBytes, bytesOfEntries, h16, ih]
    simp only [List.append_assoc, hk, h8, hv, word64OfBytes_bytesOfWord64]

@[simp] theorem entriesOfBytes_length (m : Nat) (d : List Byte) : (entriesOfBytes m d).length = m := by
  induction m generalizing d with
  | zero => rfl
  | succ m ih => simp [entriesOfBytes, ih]

theorem bytesOfEntries_entriesOfBytes (m : Nat) (d : List Byte) (h : d.length = 16 * m) :
    bytesOfEntries (entriesOfBytes m d) = d := by
  induction m generalizing d with
  | zero => simp at h; simp [entriesOfBytes, bytesOfEntries, h]
  | succ m ih =>
    have h1 : (d.take 8).length = 8 := by simp; omega
    have h2 : ((d.drop 8).take 8).length = 8 := by simp; omega
    simp only [entriesOfBytes, bytesOfEntries, bytesOfWord64_word64OfBytes _ h1, bytesOfWord64_word64OfBytes _ h2]
    rw [ih _ (by simp; omega), List.append_assoc, ← List.drop_drop (i := 8) (j := 8), List.take_append_drop,
      List.take_append_drop]

/-! ## The command word -/

theorem packWord_toNat (o a : Byte) (l : BitVec 16) :
    (packWord o a l).toNat = o.toNat * 2 ^ 24 + a.toNat * 2 ^ 16 + l.toNat := by
  have h1 : (packWord o a l).toNat = (o ++ a).toNat <<< 16 ||| l.toNat := BitVec.toNat_append _ _
  rw [h1, ← Nat.shiftLeft_add_eq_or_of_lt l.isLt, BitVec.toNat_append, ← Nat.shiftLeft_add_eq_or_of_lt a.isLt,
    Nat.shiftLeft_eq, Nat.shiftLeft_eq]
  omega

@[simp] theorem opcOf_packWord (o a : Byte) (l : BitVec 16) : opcOf (packWord o a l) = o := by
  apply BitVec.eq_of_toNat_eq
  have := o.isLt; have := a.isLt; have := l.isLt
  simp only [opcOf, BitVec.extractLsb'_toNat, packWord_toNat, Nat.shiftRight_eq_div_pow]
  omega

@[simp] theorem a8Of_packWord (o a : Byte) (l : BitVec 16) : a8Of (packWord o a l) = a := by
  apply BitVec.eq_of_toNat_eq
  have := o.isLt; have := a.isLt; have := l.isLt
  simp only [a8Of, BitVec.extractLsb'_toNat, packWord_toNat, Nat.shiftRight_eq_div_pow]
  omega

@[simp] theorem l16Of_packWord (o a : Byte) (l : BitVec 16) : l16Of (packWord o a l) = l := by
  apply BitVec.eq_of_toNat_eq
  have := o.isLt; have := a.isLt; have := l.isLt
  simp only [l16Of, BitVec.extractLsb'_toNat, packWord_toNat, Nat.shiftRight_eq_div_pow]
  omega

theorem packWord_fields (w : CmdWord) : packWord (opcOf w) (a8Of w) (l16Of w) = w := by
  apply BitVec.eq_of_toNat_eq
  have := w.isLt
  simp only [packWord_toNat, opcOf, a8Of, l16Of, BitVec.extractLsb'_toNat, Nat.shiftRight_eq_div_pow]
  omega

theorem packWord_and (o a o' a' : Byte) (l l' : BitVec 16) :
    packWord o a l &&& packWord o' a' l' = packWord (o &&& o') (a &&& a') (l &&& l') := by
  have h : (o ++ a) ++ l &&& ((o' ++ a') ++ l') = ((o ++ a) &&& (o' ++ a')) ++ (l &&& l') := BitVec.and_append
  have h' : o ++ a &&& (o' ++ a') = (o &&& o') ++ (a &&& a') := BitVec.and_append
  exact h.trans (by rw [h']; rfl)

@[simp] theorem lengthField_toNat (n : Nat) (h : n ≤ maxL16) : (lengthField n).toNat = n := by
  simp only [lengthField, BitVec.toNat_ofNat, maxL16] at *
  omega

@[simp] theorem require_true (why : Illegal) (k : Except Illegal Instr) : require true why k = k := rfl

@[simp] theorem require_false (why : Illegal) (k : Except Illegal Instr) : require false why k = .error why := rfl

theorem require_eq_ok {ok : Bool} {why : Illegal} {k : Except Illegal Instr} {i : Instr}
    (h : require ok why k = .ok i) : ok = true ∧ k = .ok i := by
  cases ok <;> simp_all

/-- What a decoded command word is: its fields decode, and its data port has the announced length. -/
theorem decodeCommand_eq_ok {w : CmdWord} {data : List Byte} {i : Instr} (h : decodeCommand w data = .ok i) :
    decodeFields w data = .ok i ∧ data.length = dataLength w := by
  unfold decodeCommand at h
  split at h
  · cases h
  · obtain ⟨h1, h2⟩ := require_eq_ok h
    cases h2
    exact ⟨‹_›, by simpa using h1⟩

end Sys2Proof
end

