-- ==== Sys2Proof/Laws/Memory.lean ====
section
/-! SUPPORT. Laws of the storage arrays: read after write, the canonical form and the bound kept by every write. -/

namespace Sys2Proof.Machine

theorem Memory.read_write_same (m : Memory) (a : Nat) (b : Byte) : Memory.read (Memory.write m a b) a = some b := by
  induction m with
  | nil => simp [Memory.write, Memory.read]
  | cons c m ih =>
    obtain ⟨k, x⟩ := c
    simp only [Memory.write]
    split
    · simp [Memory.read]
    · split
      · simp [Memory.read]
      · simp [Memory.read, *]

theorem Memory.read_write_ne (m : Memory) {a c : Nat} (b : Byte) (h : c ≠ a) :
    Memory.read (Memory.write m a b) c = Memory.read m c := by
  induction m with
  | nil => simp [Memory.write, Memory.read, h]
  | cons e m ih =>
    obtain ⟨k, x⟩ := e
    simp only [Memory.write]
    split
    · simp only [Memory.read, if_neg h]
      split
      · next h1 => rw [if_neg (by omega), if_pos (by omega)]
      · rfl
    · split
      · next h2 => subst h2; simp only [Memory.read, if_neg h]
      · simp only [Memory.read, ih]

/-- A read after a write: the written byte at its slot, what stood there everywhere else. -/
theorem Memory.read_write (m : Memory) (a c : Nat) (b : Byte) :
    Memory.read (Memory.write m a b) c = if c = a then some b else Memory.read m c := by
  split
  · next h => subst h; exact Memory.read_write_same m _ b
  · next h => exact Memory.read_write_ne m b h

theorem Memory.risingAbove_mono {a c : Nat} {m : Memory} (hac : a ≤ c) (h : Memory.risingAbove c m = true) :
    Memory.risingAbove a m = true := by
  cases m with
  | nil => rfl
  | cons e m =>
    obtain ⟨k, x⟩ := e
    simp only [Memory.risingAbove, Bool.and_eq_true, decide_eq_true_eq] at h ⊢
    exact ⟨by omega, h.2⟩

theorem Memory.risingAbove_write {m : Memory} {c a : Nat} {b : Byte} (hca : c < a)
    (h : Memory.risingAbove c m = true) : Memory.risingAbove c (Memory.write m a b) = true := by
  induction m generalizing c with
  | nil => simp [Memory.write, Memory.risingAbove, hca]
  | cons e m ih =>
    obtain ⟨k, x⟩ := e
    simp only [Memory.risingAbove, Bool.and_eq_true, decide_eq_true_eq] at h
    simp only [Memory.write]
    split
    · next h1 => simp [Memory.risingAbove, hca, h1, h.2]
    · split
      · next h2 => subst h2; simp [Memory.risingAbove, hca, h.2]
      · next h1 h2 =>
        simp only [Memory.risingAbove, Bool.and_eq_true, decide_eq_true_eq]
        exact ⟨h.1, ih (by omega) h.2⟩

/-- A write keeps the canonical form. -/
theorem Memory.wf_write {m : Memory} (a : Nat) (b : Byte) (h : Memory.wf m = true) :
    Memory.wf (Memory.write m a b) = true := by
  cases m with
  | nil => rfl
  | cons e m =>
    obtain ⟨k, x⟩ := e
    simp only [Memory.wf] at h
    simp only [Memory.write]
    split
    · next h1 => simp [Memory.wf, Memory.risingAbove, h1, h]
    · split
      · next h2 => subst h2; simpa [Memory.wf] using h
      · next h1 h2 => exact Memory.risingAbove_write (by omega) h

/-- A write below the bound keeps every slot below it. -/
theorem Memory.below_write {m : Memory} {n a : Nat} (b : Byte) (ha : a < n) (h : Memory.below n m = true) :
    Memory.below n (Memory.write m a b) = true := by
  induction m with
  | nil => simp [Memory.below, Memory.write, ha]
  | cons e m ih =>
    obtain ⟨k, x⟩ := e
    simp only [Memory.below, List.all_cons, Bool.and_eq_true, decide_eq_true_eq] at h ih
    simp only [Memory.write]
    split
    · simp only [Memory.below, List.all_cons, Bool.and_eq_true, decide_eq_true_eq]; exact ⟨ha, h.1, h.2⟩
    · split
      · simp only [Memory.below, List.all_cons, Bool.and_eq_true, decide_eq_true_eq]; exact ⟨ha, h.2⟩
      · simp only [Memory.below, List.all_cons, Bool.and_eq_true, decide_eq_true_eq]; exact ⟨h.1, ih h.2⟩

/-- `MemWrite` answers exactly below the bound, with the write. -/
theorem Memory.store_eq_some {n a : Nat} {m m' : Memory} {b : Byte} :
    Memory.store n m a b = some m' ↔ a < n ∧ m' = Memory.write m a b := by
  unfold Memory.store
  split
  · simp [*, eq_comm]
  · simp [*]

theorem Memory.store_lt {n a : Nat} (m : Memory) (b : Byte) (h : a < n) :
    Memory.store n m a b = some (Memory.write m a b) := if_pos h

/-- A range is read exactly when each of its slots is. -/
theorem Memory.readRange_eq_some {m : Memory} {a n : Nat} {bs : List Byte} :
    Memory.readRange m a n = some bs ↔
      bs.length = n ∧ ∀ j, j < n → Memory.read m (a + j) = bs[j]? := by
  induction n generalizing a bs with
  | zero => simp [Memory.readRange, eq_comm, ← List.length_eq_zero_iff]
  | succ n ih =>
    simp only [Memory.readRange]
    constructor
    · intro h
      split at h
      · next b bs' h1 h2 =>
        cases h
        obtain ⟨hl, hr⟩ := ih.mp h2
        refine ⟨by simp [hl], fun j hj => ?_⟩
        cases j with
        | zero => simpa using h1
        | succ j => simpa [Nat.add_assoc, Nat.add_comm 1 j] using hr j (by omega)
      · cases h
    · rintro ⟨hl, hr⟩
      cases bs with
      | nil => simp at hl
      | cons b bs =>
        have h1 := hr 0 (by omega)
        have h2 : Memory.readRange m (a + 1) n = some bs := by
          refine ih.mpr ⟨by simpa using hl, fun j hj => ?_⟩
          have := hr (j + 1) (by omega)
          simpa [Nat.add_assoc, Nat.add_comm 1 j] using this
        simp at h1
        simp [h1, h2]

end Sys2Proof.Machine
end

