-- ==== Sys2Proof/Laws/State.lean ====
section
/-! SUPPORT. One lemma for each field and each named update of the state, so that no proof unfolds an update. -/

namespace Sys2Proof.Machine

/-! ## State.raise -/

@[simp] theorem State.raise_cfg (s : State) (e : Event) : (s.raise e).cfg = s.cfg := rfl
@[simp] theorem State.raise_fifoMem (s : State) (e : Event) : (s.raise e).fifoMem = s.fifoMem := rfl
@[simp] theorem State.raise_fifoRd (s : State) (e : Event) : (s.raise e).fifoRd = s.fifoRd := rfl
@[simp] theorem State.raise_fifoWr (s : State) (e : Event) : (s.raise e).fifoWr = s.fifoWr := rfl
@[simp] theorem State.raise_accMem (s : State) (e : Event) : (s.raise e).accMem = s.accMem := rfl
@[simp] theorem State.raise_accLen (s : State) (e : Event) : (s.raise e).accLen = s.accLen := rfl
@[simp] theorem State.raise_crcAcc (s : State) (e : Event) : (s.raise e).crcAcc = s.crcAcc := rfl
@[simp] theorem State.raise_cmdq (s : State) (e : Event) : (s.raise e).cmdq = s.cmdq := rfl
@[simp] theorem State.raise_duty (s : State) (e : Event) : (s.raise e).duty = s.duty := rfl
@[simp] theorem State.raise_lastCmdTime (s : State) (e : Event) : (s.raise e).lastCmdTime = s.lastCmdTime := rfl
@[simp] theorem State.raise_cnt (s : State) (e : Event) : (s.raise e).cnt = s.cnt.bump e := rfl
@[simp] theorem State.raise_fault (s : State) (e : Event) : (s.raise e).fault = s.fault := rfl
@[simp] theorem State.raise_prodEn (s : State) (e : Event) : (s.raise e).prodEn = s.prodEn := rfl
@[simp] theorem State.raise_cInPump (s : State) (e : Event) : (s.raise e).cInPump = s.cInPump := rfl
@[simp] theorem State.raise_pumpCount (s : State) (e : Event) : (s.raise e).pumpCount = s.pumpCount := rfl
@[simp] theorem State.raise_sinkBusy (s : State) (e : Event) : (s.raise e).sinkBusy = s.sinkBusy := rfl
@[simp] theorem State.raise_codec (s : State) (e : Event) : (s.raise e).codec = s.codec := rfl
@[simp] theorem State.raise_inputs (s : State) (e : Event) : (s.raise e).inputs = s.inputs := rfl
@[simp] theorem State.raise_result (s : State) (e : Event) : (s.raise e).result = s.result := rfl
@[simp] theorem State.raise_rxResult (s : State) (e : Event) : (s.raise e).rxResult = s.rxResult := rfl
@[simp] theorem State.raise_linkOut (s : State) (e : Event) : (s.raise e).linkOut = s.linkOut := rfl
@[simp] theorem State.raise_msgOut (s : State) (e : Event) : (s.raise e).msgOut = s.msgOut := rfl
@[simp] theorem State.raise_agenda (s : State) (e : Event) : (s.raise e).agenda = s.agenda := rfl

/-! ## State.answer -/

@[simp] theorem State.answer_cfg (s : State) (r : OpResult) : (s.answer r).cfg = s.cfg := rfl
@[simp] theorem State.answer_fifoMem (s : State) (r : OpResult) : (s.answer r).fifoMem = s.fifoMem := rfl
@[simp] theorem State.answer_fifoRd (s : State) (r : OpResult) : (s.answer r).fifoRd = s.fifoRd := rfl
@[simp] theorem State.answer_fifoWr (s : State) (r : OpResult) : (s.answer r).fifoWr = s.fifoWr := rfl
@[simp] theorem State.answer_accMem (s : State) (r : OpResult) : (s.answer r).accMem = s.accMem := rfl
@[simp] theorem State.answer_accLen (s : State) (r : OpResult) : (s.answer r).accLen = s.accLen := rfl
@[simp] theorem State.answer_crcAcc (s : State) (r : OpResult) : (s.answer r).crcAcc = s.crcAcc := rfl
@[simp] theorem State.answer_cmdq (s : State) (r : OpResult) : (s.answer r).cmdq = s.cmdq := rfl
@[simp] theorem State.answer_duty (s : State) (r : OpResult) : (s.answer r).duty = s.duty := rfl
@[simp] theorem State.answer_lastCmdTime (s : State) (r : OpResult) : (s.answer r).lastCmdTime = s.lastCmdTime := rfl
@[simp] theorem State.answer_cnt (s : State) (r : OpResult) : (s.answer r).cnt = s.cnt := rfl
@[simp] theorem State.answer_fault (s : State) (r : OpResult) : (s.answer r).fault = s.fault := rfl
@[simp] theorem State.answer_prodEn (s : State) (r : OpResult) : (s.answer r).prodEn = s.prodEn := rfl
@[simp] theorem State.answer_cInPump (s : State) (r : OpResult) : (s.answer r).cInPump = s.cInPump := rfl
@[simp] theorem State.answer_pumpCount (s : State) (r : OpResult) : (s.answer r).pumpCount = s.pumpCount := rfl
@[simp] theorem State.answer_sinkBusy (s : State) (r : OpResult) : (s.answer r).sinkBusy = s.sinkBusy := rfl
@[simp] theorem State.answer_codec (s : State) (r : OpResult) : (s.answer r).codec = s.codec := rfl
@[simp] theorem State.answer_inputs (s : State) (r : OpResult) : (s.answer r).inputs = s.inputs := rfl
@[simp] theorem State.answer_result (s : State) (r : OpResult) : (s.answer r).result = some r := rfl
@[simp] theorem State.answer_rxResult (s : State) (r : OpResult) : (s.answer r).rxResult = s.rxResult := rfl
@[simp] theorem State.answer_linkOut (s : State) (r : OpResult) : (s.answer r).linkOut = s.linkOut := rfl
@[simp] theorem State.answer_msgOut (s : State) (r : OpResult) : (s.answer r).msgOut = s.msgOut := rfl
@[simp] theorem State.answer_agenda (s : State) (r : OpResult) : (s.answer r).agenda = s.agenda := rfl

/-! ## State.noResult -/

@[simp] theorem State.noResult_cfg (s : State) : s.noResult.cfg = s.cfg := rfl
@[simp] theorem State.noResult_fifoMem (s : State) : s.noResult.fifoMem = s.fifoMem := rfl
@[simp] theorem State.noResult_fifoRd (s : State) : s.noResult.fifoRd = s.fifoRd := rfl
@[simp] theorem State.noResult_fifoWr (s : State) : s.noResult.fifoWr = s.fifoWr := rfl
@[simp] theorem State.noResult_accMem (s : State) : s.noResult.accMem = s.accMem := rfl
@[simp] theorem State.noResult_accLen (s : State) : s.noResult.accLen = s.accLen := rfl
@[simp] theorem State.noResult_crcAcc (s : State) : s.noResult.crcAcc = s.crcAcc := rfl
@[simp] theorem State.noResult_cmdq (s : State) : s.noResult.cmdq = s.cmdq := rfl
@[simp] theorem State.noResult_duty (s : State) : s.noResult.duty = s.duty := rfl
@[simp] theorem State.noResult_lastCmdTime (s : State) : s.noResult.lastCmdTime = s.lastCmdTime := rfl
@[simp] theorem State.noResult_cnt (s : State) : s.noResult.cnt = s.cnt := rfl
@[simp] theorem State.noResult_fault (s : State) : s.noResult.fault = s.fault := rfl
@[simp] theorem State.noResult_prodEn (s : State) : s.noResult.prodEn = s.prodEn := rfl
@[simp] theorem State.noResult_cInPump (s : State) : s.noResult.cInPump = s.cInPump := rfl
@[simp] theorem State.noResult_pumpCount (s : State) : s.noResult.pumpCount = s.pumpCount := rfl
@[simp] theorem State.noResult_sinkBusy (s : State) : s.noResult.sinkBusy = s.sinkBusy := rfl
@[simp] theorem State.noResult_codec (s : State) : s.noResult.codec = s.codec := rfl
@[simp] theorem State.noResult_inputs (s : State) : s.noResult.inputs = s.inputs := rfl
@[simp] theorem State.noResult_result (s : State) : s.noResult.result = none := rfl
@[simp] theorem State.noResult_rxResult (s : State) : s.noResult.rxResult = s.rxResult := rfl
@[simp] theorem State.noResult_linkOut (s : State) : s.noResult.linkOut = s.linkOut := rfl
@[simp] theorem State.noResult_msgOut (s : State) : s.noResult.msgOut = s.msgOut := rfl
@[simp] theorem State.noResult_agenda (s : State) : s.noResult.agenda = s.agenda := rfl

/-! ## setDuty -/

@[simp] theorem setDuty_cfg (s : State) (i d : Nat) : (setDuty s i d).cfg = s.cfg := rfl
@[simp] theorem setDuty_fifoMem (s : State) (i d : Nat) : (setDuty s i d).fifoMem = s.fifoMem := rfl
@[simp] theorem setDuty_fifoRd (s : State) (i d : Nat) : (setDuty s i d).fifoRd = s.fifoRd := rfl
@[simp] theorem setDuty_fifoWr (s : State) (i d : Nat) : (setDuty s i d).fifoWr = s.fifoWr := rfl
@[simp] theorem setDuty_accMem (s : State) (i d : Nat) : (setDuty s i d).accMem = s.accMem := rfl
@[simp] theorem setDuty_accLen (s : State) (i d : Nat) : (setDuty s i d).accLen = s.accLen := rfl
@[simp] theorem setDuty_crcAcc (s : State) (i d : Nat) : (setDuty s i d).crcAcc = s.crcAcc := rfl
@[simp] theorem setDuty_cmdq (s : State) (i d : Nat) : (setDuty s i d).cmdq = s.cmdq := rfl
@[simp] theorem setDuty_duty (s : State) (i d : Nat) : (setDuty s i d).duty = s.duty.set i d := rfl
@[simp] theorem setDuty_lastCmdTime (s : State) (i d : Nat) : (setDuty s i d).lastCmdTime = s.lastCmdTime := rfl
@[simp] theorem setDuty_cnt (s : State) (i d : Nat) : (setDuty s i d).cnt = s.cnt := rfl
@[simp] theorem setDuty_fault (s : State) (i d : Nat) : (setDuty s i d).fault = s.fault := rfl
@[simp] theorem setDuty_prodEn (s : State) (i d : Nat) : (setDuty s i d).prodEn = s.prodEn := rfl
@[simp] theorem setDuty_cInPump (s : State) (i d : Nat) : (setDuty s i d).cInPump = s.cInPump := rfl
@[simp] theorem setDuty_pumpCount (s : State) (i d : Nat) : (setDuty s i d).pumpCount = s.pumpCount := rfl
@[simp] theorem setDuty_sinkBusy (s : State) (i d : Nat) : (setDuty s i d).sinkBusy = s.sinkBusy := rfl
@[simp] theorem setDuty_codec (s : State) (i d : Nat) : (setDuty s i d).codec = s.codec := rfl
@[simp] theorem setDuty_inputs (s : State) (i d : Nat) : (setDuty s i d).inputs = s.inputs := rfl
@[simp] theorem setDuty_result (s : State) (i d : Nat) : (setDuty s i d).result = s.result := rfl
@[simp] theorem setDuty_rxResult (s : State) (i d : Nat) : (setDuty s i d).rxResult = s.rxResult := rfl
@[simp] theorem setDuty_linkOut (s : State) (i d : Nat) : (setDuty s i d).linkOut = s.linkOut := rfl
@[simp] theorem setDuty_msgOut (s : State) (i d : Nat) : (setDuty s i d).msgOut = s.msgOut := rfl
@[simp] theorem setDuty_agenda (s : State) (i d : Nat) : (setDuty s i d).agenda = s.agenda := rfl

/-! ## neutralise -/

@[simp] theorem neutralise_cfg (s : State) : (neutralise s).cfg = s.cfg := rfl
@[simp] theorem neutralise_fifoMem (s : State) : (neutralise s).fifoMem = s.fifoMem := rfl
@[simp] theorem neutralise_fifoRd (s : State) : (neutralise s).fifoRd = s.fifoRd := rfl
@[simp] theorem neutralise_fifoWr (s : State) : (neutralise s).fifoWr = s.fifoWr := rfl
@[simp] theorem neutralise_accMem (s : State) : (neutralise s).accMem = s.accMem := rfl
@[simp] theorem neutralise_accLen (s : State) : (neutralise s).accLen = s.accLen := rfl
@[simp] theorem neutralise_crcAcc (s : State) : (neutralise s).crcAcc = s.crcAcc := rfl
@[simp] theorem neutralise_cmdq (s : State) : (neutralise s).cmdq = s.cmdq := rfl
@[simp] theorem neutralise_duty (s : State) : (neutralise s).duty = neutralDuties s.cfg := rfl
@[simp] theorem neutralise_lastCmdTime (s : State) : (neutralise s).lastCmdTime = s.lastCmdTime := rfl
@[simp] theorem neutralise_cnt (s : State) : (neutralise s).cnt = s.cnt := rfl
@[simp] theorem neutralise_fault (s : State) : (neutralise s).fault = s.fault := rfl
@[simp] theorem neutralise_prodEn (s : State) : (neutralise s).prodEn = s.prodEn := rfl
@[simp] theorem neutralise_cInPump (s : State) : (neutralise s).cInPump = s.cInPump := rfl
@[simp] theorem neutralise_pumpCount (s : State) : (neutralise s).pumpCount = s.pumpCount := rfl
@[simp] theorem neutralise_sinkBusy (s : State) : (neutralise s).sinkBusy = s.sinkBusy := rfl
@[simp] theorem neutralise_codec (s : State) : (neutralise s).codec = s.codec := rfl
@[simp] theorem neutralise_inputs (s : State) : (neutralise s).inputs = s.inputs := rfl
@[simp] theorem neutralise_result (s : State) : (neutralise s).result = s.result := rfl
@[simp] theorem neutralise_rxResult (s : State) : (neutralise s).rxResult = s.rxResult := rfl
@[simp] theorem neutralise_linkOut (s : State) : (neutralise s).linkOut = s.linkOut := rfl
@[simp] theorem neutralise_msgOut (s : State) : (neutralise s).msgOut = s.msgOut := rfl
@[simp] theorem neutralise_agenda (s : State) : (neutralise s).agenda = s.agenda := rfl

/-! ## deliver -/

@[simp] theorem deliver_cfg (ch : Byte) (p : List Byte) (s : State) : (deliver ch p s).cfg = s.cfg := rfl
@[simp] theorem deliver_fifoMem (ch : Byte) (p : List Byte) (s : State) : (deliver ch p s).fifoMem = s.fifoMem := rfl
@[simp] theorem deliver_fifoRd (ch : Byte) (p : List Byte) (s : State) : (deliver ch p s).fifoRd = s.fifoRd := rfl
@[simp] theorem deliver_fifoWr (ch : Byte) (p : List Byte) (s : State) : (deliver ch p s).fifoWr = s.fifoWr := rfl
@[simp] theorem deliver_accMem (ch : Byte) (p : List Byte) (s : State) : (deliver ch p s).accMem = s.accMem := rfl
@[simp] theorem deliver_accLen (ch : Byte) (p : List Byte) (s : State) : (deliver ch p s).accLen = s.accLen := rfl
@[simp] theorem deliver_crcAcc (ch : Byte) (p : List Byte) (s : State) : (deliver ch p s).crcAcc = s.crcAcc := rfl
@[simp] theorem deliver_cmdq (ch : Byte) (p : List Byte) (s : State) : (deliver ch p s).cmdq = s.cmdq := rfl
@[simp] theorem deliver_duty (ch : Byte) (p : List Byte) (s : State) : (deliver ch p s).duty = s.duty := rfl
@[simp] theorem deliver_lastCmdTime (ch : Byte) (p : List Byte) (s : State) : (deliver ch p s).lastCmdTime = s.lastCmdTime := rfl
@[simp] theorem deliver_cnt (ch : Byte) (p : List Byte) (s : State) : (deliver ch p s).cnt = s.cnt.bump .msgOut := rfl
@[simp] theorem deliver_fault (ch : Byte) (p : List Byte) (s : State) : (deliver ch p s).fault = s.fault := rfl
@[simp] theorem deliver_prodEn (ch : Byte) (p : List Byte) (s : State) : (deliver ch p s).prodEn = s.prodEn := rfl
@[simp] theorem deliver_cInPump (ch : Byte) (p : List Byte) (s : State) : (deliver ch p s).cInPump = s.cInPump := rfl
@[simp] theorem deliver_pumpCount (ch : Byte) (p : List Byte) (s : State) : (deliver ch p s).pumpCount = s.pumpCount := rfl
@[simp] theorem deliver_sinkBusy (ch : Byte) (p : List Byte) (s : State) : (deliver ch p s).sinkBusy = true := rfl
@[simp] theorem deliver_codec (ch : Byte) (p : List Byte) (s : State) : (deliver ch p s).codec = s.codec := rfl
@[simp] theorem deliver_inputs (ch : Byte) (p : List Byte) (s : State) : (deliver ch p s).inputs = s.inputs := rfl
@[simp] theorem deliver_result (ch : Byte) (p : List Byte) (s : State) : (deliver ch p s).result = s.result := rfl
@[simp] theorem deliver_rxResult (ch : Byte) (p : List Byte) (s : State) : (deliver ch p s).rxResult = s.rxResult := rfl
@[simp] theorem deliver_linkOut (ch : Byte) (p : List Byte) (s : State) : (deliver ch p s).linkOut = s.linkOut := rfl
@[simp] theorem deliver_msgOut (ch : Byte) (p : List Byte) (s : State) : (deliver ch p s).msgOut = s.msgOut ++ [(ch, p)] := rfl
@[simp] theorem deliver_agenda (ch : Byte) (p : List Byte) (s : State) : (deliver ch p s).agenda = s.agenda := rfl

end Sys2Proof.Machine
end

