-- ==== Sys2Proof/Laws/Ops.lean ====
section
/-! SUPPORT. One lemma for each shared operation of Machine/Ops.lean that says what it can answer. -/

namespace Sys2Proof.Machine

/-! ## Counters -/

/-- Counting an event moves its own counter and no other. -/
theorem Counters.get_bump (c : Counters) (e f : Event) :
    (c.bump e).get f = if f = e then c.get f + 1#32 else c.get f := by
  cases e <;> cases f <;> rfl

@[simp] theorem Counters.get_bump_same (c : Counters) (e : Event) : (c.bump e).get e = c.get e + 1#32 := by
  rw [Counters.get_bump, if_pos rfl]

/-- Two sets of counters that agree on every event are the same. -/
theorem Counters.ext_get {c d : Counters} (h : ∀ e, c.get e = d.get e) : c = d := by
  cases c; cases d
  have h0 := h .fifoOvf; have h1 := h .accOvf; have h2 := h .cobsErr; have h3 := h .short; have h4 := h .crcErr
  have h5 := h .txShort; have h6 := h .cmdqDrop; have h7 := h .dutyRej; have h8 := h .wdtTrip; have h9 := h .msgOut
  simp only [Counters.get] at h0 h1 h2 h3 h4 h5 h6 h7 h8 h9
  simp [*]

/-! ## The checks and the answers -/

@[simp] theorem answer_eq_next (r : OpResult) (s t : State) : answer r s = .next t ↔ t = s.answer r := by
  simp [answer, eq_comm]

@[simp] theorem takeFault_eq_next (why : Misuse) (s t : State) :
    takeFault why s = .next t ↔ t = { s with fault := some why, result := none } := by
  simp [takeFault, eq_comm]

theorem ownedBy_owner {a : Agent} {op : State → Answer} {s : State} (h : s.inputs.issuer = a) :
    ownedBy a op s = op s := if_pos h

theorem ownedBy_other {a : Agent} {op : State → Answer} {s : State} (h : s.inputs.issuer ≠ a) :
    ownedBy a op s = takeFault .wrongAgent s := if_neg h

/-- An owned operation answers a next state as the operation does for its owner, or takes `fault(WRONG_AGENT)`. -/
theorem ownedBy_next {a : Agent} {op : State → Answer} {s t : State} (h : ownedBy a op s = .next t) :
    (s.inputs.issuer = a ∧ op s = .next t)
    ∨ (s.inputs.issuer ≠ a ∧ t = { s with fault := some .wrongAgent, result := none }) := by
  unfold ownedBy at h
  split at h
  · exact .inl ⟨‹_›, h⟩
  · exact .inr ⟨‹_›, (takeFault_eq_next ..).mp h⟩

theorem notReentrant_free {op : State → Answer} {s : State} (h : receiverBusy s = false) :
    notReentrant op s = op s := by simp [notReentrant, h]

theorem notReentrant_busy {op : State → Answer} {s : State} (h : receiverBusy s = true) :
    notReentrant op s = takeFault .reentrant s := if_pos h

/-- A guarded receiver operation answers a next state as the operation does while the receiver is free, or takes
`fault(REENTRANT)`. -/
theorem notReentrant_next {op : State → Answer} {s t : State} (h : notReentrant op s = .next t) :
    (receiverBusy s = false ∧ op s = .next t)
    ∨ (receiverBusy s = true ∧ t = { s with fault := some .reentrant, result := none }) := by
  unfold notReentrant at h
  split at h
  · exact .inr ⟨‹_›, (takeFault_eq_next ..).mp h⟩
  · exact .inl ⟨Bool.eq_false_iff.mpr ‹_›, h⟩

/-- `finish` answers a next state exactly where the operation gave a result. -/
theorem finish_eq_next {x : Except Fault (OpResult × State)} {t : State} :
    finish x = .next t ↔ ∃ r s, x = .ok (r, s) ∧ t = s.answer r := by
  cases x with
  | error f => simp [finish]
  | ok p => obtain ⟨r, s⟩ := p; simp [finish]

end Sys2Proof.Machine
end

