-- ==== Sys2Proof/Laws/Fifo.lean ====
section
/-! SUPPORT. Laws of the FIFO: what a push and a pop can do, and the level as a number. -/

namespace Sys2Proof.Machine

@[simp] theorem fifoEmpty_eq_true (s : State) : fifoEmpty s = true ↔ s.fifoRd = s.fifoWr := by simp [fifoEmpty]

@[simp] theorem fifoFull_eq_true (s : State) : fifoFull s = true ↔ (s.fifoWr + 1) % s.cfg.fifoN = s.fifoRd := by
  simp [fifoFull]

/-- A push drops and counts on a full FIFO, and otherwise stores the byte in the write slot and advances the index. -/
theorem pushByte_eq_ok {b : Byte} {s t : State} {r : OpResult} :
    pushByte b s = .ok (r, t) ↔
      (fifoFull s = true ∧ r = .nonePlain ∧ t = s.raise .fifoOvf)
      ∨ (fifoFull s = false ∧ s.fifoWr < s.cfg.fifoN ∧ r = .okPlain
          ∧ t = { s with fifoMem := Memory.write s.fifoMem s.fifoWr b, fifoWr := nextIndex s s.fifoWr }) := by
  unfold pushByte
  cases hf : fifoFull s
  · simp only [Bool.false_eq_true, if_false, false_and, false_or, true_and]
    by_cases hw : s.fifoWr < s.cfg.fifoN
    · rw [Memory.store_lt _ _ hw]
      simp [hw, eq_comm]
    · have : Memory.store s.cfg.fifoN s.fifoMem s.fifoWr b = none := if_neg hw
      rw [this]; simp [hw]
  · simp [eq_comm]

/-- A pop finds the FIFO empty and changes nothing, or answers the byte of the read slot and advances the index. -/
theorem popByte_eq_ok {s t : State} {b : Option Byte} :
    popByte s = .ok (b, t) ↔
      (s.fifoRd = s.fifoWr ∧ b = none ∧ t = s)
      ∨ (s.fifoRd ≠ s.fifoWr ∧ ∃ x, Memory.read s.fifoMem s.fifoRd = some x ∧ b = some x
          ∧ t = { s with fifoRd := nextIndex s s.fifoRd }) := by
  unfold popByte
  by_cases he : s.fifoRd = s.fifoWr
  · simp [he, fifoEmpty, eq_comm]
  · have : fifoEmpty s = false := by simp [fifoEmpty, he]
    rw [this]
    cases hr : Memory.read s.fifoMem s.fifoRd with
    | none => simp [he]
    | some x => simp [he, eq_comm]

/-- The level, for indices in range, without the remainder (10_state.md R25). -/
theorem fifoLevel_eq {s : State} (hr : s.fifoRd < s.cfg.fifoN) (hw : s.fifoWr < s.cfg.fifoN) :
    fifoLevel s = if s.fifoRd ≤ s.fifoWr then s.fifoWr - s.fifoRd else s.fifoWr + s.cfg.fifoN - s.fifoRd := by
  unfold fifoLevel
  split
  · rw [Int.emod_eq_of_lt (by omega) (by omega)]; omega
  · rw [← Int.add_emod_right, Int.emod_eq_of_lt (by omega) (by omega)]; omega

theorem fifoLevel_lt {s : State} (hr : s.fifoRd < s.cfg.fifoN) (hw : s.fifoWr < s.cfg.fifoN) :
    fifoLevel s < s.cfg.fifoN := by
  rw [fifoLevel_eq hr hw]; split <;> omega

/-- The index after one in range, without the remainder. -/
theorem nextIndex_eq {s : State} {i : Nat} (h : i < s.cfg.fifoN) :
    nextIndex s i = if i + 1 = s.cfg.fifoN then 0 else i + 1 := by
  unfold nextIndex
  split
  · next h' => rw [h', Nat.mod_self]
  · exact Nat.mod_eq_of_lt (by omega)

/-- A slot of the pending bytes, without the remainder. -/
theorem pendingSlot_eq {s : State} {j : Nat} (hr : s.fifoRd < s.cfg.fifoN) (hj : j < s.cfg.fifoN) :
    pendingSlot s j = if s.fifoRd + j < s.cfg.fifoN then s.fifoRd + j else s.fifoRd + j - s.cfg.fifoN := by
  unfold pendingSlot
  split
  · next h => exact Nat.mod_eq_of_lt h
  · next h => rw [Nat.mod_eq_sub_mod (by omega), Nat.mod_eq_of_lt (by omega)]

end Sys2Proof.Machine
end

