-- ==== Sys2Proof/Laws/Frame.lean ====
section
/-! SUPPORT. Laws of the frame receiver: what validating a frame, taking a byte, one iteration and one pump iteration can
do. -/

namespace Sys2Proof.Machine

/-- A validated frame is rejected with one event counted, or delivered. -/
theorem validateFrame_cases (frame : List Byte) (s : State) :
    (∃ e, judgeFrame s.cfg frame = .rejected e ∧ validateFrame frame s = (.dropped, s.raise e))
    ∨ (∃ ch p, judgeFrame s.cfg frame = .message ch p ∧ validateFrame frame s = (.delivered, deliver ch p s)) := by
  unfold validateFrame
  cases judgeFrame s.cfg frame with
  | rejected e => exact .inl ⟨e, rfl, rfl⟩
  | message ch p => exact .inr ⟨ch, p, rfl, rfl⟩

/-- The events a frame can be rejected with (44_frame.md R131). -/
theorem judgeFrame_rejected {c : Config} {frame : List Byte} {e : Event} (h : judgeFrame c frame = .rejected e) :
    e = .cobsErr ∨ e = .short ∨ e = .crcErr := by
  unfold judgeFrame at h
  split at h
  · cases h; exact .inl rfl
  · cases h; exact .inr (.inl rfl)
  · cases h; exact .inr (.inl rfl)
  · cases h; exact .inr (.inl rfl)
  · split at h
    · cases h
    · cases h; exact .inr (.inr rfl)

/-- A byte taken by the receiver: a delimiter of an empty frame, a delimiter that ends a frame, a byte that overflows the
buffer, or a byte appended. -/
theorem takeByte_eq_ok {b : Byte} {s t : State} {code : RxCode} :
    takeByte b s = .ok (code, t) ↔
      (b = 0x00#8 ∧ s.accLen = 0 ∧ code = .idleDelim ∧ t = s)
      ∨ (b = 0x00#8 ∧ s.accLen ≠ 0 ∧ ∃ frame, Memory.readRange s.accMem 0 s.accLen = some frame
          ∧ (code, t) = validateFrame frame { s with accLen := 0 })
      ∨ (b ≠ 0x00#8 ∧ s.accLen = s.cfg.accMax ∧ code = .accOverflow ∧ t = { s with accLen := 0 }.raise .accOvf)
      ∨ (b ≠ 0x00#8 ∧ s.accLen < s.cfg.accMax ∧ code = .accumulated
          ∧ t = { s with accMem := Memory.write s.accMem s.accLen b, accLen := s.accLen + 1 }) := by
  unfold takeByte takeDelimiter takeDataByte receiverIdle
  by_cases hb : b = 0x00#8
  · by_cases h0 : s.accLen = 0
    · simp [hb, h0, eq_comm]
    · cases hr : Memory.readRange s.accMem 0 s.accLen with
      | none => simp [hb, h0]
      | some frame => simp [hb, h0, eq_comm]
  · by_cases h1 : s.accLen = s.cfg.accMax
    · have : ¬ s.cfg.accMax < s.cfg.accMax := by omega
      simp [hb, h1, eq_comm]
    · by_cases h2 : s.accLen < s.cfg.accMax
      · simp [hb, h1, Memory.store_lt _ _ h2, h2, eq_comm]
      · have : Memory.store s.cfg.accMax s.accMem s.accLen b = none := if_neg h2
        simp [hb, h1, this, h2]

/-- One iteration of the receiver: an empty FIFO, or a byte popped and taken. -/
theorem receiveByte_eq_ok {s t : State} {r : OpResult} :
    receiveByte s = .ok (r, t) ↔
      (s.fifoRd = s.fifoWr ∧ r = .nonePlain ∧ t = { s with rxResult := some .nonePlain })
      ∨ (s.fifoRd ≠ s.fifoWr ∧ ∃ b code u, Memory.read s.fifoMem s.fifoRd = some b
          ∧ takeByte b { s with fifoRd := nextIndex s s.fifoRd } = .ok (code, u)
          ∧ r = .okValue code.number ∧ t = { u with rxResult := some (.okValue code.number) }) := by
  unfold receiveByte
  cases hp : popByte s with
  | error f =>
    have hne : s.fifoRd ≠ s.fifoWr := by
      intro h; rw [popByte_eq_ok.mpr (.inl ⟨h, rfl, rfl⟩)] at hp; cases hp
    have hnone : Memory.read s.fifoMem s.fifoRd = none := by
      cases hr : Memory.read s.fifoMem s.fifoRd with
      | none => rfl
      | some x => rw [popByte_eq_ok.mpr (.inr ⟨hne, x, hr, rfl, rfl⟩)] at hp; cases hp
    simp [hne, hnone]
  | ok p =>
    obtain ⟨b, u⟩ := p
    rcases popByte_eq_ok.mp hp with ⟨he, rfl, rfl⟩ | ⟨hne, x, hr, rfl, rfl⟩
    · simp [he, eq_comm]
    · cases ht : takeByte x { s with fifoRd := nextIndex s s.fifoRd } with
      | error f => simp [hne, hr, ht]
      | ok q =>
        obtain ⟨code, v⟩ := q
        simp only [hne, hr, ht, false_and, false_or, ne_eq, not_false_eq_true, true_and]
        constructor
        · intro h; cases h; exact ⟨x, code, v, rfl, ht, rfl, rfl⟩
        · rintro ⟨b, code', u', hb, hu, rfl, rfl⟩
          cases hb; rw [ht] at hu; cases hu; rfl

/-- One iteration of a pump: it ends the pump with the count where the FIFO is empty, and goes on otherwise. -/
theorem pumpIteration_eq_next {s t : State} :
    pumpIteration s = .next t ↔
      ∃ r u, receiveByte s = .ok (r, u) ∧
        ((r.status = .none ∧ t = { u with cInPump := false, pumpCount := 0 }.answer (.okValue (wrap32 u.pumpCount)))
          ∨ (r.status ≠ .none ∧ t = { u.noResult with cInPump := true, pumpCount := u.pumpCount + 1 })) := by
  unfold pumpIteration
  cases receiveByte s with
  | error f => simp
  | ok p =>
    obtain ⟨r, u⟩ := p
    by_cases h : r.status = .none
    · simp [h]
    · have h' : ¬ Status.none = r.status := fun e => h e.symm
      simp [h, h', eq_comm]

/-- The four kinds of byte the receiver takes leave these alone: the parameters, the FIFO and everything of the supervisor. -/
theorem takeByte_frame {b : Byte} {s t : State} {code : RxCode} (h : takeByte b s = .ok (code, t)) :
    t.cfg = s.cfg ∧ t.fifoMem = s.fifoMem ∧ t.fifoRd = s.fifoRd ∧ t.fifoWr = s.fifoWr ∧ t.crcAcc = s.crcAcc
      ∧ t.cmdq = s.cmdq ∧ t.duty = s.duty ∧ t.lastCmdTime = s.lastCmdTime ∧ t.fault = s.fault ∧ t.prodEn = s.prodEn
      ∧ t.cInPump = s.cInPump ∧ t.pumpCount = s.pumpCount ∧ t.codec = s.codec ∧ t.inputs = s.inputs
      ∧ t.result = s.result ∧ t.linkOut = s.linkOut ∧ t.agenda = s.agenda := by
  rcases takeByte_eq_ok.mp h with ⟨-, -, -, rfl⟩ | ⟨-, -, frame, -, hv⟩ | ⟨-, -, -, rfl⟩ | ⟨-, -, -, rfl⟩
  · simp
  · rcases validateFrame_cases frame { s with accLen := 0 } with ⟨e, -, h'⟩ | ⟨ch, p, -, h'⟩
    · rw [h'] at hv; cases hv; simp
    · rw [h'] at hv; cases hv; simp
  · simp
  · simp

/-- One iteration of the receiver leaves these alone. -/
theorem receiveByte_frame {s t : State} {r : OpResult} (h : receiveByte s = .ok (r, t)) :
    t.cfg = s.cfg ∧ t.fifoMem = s.fifoMem ∧ t.fifoWr = s.fifoWr ∧ t.crcAcc = s.crcAcc ∧ t.cmdq = s.cmdq
      ∧ t.duty = s.duty ∧ t.lastCmdTime = s.lastCmdTime ∧ t.fault = s.fault ∧ t.prodEn = s.prodEn
      ∧ t.cInPump = s.cInPump ∧ t.pumpCount = s.pumpCount ∧ t.codec = s.codec ∧ t.inputs = s.inputs
      ∧ t.result = s.result ∧ t.linkOut = s.linkOut ∧ t.agenda = s.agenda := by
  rcases receiveByte_eq_ok.mp h with ⟨-, -, rfl⟩ | ⟨-, b, code, u, -, hu, -, rfl⟩
  · simp
  · have := takeByte_frame hu
    simp only at this ⊢
    tauto

end Sys2Proof.Machine
end

