-- ==== Sys2Proof/Laws/Operands.lean ====
section
/-! SUPPORT. Laws of the fractions and of the duty conversion: each operation on fractions is the one on rationals, rounding
to a binary format stays between representable bounds, and a duty never exceeds full scale. -/

namespace Sys2Proof.Machine

/-! ## Fractions as rationals -/

@[simp] theorem Frac.val_ofInt (n : Int) : (Frac.ofInt n).val = n := by simp [Frac.ofInt, Frac.val]

@[simp] theorem Frac.ofInt_den (n : Int) : (Frac.ofInt n).den = 1 := rfl

@[simp] theorem Frac.mul_den (a b : Frac) : (a.mul b).den = a.den * b.den := rfl

@[simp] theorem Frac.add_den (a b : Frac) : (a.add b).den = a.den * b.den := rfl

@[simp] theorem Frac.divNat_den (a : Frac) (n : Nat) : (a.divNat n).den = a.den * n := rfl

@[simp] theorem Frac.val_mul (a b : Frac) : (a.mul b).val = a.val * b.val := by
  simp only [Frac.mul, Frac.val]; push_cast; rw [div_mul_div_comm]

theorem Frac.val_add {a b : Frac} (ha : 0 < a.den) (hb : 0 < b.den) : (a.add b).val = a.val + b.val := by
  have ha' : (a.den : ℚ) ≠ 0 := by positivity
  have hb' : (b.den : ℚ) ≠ 0 := by positivity
  simp only [Frac.add, Frac.val]; push_cast; field_simp

@[simp] theorem Frac.val_divNat (a : Frac) (n : Nat) : (a.divNat n).val = a.val / n := by
  simp only [Frac.divNat, Frac.val]; push_cast; rw [div_div]

theorem Frac.floor_eq (a : Frac) : a.floor = ⌊a.val⌋ := by
  simp only [Frac.floor, Frac.val]; exact (Rat.floor_intCast_div_natCast a.num a.den).symm

theorem Frac.le_iff {a b : Frac} (ha : 0 < a.den) (hb : 0 < b.den) : a.le b = true ↔ a.val ≤ b.val := by
  have ha' : (0 : ℚ) < a.den := by exact_mod_cast ha
  have hb' : (0 : ℚ) < b.den := by exact_mod_cast hb
  simp only [Frac.le, decide_eq_true_eq, Frac.val, div_le_div_iff₀ ha' hb']
  exact_mod_cast Iff.rfl

theorem Frac.val_max {a b : Frac} (ha : 0 < a.den) (hb : 0 < b.den) : (Frac.max a b).val = Max.max a.val b.val := by
  unfold Frac.max
  split
  · next h => exact (max_eq_right ((Frac.le_iff ha hb).mp h)).symm
  · next h => exact (max_eq_left (le_of_lt (not_le.mp fun h' => h ((Frac.le_iff ha hb).mpr h')))).symm

theorem Frac.val_min {a b : Frac} (ha : 0 < a.den) (hb : 0 < b.den) : (Frac.min a b).val = Min.min a.val b.val := by
  unfold Frac.min
  split
  · next h => exact (min_eq_left ((Frac.le_iff ha hb).mp h)).symm
  · next h => exact (min_eq_right (le_of_lt (not_le.mp fun h' => h ((Frac.le_iff ha hb).mpr h')))).symm

theorem Frac.max_den_pos {a b : Frac} (ha : 0 < a.den) (hb : 0 < b.den) : 0 < (Frac.max a b).den := by
  unfold Frac.max; split <;> assumption

theorem Frac.min_den_pos {a b : Frac} (ha : 0 < a.den) (hb : 0 < b.den) : 0 < (Frac.min a b).den := by
  unfold Frac.min; split <;> assumption

theorem Frac.val_abs (a : Frac) : a.abs.val = |a.val| := by
  simp only [Frac.abs, Frac.val, abs_div, Nat.abs_cast]
  congr 1
  rw [Int.natCast_natAbs, Int.cast_abs]

/-- The numerator and the value have the same sign. -/
theorem Frac.num_nonneg_iff {a : Frac} (ha : 0 < a.den) : 0 ≤ a.num ↔ 0 ≤ a.val := by
  have ha' : (0 : ℚ) < a.den := by exact_mod_cast ha
  rw [Frac.val, le_div_iff₀ ha', zero_mul]
  exact_mod_cast Iff.rfl

@[simp] theorem pow2_den_pos (e : Int) : 0 < (pow2 e).den := by cases e <;> simp [pow2]

@[simp] theorem pow2_val (e : Int) : (pow2 e).val = (2 : ℚ) ^ e := by
  cases e with
  | ofNat n => simp [pow2, Frac.val]
  | negSucc n => simp [pow2, Frac.val, zpow_negSucc]

/-! ## Rounding -/

/-- Rounding to the nearest integer does not pass an integer. -/
theorem roundHalfEven_le {a : Frac} (ha : 0 < a.den) {n : Int} (h : a.val ≤ n) : roundHalfEven a ≤ n := by
  have ha' : (0 : ℚ) < a.den := by exact_mod_cast ha
  have hd : (0 : Int) < a.den := by exact_mod_cast ha
  have hn : a.num ≤ n * a.den := by
    have := (div_le_iff₀ ha').mp h
    exact_mod_cast this
  have hf : a.floor ≤ n := by
    have : a.floor * a.den ≤ n * a.den := le_trans (Int.ediv_mul_le a.num (by omega)) hn
    exact le_of_mul_le_mul_right this hd
  unfold roundHalfEven
  simp only
  rcases lt_or_eq_of_le hf with hlt | heq
  · split
    · omega
    · split
      · omega
      · split <;> omega
  · have hr : a.num - a.floor * a.den ≤ 0 := by rw [heq]; omega
    rw [if_pos (by omega)]; omega

theorem le_roundHalfEven {a : Frac} {n : Int} (h : (n : ℚ) ≤ a.val) : n ≤ roundHalfEven a := by
  have : n ≤ a.floor := by rw [Frac.floor_eq]; exact Int.le_floor.mpr h
  unfold roundHalfEven
  simp only
  split
  · omega
  · split
    · omega
    · split <;> omega

/-- The leading exponent of a positive fraction is not above its value. -/
theorem two_zpow_leadingExponent_le {a : Frac} (hn : 0 < a.num) (hd : 0 < a.den) :
    (2 : ℚ) ^ leadingExponent a ≤ a.val := by
  unfold leadingExponent
  simp only
  split
  · next h => simpa using (Frac.le_iff (pow2_den_pos _) hd).mp h
  · have hd' : (0 : ℚ) < a.den := by exact_mod_cast hd
    have h1 : (2 : ℚ) ^ (Nat.log2 a.num.natAbs) ≤ a.num := by
      have : 2 ^ Nat.log2 a.num.natAbs ≤ a.num.natAbs := Nat.log2_self_le (by omega)
      have h' : ((2 ^ Nat.log2 a.num.natAbs : Nat) : Int) ≤ a.num := by omega
      exact_mod_cast h'
    have h2 : (a.den : ℚ) ≤ (2 : ℚ) ^ (Nat.log2 a.den + 1) := by
      have : a.den < 2 ^ (Nat.log2 a.den + 1) := Nat.lt_log2_self
      exact_mod_cast this.le
    have h3 : (2 : ℚ) ^ ((Nat.log2 a.num.natAbs : Int) - Nat.log2 a.den - 1)
        = 2 ^ Nat.log2 a.num.natAbs / 2 ^ (Nat.log2 a.den + 1) := by
      rw [sub_sub, zpow_sub₀ (by norm_num)]
      norm_cast
    rw [h3, Frac.val]
    exact div_le_div₀ (le_trans (by positivity) h1) h1 hd' h2

/-- Rounding to a binary format does not pass a bound `k · 2^j` that the format represents. -/
theorem roundToFormat_bounds {p : Nat} {emin j : Int} {a : Frac} {lo hi : Int} (hd : 0 < a.den) (hj : emin ≤ j)
    (hlo : (lo : ℚ) * 2 ^ j ≤ a.val) (hhi : a.val ≤ hi * 2 ^ j) (hsmall : |a.val| < 2 ^ (j + p)) :
    (lo : ℚ) * 2 ^ j ≤ (roundToFormat p emin a).val ∧ (roundToFormat p emin a).val ≤ hi * 2 ^ j := by
  have hd' : (0 : ℚ) < a.den := by exact_mod_cast hd
  by_cases h0 : a.num = 0
  · have : a.val = 0 := by simp [Frac.val, h0]
    rw [roundToFormat, if_pos h0]
    simpa [this] using And.intro hlo hhi
  · have hle : spacingExponent p emin a ≤ j := by
      have hpos : 0 < a.abs.num := by simp [Frac.abs]; omega
      have h1 := two_zpow_leadingExponent_le hpos (a := a.abs) hd
      rw [Frac.val_abs] at h1
      have h2 : (2 : ℚ) ^ leadingExponent a.abs < 2 ^ (j + p) := lt_of_le_of_lt h1 hsmall
      have h3 := (zpow_lt_zpow_iff_right₀ (by norm_num : (1 : ℚ) < 2)).mp h2
      unfold spacingExponent
      split <;> omega
    obtain ⟨k, hk⟩ : ∃ k : Nat, j = spacingExponent p emin a + k :=
      ⟨(j - spacingExponent p emin a).toNat, by omega⟩
    rw [roundToFormat, if_neg h0]
    simp only [Frac.val_mul, Frac.val_ofInt, pow2_val]
    have he : (0 : ℚ) < 2 ^ spacingExponent p emin a := by positivity
    have hjk : (2 : ℚ) ^ j = 2 ^ k * 2 ^ spacingExponent p emin a := by
      conv_lhs => rw [hk]
      rw [zpow_add₀ (by norm_num), mul_comm]; norm_cast
    have hden : 0 < (a.mul (pow2 (-spacingExponent p emin a))).den := Nat.mul_pos hd (pow2_den_pos _)
    have hval : (a.mul (pow2 (-spacingExponent p emin a))).val = a.val / 2 ^ spacingExponent p emin a := by
      simp [zpow_neg, div_eq_mul_inv]
    constructor
    · have : ((lo * 2 ^ k : Int) : ℚ) ≤ (a.mul (pow2 (-spacingExponent p emin a))).val := by
        rw [hval, le_div_iff₀ he]; push_cast; rw [mul_assoc, ← hjk]; exact hlo
      have := le_roundHalfEven this
      rw [hjk, ← mul_assoc]
      refine mul_le_mul_of_nonneg_right ?_ he.le
      exact_mod_cast this
    · have : (a.mul (pow2 (-spacingExponent p emin a))).val ≤ ((hi * 2 ^ k : Int) : ℚ) := by
        rw [hval, div_le_iff₀ he]; push_cast; rw [mul_assoc, ← hjk]; exact hhi
      have := roundHalfEven_le hden this
      rw [hjk, ← mul_assoc]
      refine mul_le_mul_of_nonneg_right ?_ he.le
      exact_mod_cast this

theorem roundToFormat_den_pos (p : Nat) (emin : Int) (a : Frac) : 0 < (roundToFormat p emin a).den := by
  unfold roundToFormat
  split
  · simp
  · simp

@[simp] theorem inArith_exactRational (a : Frac) : inArith .exactRational a = a := rfl

theorem inArith_den_pos (ar : ThrottleArith) {a : Frac} (h : 0 < a.den) : 0 < (inArith ar a).den := by
  cases ar
  · exact h
  · exact roundToFormat_den_pos _ _ _
  · exact roundToFormat_den_pos _ _ _

/-- In each arithmetic a result stays within bounds `k · 2^j` of at most 24 significant bits. -/
theorem inArith_bounds (ar : ThrottleArith) {j : Int} {a : Frac} {lo hi : Int} (hd : 0 < a.den) (hj : -149 ≤ j)
    (hlo : (lo : ℚ) * 2 ^ j ≤ a.val) (hhi : a.val ≤ hi * 2 ^ j) (hsmall : |a.val| < 2 ^ (j + 24)) :
    (lo : ℚ) * 2 ^ j ≤ (inArith ar a).val ∧ (inArith ar a).val ≤ hi * 2 ^ j := by
  cases ar
  · exact ⟨hlo, hhi⟩
  · exact roundToFormat_bounds hd hj hlo hhi (by exact_mod_cast hsmall)
  · refine roundToFormat_bounds hd (by omega) hlo hhi (lt_of_lt_of_le hsmall ?_)
    exact zpow_le_zpow_right₀ (by norm_num) (by push_cast; omega)

/-- The bounds of `inArith_bounds` that are integers below 2^24. -/
theorem inArith_int_bounds (ar : ThrottleArith) {a : Frac} {lo hi : Int} (hd : 0 < a.den)
    (hlo : (lo : ℚ) ≤ a.val) (hhi : a.val ≤ hi) (h1 : -16777216 < lo) (h2 : hi < 16777216) :
    (lo : ℚ) ≤ (inArith ar a).val ∧ (inArith ar a).val ≤ hi := by
  have h1' : (-16777216 : ℚ) < lo := by exact_mod_cast h1
  have h2' : (hi : ℚ) < 16777216 := by exact_mod_cast h2
  have := inArith_bounds ar (j := 0) hd (by norm_num) (by simpa using hlo) (by simpa using hhi)
    (by rw [abs_lt]; norm_num; constructor <;> linarith)
  simpa using this

/-! ## Well-formed configurations -/

/-- The constraints of a well-formed configuration, one by one (00_scope.md R6, R7). -/
theorem Config_wf_iff (c : Config) : c.wf = true ↔
    2 ≤ c.fifoN ∧ c.fifoN ≤ 65536 ∧ 1 ≤ c.accMax ∧ c.accMax ≤ 65535 ∧ 1 ≤ c.qDepth ∧ c.qDepth ≤ 65535
      ∧ 1 ≤ c.nMot ∧ c.nMot ≤ 32 ∧ c.motors.all c.motorOk = true ∧ 1 ≤ c.pwmFreqHz ∧ 1 ≤ c.dutyResBits
      ∧ c.dutyResBits ≤ 30 ∧ c.wdtT < 2 ^ 32 ∧ 1 ≤ c.waitW ∧ c.crcPoly.getLsbD 0 = true := by
  simp only [Config.wf, List.all_cons, List.all_nil, id_eq, Bool.and_eq_true, decide_eq_true_eq, and_true]

/-- The constraints on each motor of a well-formed configuration. -/
theorem motor_of_wf {c : Config} (h : c.wf = true) {m : Motor} (hm : m ∈ c.motors) :
    m.minUs ≤ m.centerUs ∧ m.centerUs ≤ m.maxUs ∧ m.maxUs * c.pwmFreqHz ≤ 1000000 ∧ m.maxUs ≤ 1000000 := by
  obtain ⟨-, -, -, -, -, -, -, -, hall, hz, -⟩ := (Config_wf_iff c).mp h
  have := List.all_eq_true.mp hall m hm
  simp only [Config.motorOk, Bool.and_eq_true, decide_eq_true_eq] at this
  exact ⟨this.1.1, this.1.2, this.2, le_trans (Nat.le_mul_of_pos_right _ hz) this.2⟩

/-! ## Clamp, map, conversion -/

theorem clampThrottle_bounds {m : Motor} {v : Binary64} {c : Frac} (hv : ∀ q, v = .finite q → 0 < q.den)
    (h : clampThrottle m v = some c) : 0 < c.den ∧ (throttleLow m).val ≤ c.val ∧ c.val ≤ 1 := by
  have hl : (throttleLow m).val ≤ 1 := by simp [throttleLow]; split <;> norm_num
  have hld : 0 < (throttleLow m).den := by simp [throttleLow]
  cases v with
  | nan => cases h
  | inf neg =>
    cases Option.some.inj h
    cases neg
    · simpa using hl
    · simpa using ⟨hld, hl⟩
  | finite q =>
    cases Option.some.inj h
    have hq := hv q rfl
    have hmin : 0 < (Frac.min (Frac.ofInt 1) q).den := Frac.min_den_pos (by simp) hq
    refine ⟨Frac.max_den_pos hld hmin, ?_, ?_⟩
    · rw [Frac.val_max hld hmin]; exact le_max_left _ _
    · rw [Frac.val_max hld hmin, Frac.val_min (by simp) hq]
      refine max_le hl ?_
      simp

theorem binary64_den_pos {v : Word64} {q : Frac} (h : binary64 v = .finite q) : 0 < q.den := by
  unfold binary64 at h
  simp only at h
  split at h
  · split at h <;> cases h
  · split at h
    · cases h; simp
    · cases h; simp

/-- The map's result is a pulse width in `[MIN_US, MAX_US]` (45_motor.md R153), in every arithmetic. -/
theorem mapThrottle_bounds (ar : ThrottleArith) {m : Motor} {c : Frac} (h1 : m.minUs ≤ m.centerUs)
    (h2 : m.centerUs ≤ m.maxUs) (h3 : m.maxUs ≤ 1000000) (hd : 0 < c.den) (hlo : (throttleLow m).val ≤ c.val)
    (hhi : c.val ≤ 1) :
    0 < (mapThrottle ar m c).den ∧ (m.minUs : ℚ) ≤ (mapThrottle ar m c).val
      ∧ (mapThrottle ar m c).val ≤ m.maxUs := by
  -- one linear piece: a factor in [a, b] with a ∈ {−1, 0} and b ∈ {0, 1}, a base and a span
  have piece : ∀ (x : Frac) (a b base span : Int), 0 < x.den → (a : ℚ) ≤ x.val → x.val ≤ b → 0 ≤ span →
      span ≤ 1000000 → 0 ≤ base + a * span → base + b * span ≤ 1000000 → -1 ≤ a → b ≤ 1 →
      0 < (inArith ar ((Frac.ofInt base).add (inArith ar (x.mul (Frac.ofInt span))))).den ∧
      ((base + a * span : Int) : ℚ) ≤ (inArith ar ((Frac.ofInt base).add (inArith ar (x.mul (Frac.ofInt span))))).val ∧
      (inArith ar ((Frac.ofInt base).add (inArith ar (x.mul (Frac.ofInt span))))).val ≤ ((base + b * span : Int) : ℚ) := by
    intro x a b base span hxd ha hb hs0 hs hB0 hB1 ha1 hb1
    have hs' : (0 : ℚ) ≤ span := by exact_mod_cast hs0
    have hmd : 0 < (x.mul (Frac.ofInt span)).den := by simpa using hxd
    have e1 : ((a * span : Int) : ℚ) ≤ (x.mul (Frac.ofInt span)).val := by
      simpa using mul_le_mul_of_nonneg_right ha hs'
    have e2 : (x.mul (Frac.ofInt span)).val ≤ ((b * span : Int) : ℚ) := by
      simpa using mul_le_mul_of_nonneg_right hb hs'
    have g1 : -1000000 ≤ a * span := by nlinarith
    have g2 : b * span ≤ 1000000 := by nlinarith
    obtain ⟨f1, f2⟩ := inArith_int_bounds ar hmd e1 e2 (by omega) (by omega)
    have hyd := inArith_den_pos ar hmd
    have hsum := Frac.val_add (a := Frac.ofInt base) (by simp) hyd
    have hsd : 0 < ((Frac.ofInt base).add (inArith ar (x.mul (Frac.ofInt span)))).den := by simpa using hyd
    have k1 : ((base + a * span : Int) : ℚ) ≤ ((Frac.ofInt base).add (inArith ar (x.mul (Frac.ofInt span)))).val := by
      rw [hsum]; push_cast at f1 ⊢; simpa using f1
    have k2 : ((Frac.ofInt base).add (inArith ar (x.mul (Frac.ofInt span)))).val ≤ ((base + b * span : Int) : ℚ) := by
      rw [hsum]; push_cast at f2 ⊢; simpa using f2
    obtain ⟨r1, r2⟩ := inArith_int_bounds ar hsd k1 k2 (by omega) (by omega)
    exact ⟨inArith_den_pos ar hsd, r1, r2⟩
  have hcd := inArith_den_pos ar hd
  have hlo1 : ((if m.bidir then -1 else 0 : Int) : ℚ) ≤ c.val := by simpa [throttleLow] using hlo
  obtain ⟨c1, c2⟩ := inArith_int_bounds ar (hi := 1) hd hlo1 (by simpa using hhi) (by split <;> norm_num) (by norm_num)
  unfold mapThrottle
  simp only
  cases hb : m.bidir
  · simp only [hb, Bool.false_eq_true, if_false] at c1 ⊢
    have := piece (inArith ar c) 0 1 m.minUs ((m.maxUs : Int) - m.minUs) hcd c1 c2 (by omega) (by omega) (by omega)
      (by omega) (by omega) (by omega)
    refine ⟨this.1, ?_, ?_⟩
    · simpa using this.2.1
    · simpa using this.2.2
  · simp only [hb, if_true] at c1 ⊢
    by_cases hn : 0 ≤ (inArith ar c).num
    · rw [if_pos hn]
      have h0 := (Frac.num_nonneg_iff hcd).mp hn
      have := piece (inArith ar c) 0 1 m.centerUs ((m.maxUs : Int) - m.centerUs) hcd (by simpa using h0) c2 (by omega)
        (by omega) (by omega) (by omega) (by omega) (by omega)
      have h1' : (m.minUs : ℚ) ≤ m.centerUs := by exact_mod_cast h1
      refine ⟨this.1, le_trans h1' (by simpa using this.2.1), by simpa using this.2.2⟩
    · rw [if_neg hn]
      have h0 : (inArith ar c).val ≤ 0 := le_of_lt (not_le.mp fun h => hn ((Frac.num_nonneg_iff hcd).mpr h))
      have := piece (inArith ar c) (-1) 0 m.centerUs ((m.centerUs : Int) - m.minUs) hcd c1 (by simpa using h0) (by omega)
        (by omega) (by omega) (by omega) (by omega) (by omega)
      have h2' : (m.centerUs : ℚ) ≤ m.maxUs := by exact_mod_cast h2
      refine ⟨this.1, by simpa using this.2.1, le_trans (by simpa using this.2.2) h2'⟩

/-- A duty is at most full scale, `2^DUTY_RES_BITS`, in every arithmetic (45_motor.md R154). -/
theorem usToDuty_le {c : Config} {u : Frac} (hd : 0 < u.den) (h0 : 0 ≤ u.val)
    (h1 : u.val * c.pwmFreqHz ≤ 1000000) : usToDuty c u ≤ 2 ^ c.dutyResBits := by
  unfold usToDuty
  simp only
  have hzq : (0 : ℚ) ≤ c.pwmFreqHz := by positivity
  have d1 : 0 < (u.mul (Frac.ofInt c.pwmFreqHz)).den := by simpa using hd
  obtain ⟨a1, a2⟩ := inArith_int_bounds c.throttleArith (lo := 0) (hi := 1000000) d1
    (by simpa using mul_nonneg h0 hzq) (by simpa using h1) (by norm_num) (by norm_num)
  have d1' := inArith_den_pos c.throttleArith d1
  generalize inArith c.throttleArith (u.mul (Frac.ofInt c.pwmFreqHz)) = x at a1 a2 d1' ⊢
  have hP : (0 : ℚ) < 2 ^ c.dutyResBits := by positivity
  have d2 : 0 < (x.mul (Frac.ofInt (2 ^ c.dutyResBits))).den := by simpa using d1'
  have v2 : (x.mul (Frac.ofInt (2 ^ c.dutyResBits))).val = x.val * 2 ^ c.dutyResBits := by simp
  have b1 : (0 : ℚ) ≤ x.val * 2 ^ c.dutyResBits := mul_nonneg (by simpa using a1) hP.le
  have b2 : x.val * 2 ^ c.dutyResBits ≤ 1000000 * 2 ^ c.dutyResBits :=
    mul_le_mul_of_nonneg_right (by simpa using a2) hP.le
  have hsplit : ∀ r : Nat, (2 : ℚ) ^ ((c.dutyResBits : Int) + (r : Int)) = 2 ^ c.dutyResBits * 2 ^ r := by
    intro r; rw [zpow_add₀ (by norm_num)]; norm_cast
  obtain ⟨e1, e2⟩ := inArith_bounds c.throttleArith (j := c.dutyResBits) (lo := 0) (hi := 1000000) d2 (by omega)
    (by rw [v2]; simpa using b1) (by rw [v2]; simpa using b2)
    (by rw [v2, abs_of_nonneg b1, show ((24 : Int)) = ((24 : Nat) : Int) from rfl, hsplit]
        nlinarith [hP])
  have d2' := inArith_den_pos c.throttleArith d2
  generalize inArith c.throttleArith (x.mul (Frac.ofInt (2 ^ c.dutyResBits))) = y at e1 e2 d2' ⊢
  have d3 : 0 < (y.divNat 1000000).den := by simpa using d2'
  have v3 : (y.divNat 1000000).val = y.val / 1000000 := by simp
  have f1 : (0 : ℚ) ≤ y.val / 1000000 := by
    have : (0 : ℚ) ≤ y.val := by simpa using e1
    positivity
  have f2 : y.val / 1000000 ≤ 2 ^ c.dutyResBits := by
    rw [div_le_iff₀ (by norm_num)]
    have : y.val ≤ 1000000 * 2 ^ c.dutyResBits := by simpa using e2
    linarith
  obtain ⟨-, g2⟩ := inArith_bounds c.throttleArith (j := c.dutyResBits) (lo := 0) (hi := 1) d3 (by omega)
    (by rw [v3]; simpa using f1) (by rw [v3]; simpa using f2)
    (by rw [v3, abs_of_nonneg f1, show ((24 : Int)) = ((24 : Nat) : Int) from rfl, hsplit]
        nlinarith [hP])
  have g3 : (inArith c.throttleArith (y.divNat 1000000)).val ≤ ((2 ^ c.dutyResBits : Nat) : ℚ) := by
    push_cast; simpa using g2
  have hfl : (inArith c.throttleArith (y.divNat 1000000)).floor ≤ ((2 ^ c.dutyResBits : Nat) : Int) := by
    rw [Frac.floor_eq]
    exact Int.floor_le_iff.mpr (lt_of_le_of_lt g3 (by push_cast; linarith))
  generalize (inArith c.throttleArith (y.divNat 1000000)).floor = d at hfl ⊢
  exact Int.toNat_le.mpr hfl

end Sys2Proof.Machine
end

