-- ==== Sys2Proof/Laws/Motor.lean ====
section
/-! SUPPORT. Laws of the supervisor: what a driver rule, an entry, the watchdog and one supervisor iteration can do. -/

namespace Sys2Proof.Machine

/-- A driver rule rejects with `DUTY_REJ` and writes nothing, or writes one duty. -/
theorem driveThrottle_cases (i : Nat) (m : Motor) (v : Word64) (s : State) :
    (clampThrottle m (binary64 v) = none ∧ driveThrottle i m v s = (.nonePlain, s.raise .dutyRej))
    ∨ (∃ c, clampThrottle m (binary64 v) = some c
        ∧ driveThrottle i m v s = (.okValue (usToDuty s.cfg (mapThrottle s.cfg.throttleArith m c)),
            setDuty s i (usToDuty s.cfg (mapThrottle s.cfg.throttleArith m c)))) := by
  unfold driveThrottle
  cases clampThrottle m (binary64 v) with
  | none => exact .inl ⟨rfl, rfl⟩
  | some c => exact .inr ⟨c, rfl, rfl⟩

/-- The raw rule rejects with `DUTY_REJ` and writes nothing, or writes one duty. -/
theorem drivePulse_cases (i : Nat) (m : Motor) (us : Int) (s : State) :
    ((us < m.minUs ∨ (m.maxUs : Int) < us) ∧ drivePulse i m us s = (.nonePlain, s.raise .dutyRej))
    ∨ ((m.minUs : Int) ≤ us ∧ us ≤ m.maxUs
        ∧ drivePulse i m us s = (.okValue (usToDuty s.cfg (Frac.ofInt us)),
            setDuty s i (usToDuty s.cfg (Frac.ofInt us)))) := by
  unfold drivePulse
  by_cases h : us < m.minUs ∨ (m.maxUs : Int) < us
  · exact .inl ⟨h, if_pos h⟩
  · exact .inr ⟨by omega, by omega, if_neg h⟩

/-- The duty SET_THROTTLE writes is at most full scale. -/
theorem throttleDuty_le {c : Config} (hwf : c.wf = true) {m : Motor} (hm : m ∈ c.motors) {v : Word64} {q : Frac}
    (h : clampThrottle m (binary64 v) = some q) :
    usToDuty c (mapThrottle c.throttleArith m q) ≤ 2 ^ c.dutyResBits := by
  obtain ⟨h1, h2, h3, h4⟩ := motor_of_wf hwf hm
  obtain ⟨hd, hlo, hhi⟩ := clampThrottle_bounds (fun q hq => binary64_den_pos hq) h
  obtain ⟨hd', hlo', hhi'⟩ := mapThrottle_bounds c.throttleArith h1 h2 h4 hd hlo hhi
  have hz : (0 : ℚ) ≤ c.pwmFreqHz := by positivity
  have h3' : (m.maxUs : ℚ) * c.pwmFreqHz ≤ 1000000 := by exact_mod_cast h3
  exact usToDuty_le hd' (le_trans (by positivity) hlo') (le_trans (mul_le_mul_of_nonneg_right hhi' hz) h3')

/-- The duty of a pulse width in the motor's range is at most full scale. -/
theorem pulseDuty_le {c : Config} (hwf : c.wf = true) {m : Motor} (hm : m ∈ c.motors) {us : Int}
    (hlo : (m.minUs : Int) ≤ us) (hhi : us ≤ m.maxUs) : usToDuty c (Frac.ofInt us) ≤ 2 ^ c.dutyResBits := by
  obtain ⟨-, -, h3, -⟩ := motor_of_wf hwf hm
  have hz : (0 : ℚ) ≤ c.pwmFreqHz := by positivity
  have h0 : (0 : ℚ) ≤ us := by
    have : (0 : Int) ≤ us := by omega
    exact_mod_cast this
  have hu : (us : ℚ) ≤ m.maxUs := by exact_mod_cast hhi
  have h3' : (m.maxUs : ℚ) * c.pwmFreqHz ≤ 1000000 := by exact_mod_cast h3
  refine usToDuty_le (by simp) (by simpa using h0) ?_
  simpa using le_trans (mul_le_mul_of_nonneg_right hu hz) h3'

/-- Every neutral duty is at most full scale. -/
theorem neutralDuties_le {c : Config} (hwf : c.wf = true) {d : Nat} (h : d ∈ neutralDuties c) :
    d ≤ 2 ^ c.dutyResBits := by
  obtain ⟨m, hm, rfl⟩ := List.mem_map.mp h
  obtain ⟨h1, h2, -, -⟩ := motor_of_wf hwf hm
  refine pulseDuty_le hwf hm ?_ ?_
  · unfold neutralUs; split <;> omega
  · unfold neutralUs; split <;> omega

@[simp] theorem neutralDuties_length (c : Config) : (neutralDuties c).length = c.nMot := by
  simp [neutralDuties, Config.nMot]

/-- A key addresses the motor whose index it is above `KEY_BASE`, when there is one. -/
theorem motorOfKey_eq_some {c : Config} {key : Word64} {i : Nat} {m : Motor} :
    motorOfKey c key = some (i, m) ↔ key.toInt - c.keyBase = i ∧ c.motors[i]? = some m := by
  unfold motorOfKey
  simp only
  by_cases h : key.toInt - c.keyBase < 0
  · rw [if_pos h]
    constructor
    · intro h'; cases h'
    · rintro ⟨h', -⟩; omega
  · rw [if_neg h]
    simp only [Option.map_eq_some_iff, Prod.mk.injEq]
    constructor
    · rintro ⟨m', hm, hi, rfl⟩
      subst hi
      exact ⟨by omega, hm⟩
    · rintro ⟨hi, hm⟩
      have : (key.toInt - c.keyBase).toNat = i := by omega
      exact ⟨m, by rw [this]; exact hm, this, rfl⟩

/-- A driver operation on a motor: rejected with `DUTY_REJ`, or one duty of at most full scale written. -/
theorem driveValue_cases {s : State} (hwf : s.cfg.wf = true) {i : Nat} {m : Motor} (hm : m ∈ s.cfg.motors) (v : Word64) :
    (driveValue i m v s = (.nonePlain, s.raise .dutyRej))
    ∨ (∃ d, d ≤ 2 ^ s.cfg.dutyResBits ∧ driveValue i m v s = (.okValue d, setDuty s i d)) := by
  unfold driveValue
  cases s.cfg.cmdMode with
  | throttle =>
    rcases driveThrottle_cases i m v s with ⟨-, h⟩ | ⟨c, hc, h⟩
    · exact .inl h
    · exact .inr ⟨_, throttleDuty_le hwf hm hc, h⟩
  | rawUs =>
    rcases drivePulse_cases i m v.toInt s with ⟨-, h⟩ | ⟨h1, h2, h⟩
    · exact .inl h
    · exact .inr ⟨_, pulseDuty_le hwf hm h1 h2, h⟩

/-- An entry is ignored, or rejected with `DUTY_REJ`, or writes one duty and refreshes the last command time. -/
theorem applyEntry_cases {s : State} (hwf : s.cfg.wf = true) (e : Entry) :
    applyEntry e s = s ∨ applyEntry e s = s.raise .dutyRej
    ∨ (∃ i d, i < s.cfg.nMot ∧ d ≤ 2 ^ s.cfg.dutyResBits
        ∧ applyEntry e s = { setDuty s i d with lastCmdTime := s.inputs.now }) := by
  unfold applyEntry
  cases hk : motorOfKey s.cfg e.key with
  | none => exact .inl rfl
  | some p =>
    obtain ⟨i, m⟩ := p
    have hm := (motorOfKey_eq_some.mp hk).2
    rcases driveValue_cases hwf (i := i) (List.mem_of_getElem? hm) e.value with h | ⟨d, hd, h⟩
    · refine .inr (.inl ?_); simp [h, OpResult.nonePlain]
    · refine .inr (.inr ⟨i, d, ?_, hd, ?_⟩)
      · exact (List.getElem?_eq_some_iff.mp hm).1
      · simp [h, OpResult.okValue]

/-- The watchdog trips, every duty going to neutral, or changes nothing. -/
theorem wdtCheck_cases (s : State) :
    (wdtExpired s = true ∧ wdtCheck s = (true, { neutralise s with lastCmdTime := s.inputs.now }.raise .wdtTrip))
    ∨ (wdtExpired s = false ∧ wdtCheck s = (false, s)) := by
  unfold wdtCheck
  cases h : wdtExpired s
  · exact .inr ⟨rfl, rfl⟩
  · exact .inl ⟨rfl, rfl⟩

/-- What the supervisor's iteration leaves alone, whatever its entries: all but the duties, the last command time, the
queue and the counters. -/
structure SupervisorFrame (s t : State) : Prop where
  eq : t = { s with duty := t.duty, lastCmdTime := t.lastCmdTime, cnt := t.cnt, cmdq := t.cmdq }

theorem applyEntry_frame (e : Entry) (s : State) :
    applyEntry e s = { s with duty := (applyEntry e s).duty, lastCmdTime := (applyEntry e s).lastCmdTime
                              cnt := (applyEntry e s).cnt } := by
  unfold applyEntry
  cases hk : motorOfKey s.cfg e.key with
  | none => rfl
  | some p =>
    obtain ⟨i, m⟩ := p
    have hd : ∃ r u, driveValue i m e.value s = (r, u) ∧ (u = s.raise .dutyRej ∨ ∃ d, u = setDuty s i d) := by
      unfold driveValue
      cases s.cfg.cmdMode with
      | throttle =>
        rcases driveThrottle_cases i m e.value s with ⟨-, h⟩ | ⟨c, -, h⟩
        · exact ⟨_, _, h, .inl rfl⟩
        · exact ⟨_, _, h, .inr ⟨_, rfl⟩⟩
      | rawUs =>
        rcases drivePulse_cases i m e.value.toInt s with ⟨-, h⟩ | ⟨-, -, h⟩
        · exact ⟨_, _, h, .inl rfl⟩
        · exact ⟨_, _, h, .inr ⟨_, rfl⟩⟩
    obtain ⟨r, u, hu, rfl | ⟨d, rfl⟩⟩ := hd
    · simp only [hu]; split <;> rfl
    · simp only [hu]; split <;> rfl

theorem applyEntries_frame (es : CommandSet) (s : State) :
    applyEntries es s = { s with duty := (applyEntries es s).duty, lastCmdTime := (applyEntries es s).lastCmdTime
                                 cnt := (applyEntries es s).cnt } := by
  induction es generalizing s with
  | nil => rfl
  | cons e es ih =>
    have h1 := applyEntry_frame e s
    have h2 := ih (applyEntry e s)
    simp only [applyEntries]
    rw [h2]
    generalize (applyEntries es (applyEntry e s)) = t at *
    rw [h1]

theorem wdtCheck_frame (s : State) :
    (wdtCheck s).2 = { s with duty := (wdtCheck s).2.duty, lastCmdTime := (wdtCheck s).2.lastCmdTime
                              cnt := (wdtCheck s).2.cnt } := by
  rcases wdtCheck_cases s with ⟨-, h⟩ | ⟨-, h⟩
  · rw [h]; rfl
  · rw [h]

/-- One supervisor iteration changes nothing but the duties, the last command time, the counters and the queue. -/
theorem supervise_frame (s : State) : SupervisorFrame s (supervise s).2 := by
  constructor
  unfold supervise
  cases s.cmdq with
  | nil => simp only [supervisorIdle]; rw [wdtCheck_frame s]
  | cons cs rest =>
    simp only [supervisorCommand]
    have h1 := applyEntries_frame cs { s with cmdq := rest }
    split
    · have h2 := wdtCheck_frame (applyEntries cs { s with cmdq := rest })
      rw [h2]; generalize (wdtCheck (applyEntries cs { s with cmdq := rest })).2 = t at *
      rw [h1]
    · rw [h1]

end Sys2Proof.Machine
end

