-- ==== Sys2Proof/Laws/Schedule.lean ====
section
/-! SUPPORT. Laws of the schedule: what one step of the machine can be. -/

namespace Sys2Proof.Machine

@[simp] theorem step_eq (s : State) : step s = nextStep s := rfl

/-- Where a step answers a next state, the configuration is well-formed, no fault has been taken, and the step is the next
entry of the schedule or, with none, the unscheduled one. -/
theorem step_next {s t : State} (h : step s = .next t) :
    s.cfg.wf = true ∧ s.fault = none ∧
      ((∃ a rest, s.agenda = a :: rest ∧ act a { s with agenda := rest } = .next t)
        ∨ (s.agenda = [] ∧ actUnscheduled s = .next t)) := by
  rw [step_eq] at h
  unfold nextStep at h
  split at h
  · next hwf =>
    refine ⟨hwf, ?_⟩
    split at h
    · cases h
    · next hf ha => exact ⟨hf, .inl ⟨_, _, ha, h⟩⟩
    · next hf ha => exact ⟨hf, .inr ⟨ha, h⟩⟩
  · cases h

/-- A step takes the first entry of the schedule. -/
theorem step_cons {s : State} {a : Action} {rest : List Action} (hwf : s.cfg.wf = true) (hf : s.fault = none)
    (ha : s.agenda = a :: rest) : step s = act a { s with agenda := rest } := by
  rw [step_eq, nextStep, if_pos hwf, hf, ha]

/-- A step with an empty schedule. -/
theorem step_nil {s : State} (hwf : s.cfg.wf = true) (hf : s.fault = none) (ha : s.agenda = []) :
    step s = actUnscheduled s := by
  rw [step_eq, nextStep, if_pos hwf, hf, ha]

/-- A command that decodes, of an agent that has steps, is executed. -/
theorem issueCommand_ok {c : Command} {i : Instr} {s : State} (he : agentEnabled s c.inputs.issuer = true)
    (hd : decodeCommand c.word c.data = .ok i) : issueCommand c s = exec i { s with inputs := c.inputs } := by
  rw [issueCommand, if_pos he, runDecoded]
  simp only [decode, hd]

/-- A command that does not decode, of an agent that has steps, is `ILLEGAL`. -/
theorem issueCommand_error {c : Command} {why : Illegal} {s : State} (he : agentEnabled s c.inputs.issuer = true)
    (hd : decodeCommand c.word c.data = .error why) :
    issueCommand c s = illegal { s with inputs := c.inputs } := by
  rw [issueCommand, if_pos he, runDecoded]
  simp only [decode, hd]

/-- A command answers a next state by executing what it decodes to, or as `ILLEGAL`. -/
theorem issueCommand_next {c : Command} {s t : State} (h : issueCommand c s = .next t) :
    agentEnabled s c.inputs.issuer = true ∧
      ((∃ i, decodeCommand c.word c.data = .ok i ∧ exec i { s with inputs := c.inputs } = .next t)
        ∨ (∃ why, decodeCommand c.word c.data = .error why ∧ t = ({ s with inputs := c.inputs } : State).answer .illegal)) := by
  by_cases he : agentEnabled s c.inputs.issuer = true
  · refine ⟨he, ?_⟩
    cases hd : decodeCommand c.word c.data with
    | ok i => rw [issueCommand_ok he hd] at h; exact .inl ⟨i, rfl, h⟩
    | error why =>
      rw [issueCommand_error he hd] at h
      exact .inr ⟨why, rfl, by simpa [illegal] using h⟩
  · rw [issueCommand, if_neg he] at h; cases h

end Sys2Proof.Machine
end

