-- ==== Sys2Proof/Laws/Invariant.lean ====
section
/-! SUPPORT. Laws for proofs about the invariant: which fields it reads, and what the codec and a driver operation answer. -/

namespace Sys2Proof.Machine

/-- The invariant reads only these fields. -/
theorem Inv.congr {s t : State} (hi : Inv s) (h1 : t.cfg = s.cfg) (h2 : t.fifoMem = s.fifoMem)
    (h3 : t.fifoRd = s.fifoRd) (h4 : t.fifoWr = s.fifoWr) (h5 : t.accMem = s.accMem) (h6 : t.accLen = s.accLen)
    (h7 : t.cmdq = s.cmdq) (h8 : t.duty = s.duty) (h9 : t.cInPump = s.cInPump) (h10 : t.pumpCount = s.pumpCount) :
    Inv t := by
  have hl : fifoLevel t = fifoLevel s := by unfold fifoLevel; rw [h1, h3, h4]
  have hp : ∀ j, pendingSlot t j = pendingSlot s j := by intro j; unfold pendingSlot; rw [h1, h3]
  obtain ⟨a1, a2, a3, a4, a5, a6, a7, a8, a9, a10, a11, a12, a13, a14⟩ := hi
  constructor <;> simp_all

/-- The reset state's storage has its canonical form. -/
theorem reset_storage_wf : Memory.wf State.reset.fifoMem = true ∧ Memory.wf State.reset.accMem = true := ⟨rfl, rfl⟩

/-- What follows a run of the codec is always a next state, in which only the codec and the result have changed. -/
theorem codecAfter_eq_next (s : State) (c : Option Codec) :
    ∃ d r, codecAfter s c = .next { s with codec := d, result := r } := by
  unfold codecAfter
  split
  · exact ⟨_, _, rfl⟩
  · split <;> exact ⟨_, _, rfl⟩

/-- A driver operation on a motor that is there: its rule for S, `fault(WRONG_AGENT)` for any other agent. -/
theorem withMotor_some {i : Byte} {m : Motor} {op : Nat → Motor → State → OpResult × State} {s : State}
    (h : s.cfg.motors[i.toNat]? = some m) :
    withMotor i op s
      = if s.inputs.issuer = .supervisor then answer (op i.toNat m s).1 (op i.toNat m s).2
        else takeFault .wrongAgent s := by
  simp only [withMotor, h]; rfl

/-- A driver operation on a motor that is not there is `ILLEGAL`. -/
theorem withMotor_none {i : Byte} {op : Nat → Motor → State → OpResult × State} {s : State}
    (h : s.cfg.motors[i.toNat]? = none) : withMotor i op s = illegal s := by
  simp only [withMotor, h]

/-- One iteration of the receiver does the same whatever the pump's own fields hold, and leaves them. -/
theorem receiveByte_pump_fields {s t : State} {r : OpResult} (p : Bool) (n : Nat) (h : receiveByte s = .ok (r, t)) :
    receiveByte { s with cInPump := p, pumpCount := n } = .ok (r, { t with cInPump := p, pumpCount := n }) := by
  rcases receiveByte_eq_ok.mp h with ⟨h1, rfl, rfl⟩ | ⟨h1, b, code, u, h2, h3, rfl, rfl⟩
  · exact receiveByte_eq_ok.mpr (.inl ⟨h1, rfl, rfl⟩)
  · refine receiveByte_eq_ok.mpr (.inr ⟨h1, b, code, { u with cInPump := p, pumpCount := n }, h2, ?_, rfl, rfl⟩)
    rcases takeByte_eq_ok.mp h3 with ⟨a1, a2, rfl, rfl⟩ | ⟨a1, a2, f, a3, a4⟩ | ⟨a1, a2, rfl, rfl⟩ | ⟨a1, a2, rfl, rfl⟩
    · exact takeByte_eq_ok.mpr (.inl ⟨a1, a2, rfl, rfl⟩)
    · refine takeByte_eq_ok.mpr (.inr (.inl ⟨a1, a2, f, a3, ?_⟩))
      unfold validateFrame at a4 ⊢
      simp only at a4 ⊢
      split at a4 <;> · cases a4; rfl
    · exact takeByte_eq_ok.mpr (.inr (.inr (.inl ⟨a1, a2, rfl, rfl⟩)))
    · exact takeByte_eq_ok.mpr (.inr (.inr (.inr ⟨a1, a2, rfl, rfl⟩)))

end Sys2Proof.Machine
end

