-- ==== Sys2Proof/Laws/Link.lean ====
section
/-! SUPPORT. Laws of a frame arriving over the link: what a run of a schedule and a sequence of taken bytes are, piece by
piece, and the accumulated bytes as the frame the receiver reads. -/

namespace Sys2Proof.Machine

@[simp] theorem runAll_nil (s : State) : runAll [] s = .next s := rfl

/-- A run goes on from the state its first step answers. -/
theorem runAll_cons {a : Action} {rest : List Action} {s t : State}
    (h : step { s with agenda := a :: rest } = .next t) : runAll (a :: rest) s = runAll rest t := by
  rw [runAll, h]

@[simp] theorem receiveAll_nil (s : State) : receiveAll [] s = .ok s := rfl

/-- The bytes after the first are taken in the state it leaves, the sink having returned. -/
theorem receiveAll_cons {b : Byte} {bs : List Byte} {s t : State} {code : RxCode} (h : takeByte b s = .ok (code, t)) :
    receiveAll (b :: bs) s = receiveAll bs { t with sinkBusy := false } := by
  rw [receiveAll, h]

/-- A sequence of bytes is taken in pieces. -/
theorem receiveAll_append : ∀ (a b : List Byte) {s t : State}, receiveAll a s = .ok t →
    receiveAll (a ++ b) s = receiveAll b t
  | [], _, _, _, h => by cases h; rfl
  | x :: a, b, s, t, h => by
    cases hx : takeByte x s with
    | error f => rw [receiveAll, hx] at h; cases h
    | ok p =>
      obtain ⟨code, u⟩ := p
      rw [receiveAll_cons hx] at h
      rw [List.cons_append, receiveAll_cons hx]
      exact receiveAll_append a b h

/-- What a byte does to the receiver depends on these fields alone, and so do these fields after it. -/
theorem takeByte_congr {s s' t : State} {b : Byte} {code : RxCode} (h1 : s'.cfg = s.cfg) (h2 : s'.accMem = s.accMem)
    (h3 : s'.accLen = s.accLen) (h4 : s'.cnt = s.cnt) (h5 : s'.msgOut = s.msgOut) (ht : takeByte b s = .ok (code, t)) :
    ∃ t', takeByte b s' = .ok (code, t') ∧ t'.cfg = t.cfg ∧ t'.accMem = t.accMem ∧ t'.accLen = t.accLen
      ∧ t'.cnt = t.cnt ∧ t'.msgOut = t.msgOut := by
  rcases takeByte_eq_ok.mp ht with ⟨hb, h0, rfl, rfl⟩ | ⟨hb, h0, frame, hr, hv⟩ | ⟨hb, hm, rfl, rfl⟩ | ⟨hb, hm, rfl, rfl⟩
  · exact ⟨s', takeByte_eq_ok.mpr (.inl ⟨hb, h3 ▸ h0, rfl, rfl⟩), h1, h2, h3, h4, h5⟩
  · have hr' : Memory.readRange s'.accMem 0 s'.accLen = some frame := by rw [h2, h3]; exact hr
    have hk : ∀ code' t', (code', t') = validateFrame frame { s' with accLen := 0 } →
        takeByte b s' = .ok (code', t') := fun code' t' h =>
      takeByte_eq_ok.mpr (.inr (.inl ⟨hb, h3 ▸ h0, frame, hr', h⟩))
    rcases validateFrame_cases frame { s with accLen := 0 } with ⟨e, hj, h'⟩ | ⟨ch, p, hj, h'⟩ <;>
    · rw [h'] at hv
      cases hv
      refine ⟨_, hk _ _ (by simp only [validateFrame, h1]; simp only at hj; rw [hj]), ?_⟩
      simp [deliver, State.raise, h2, h4, h5]
  · exact ⟨_, takeByte_eq_ok.mpr (.inr (.inr (.inl ⟨hb, by rw [h3, h1]; exact hm, rfl, rfl⟩))),
      by simp [State.raise, h1, h2, h4, h5]⟩
  · exact ⟨_, takeByte_eq_ok.mpr (.inr (.inr (.inr ⟨hb, by rw [h3, h1]; exact hm, rfl, rfl⟩))),
      by simp [h1, h2, h3, h4, h5]⟩

theorem endedFrame_idle {s : State} (h : s.accLen = 0) : endedFrame s = s := if_pos h

theorem endedFrame_accumulating {s : State} (h : s.accLen ≠ 0) :
    endedFrame s = (validateFrame (accumulatedBytes s) s).2 := if_neg h

/-- In a state of the invariant the frame the receiver reads at a delimiter is the accumulated bytes. -/
theorem readRange_accumulatedBytes {s : State} (hi : Inv s) :
    Memory.readRange s.accMem 0 s.accLen = some (accumulatedBytes s) := by
  have key : ∀ n, n ≤ s.accLen →
      Memory.readRange s.accMem 0 n = some ((List.range n).filterMap fun a => Memory.read s.accMem a) := by
    intro n
    induction n with
    | zero => intro _; rfl
    | succ n ih =>
      intro hn
      obtain ⟨hlen, hget⟩ := Memory.readRange_eq_some.mp (ih (by omega))
      obtain ⟨x, hx, -⟩ := hi.accFilled n (by omega)
      rw [List.range_succ, List.filterMap_append]
      simp only [List.filterMap_cons, hx, List.filterMap_nil]
      refine Memory.readRange_eq_some.mpr ⟨by simp [hlen], fun j hj => ?_⟩
      by_cases hjn : j = n
      · subst hjn
        rw [List.getElem?_append_right (by omega), hlen]
        simp [hx]
      · rw [List.getElem?_append_left (by omega)]
        exact hget j (by omega)
  exact key _ le_rfl

end Sys2Proof.Machine
end

