-- ==== Sys2Proof/Laws/PerInstr.lean ====
section
/-! SUPPORT. The per-instruction family `EncodesInItsRow`: what an instruction is encoded as has the fixed bits of that
instruction's row of spec/opcode_table.json, and a code byte is of that instruction's class. -/

namespace Sys2Proof.Laws

/-- A packed word belongs to a row exactly when each of its fields does. -/
theorem matchesWord_packWord (m : String) (o a o' a' ok ak : Byte) (l l' lk : BitVec 16) :
    TableRow.matchesWord ⟨m, packWord o' a' l', packWord ok ak lk⟩ (packWord o a l) = true
      ↔ o &&& ok = o' ∧ a &&& ak = a' ∧ l &&& lk = l' := by
  rw [TableRow.matchesWord, decide_eq_true_eq, packWord_and]
  constructor
  · intro h
    exact ⟨by simpa using congrArg opcOf h, by simpa using congrArg a8Of h, by simpa using congrArg l16Of h⟩
  · rintro ⟨rfl, rfl, rfl⟩; rfl

/-- An instruction whose operands fit the encoding is encoded as a word of its own row, or as a code byte of its own
class (30_encoding.md R73, R77). -/
def EncodesInItsRow.Statement (i : Instr) : Prop :=
  i.encodable = true →
    match encode i with
    | .command w _ => ∃ r, r ∈ commandRows ∧ r.mnemonic = i.mnemonic ∧ r.matchesWord w = true
    | .code c => decodeCode c = i

theorem EncodesInItsRow.crc8Init : EncodesInItsRow.Statement .crc8Init := fun _ =>
  ⟨⟨"CRC8_INIT", packWord 0x01#8 0#8 0#16, packWord 0xFF#8 0xFF#8 0xFFFF#16⟩, by decide, rfl,
    (matchesWord_packWord ..).mpr (by simp)⟩

theorem EncodesInItsRow.crc8Step (b : Byte) : EncodesInItsRow.Statement (.crc8Step b) := fun _ =>
  ⟨⟨"CRC8_STEP", packWord 0x02#8 0#8 0#16, packWord 0xFF#8 0x00#8 0xFFFF#16⟩, by decide, rfl,
    (matchesWord_packWord ..).mpr (by simp)⟩

theorem EncodesInItsRow.crc8 (s : List Byte) : EncodesInItsRow.Statement (.crc8 s) := fun _ =>
  ⟨⟨"CRC8", packWord 0x03#8 0#8 0#16, packWord 0xFF#8 0xFF#8 0x0000#16⟩, by decide, rfl,
    (matchesWord_packWord ..).mpr (by simp)⟩

theorem EncodesInItsRow.crc8Check (s : List Byte) : EncodesInItsRow.Statement (.crc8Check s) := fun _ =>
  ⟨⟨"CRC8_CHECK", packWord 0x04#8 0#8 0#16, packWord 0xFF#8 0xFF#8 0x0000#16⟩, by decide, rfl,
    (matchesWord_packWord ..).mpr (by simp)⟩

theorem EncodesInItsRow.cobsEnc (s : List Byte) : EncodesInItsRow.Statement (.cobsEnc s) := fun _ =>
  ⟨⟨"COBS_ENC", packWord 0x10#8 0#8 0#16, packWord 0xFF#8 0xFF#8 0x0000#16⟩, by decide, rfl,
    (matchesWord_packWord ..).mpr (by simp)⟩

theorem EncodesInItsRow.cobsDec (f : List Byte) : EncodesInItsRow.Statement (.cobsDec f) := fun _ =>
  ⟨⟨"COBS_DEC", packWord 0x11#8 0#8 0#16, packWord 0xFF#8 0xFF#8 0x0000#16⟩, by decide, rfl,
    (matchesWord_packWord ..).mpr (by simp)⟩

theorem EncodesInItsRow.fifoPush (b : Byte) : EncodesInItsRow.Statement (.fifoPush b) := fun _ =>
  ⟨⟨"FIFO_PUSH", packWord 0x20#8 0#8 0#16, packWord 0xFF#8 0x00#8 0xFFFF#16⟩, by decide, rfl,
    (matchesWord_packWord ..).mpr (by simp)⟩

theorem EncodesInItsRow.fifoPop : EncodesInItsRow.Statement .fifoPop := fun _ =>
  ⟨⟨"FIFO_POP", packWord 0x21#8 0#8 0#16, packWord 0xFF#8 0xFF#8 0xFFFF#16⟩, by decide, rfl,
    (matchesWord_packWord ..).mpr (by simp)⟩

theorem EncodesInItsRow.fifoClear : EncodesInItsRow.Statement .fifoClear := fun _ =>
  ⟨⟨"FIFO_CLEAR", packWord 0x22#8 0#8 0#16, packWord 0xFF#8 0xFF#8 0xFFFF#16⟩, by decide, rfl,
    (matchesWord_packWord ..).mpr (by simp)⟩

theorem EncodesInItsRow.fifoLevel : EncodesInItsRow.Statement .fifoLevel := fun _ =>
  ⟨⟨"FIFO_LEVEL", packWord 0x23#8 0#8 0#16, packWord 0xFF#8 0xFF#8 0xFFFF#16⟩, by decide, rfl,
    (matchesWord_packWord ..).mpr (by simp)⟩

theorem EncodesInItsRow.rxStep : EncodesInItsRow.Statement .rxStep := fun _ =>
  ⟨⟨"RX_STEP", packWord 0x30#8 0#8 0#16, packWord 0xFF#8 0xFF#8 0xFFFF#16⟩, by decide, rfl,
    (matchesWord_packWord ..).mpr (by simp)⟩

theorem EncodesInItsRow.rxPump : EncodesInItsRow.Statement .rxPump := fun _ =>
  ⟨⟨"RX_PUMP", packWord 0x31#8 0#8 0#16, packWord 0xFF#8 0xFF#8 0xFFFF#16⟩, by decide, rfl,
    (matchesWord_packWord ..).mpr (by simp)⟩

theorem EncodesInItsRow.txFrame (ch : Byte) (payload : List Byte) : EncodesInItsRow.Statement (.txFrame ch payload) := fun _ =>
  ⟨⟨"TX_FRAME", packWord 0x32#8 0#8 0#16, packWord 0xFF#8 0x00#8 0x0000#16⟩, by decide, rfl,
    (matchesWord_packWord ..).mpr (by simp)⟩

theorem EncodesInItsRow.cmdEnq (cs : CommandSet) : EncodesInItsRow.Statement (.cmdEnq cs) := fun _ =>
  ⟨⟨"CMD_ENQ", packWord 0x40#8 0#8 0#16, packWord 0xFF#8 0xFF#8 0x0000#16⟩, by decide, rfl,
    (matchesWord_packWord ..).mpr (by simp)⟩

theorem EncodesInItsRow.supStep : EncodesInItsRow.Statement .supStep := fun _ =>
  ⟨⟨"SUP_STEP", packWord 0x41#8 0#8 0#16, packWord 0xFF#8 0xFF#8 0xFFFF#16⟩, by decide, rfl,
    (matchesWord_packWord ..).mpr (by simp)⟩

theorem EncodesInItsRow.setThrottle (i : Byte) (v : Word64) : EncodesInItsRow.Statement (.setThrottle i v) := fun _ =>
  ⟨⟨"SET_THROTTLE", packWord 0x42#8 0#8 0#16, packWord 0xFF#8 0x00#8 0xFFFF#16⟩, by decide, rfl,
    (matchesWord_packWord ..).mpr (by simp)⟩

theorem EncodesInItsRow.setDutyUs (i : Byte) (us : BitVec 16) : EncodesInItsRow.Statement (.setDutyUs i us) := fun _ =>
  ⟨⟨"SET_DUTY_US", packWord 0x43#8 0#8 0#16, packWord 0xFF#8 0x00#8 0x0000#16⟩, by decide, rfl,
    (matchesWord_packWord ..).mpr (by simp)⟩

theorem EncodesInItsRow.neutralAll : EncodesInItsRow.Statement .neutralAll := fun _ =>
  ⟨⟨"NEUTRAL_ALL", packWord 0x44#8 0#8 0#16, packWord 0xFF#8 0xFF#8 0xFFFF#16⟩, by decide, rfl,
    (matchesWord_packWord ..).mpr (by simp)⟩

theorem EncodesInItsRow.statRead (k : Byte) : EncodesInItsRow.Statement (.statRead k) := fun _ =>
  ⟨⟨"STAT_READ", packWord 0x50#8 0#8 0#16, packWord 0xFF#8 0x00#8 0xFFFF#16⟩, by decide, rfl,
    (matchesWord_packWord ..).mpr (by simp)⟩

theorem EncodesInItsRow.cobsCodeZero : EncodesInItsRow.Statement .cobsCodeZero := fun _ => rfl

theorem EncodesInItsRow.cobsCodeFull : EncodesInItsRow.Statement .cobsCodeFull := fun _ => rfl

theorem EncodesInItsRow.cobsCodeRun (c : Byte) : EncodesInItsRow.Statement (.cobsCodeRun c) := fun h => by
  simp only [Instr.encodable, Bool.and_eq_true, decide_eq_true_eq] at h
  simp [encode, decodeCode, h.1, h.2]

end Sys2Proof.Laws
end

