-- ==== Sys2Proof/Tests/Slice0.lean ====
section
/-! SUPPORT. Tests: ill-formed terms refused, words written out from the spec's encodings decoded, the spec's own vectors
(95_test_vectors.md) on one step each, and a witness for the hypotheses of each statement that has some. -/

namespace Sys2Proof.Tests

open Sys2Proof Sys2Proof.Machine

set_option maxRecDepth 8000

/-! ## Ill-formed terms -/

/-- 65536 bytes are more than `L16` can announce (30_encoding.md R75). -/
def tooLong : List Byte := List.replicate 65536 0x00#8

theorem test_wf_long_operands_refused :
    (Instr.crc8 tooLong).encodable = false ∧ (Instr.crc8Check tooLong).encodable = false
    ∧ (Instr.cobsEnc tooLong).encodable = false ∧ (Instr.cobsDec tooLong).encodable = false
    ∧ (Instr.txFrame 1#8 tooLong).encodable = false
    ∧ (Instr.cmdEnq (List.replicate 65536 ⟨0#64, 0#64⟩)).encodable = false := by
  simp only [Instr.encodable, tooLong, List.length_replicate, maxL16]
  decide

theorem test_wf_empty_check_refused : (Instr.crc8Check []).encodable = false := by decide

theorem test_wf_run_code_bytes_refused :
    (Instr.cobsCodeRun 0x00#8).encodable = false ∧ (Instr.cobsCodeRun 0xFF#8).encodable = false := by decide

theorem test_wf_motor_index_refused :
    (Instr.setThrottle 2#8 0#64).wf Config.testConfig = false
    ∧ (Instr.setDutyUs 2#8 1500#16).wf Config.testConfig = false
    ∧ (Instr.setDutyUs 1#8 1500#16).wf Config.testConfig = true := by decide

theorem test_wf_reserved_index_refused :
    (Instr.statRead 0x0A#8).wf Config.testConfig = false ∧ (Instr.statRead 0x17#8).wf Config.testConfig = false
    ∧ (Instr.statRead 0x22#8).wf Config.testConfig = false ∧ (Instr.statRead 0x21#8).wf Config.testConfig = true := by
  decide

/-- Each constraint of 00_scope.md R6 and R7, broken one at a time. -/
theorem test_config_constraints_refused :
    let c := Config.testConfig
    c.wf = true ∧ { c with fifoN := 1 }.wf = false ∧ { c with fifoN := 65537 }.wf = false
    ∧ { c with accMax := 0 }.wf = false ∧ { c with accMax := 65536 }.wf = false
    ∧ { c with qDepth := 0 }.wf = false ∧ { c with qDepth := 65536 }.wf = false
    ∧ { c with motors := [] }.wf = false ∧ { c with motors := List.replicate 33 Config.testMotor }.wf = false
    ∧ { c with motors := [{ Config.testMotor with minUs := 1501 }] }.wf = false
    ∧ { c with motors := [{ Config.testMotor with maxUs := 1499 }] }.wf = false
    ∧ { c with motors := [{ Config.testMotor with maxUs := 20001 }] }.wf = false
    ∧ { c with pwmFreqHz := 0 }.wf = false ∧ { c with dutyResBits := 0 }.wf = false
    ∧ { c with dutyResBits := 31 }.wf = false ∧ { c with wdtT := 2 ^ 32 }.wf = false ∧ { c with waitW := 0 }.wf = false
    ∧ { c with crcPoly := 0x06#8 }.wf = false := by decide

/-! ## Words from the spec's encoding (30_encoding.md R75, R77): `OPC`, `A8` and `L16` bit by bit -/

theorem test_decode_crc_family :
    decodeCommand (0b00000001#8 ++ 0b00000000#8 ++ 0b0000000000000000#16) [] = .ok .crc8Init
    ∧ decodeCommand (0b00000010#8 ++ 0b00110001#8 ++ 0b0000000000000000#16) [] = .ok (.crc8Step 0x31#8)
    ∧ decodeCommand (0b00000011#8 ++ 0b00000000#8 ++ 0b0000000000000010#16) [1#8, 2#8] = .ok (.crc8 [1#8, 2#8])
    ∧ decodeCommand (0b00000100#8 ++ 0b00000000#8 ++ 0b0000000000000001#16) [7#8] = .ok (.crc8Check [7#8]) := by decide

theorem test_decode_cobs_family :
    decodeCommand (0b00010000#8 ++ 0b00000000#8 ++ 0b0000000000000001#16) [0#8] = .ok (.cobsEnc [0#8])
    ∧ decodeCommand (0b00010001#8 ++ 0b00000000#8 ++ 0b0000000000000000#16) [] = .ok (.cobsDec [])
    ∧ decode (.code 0b00000000#8) = .ok .cobsCodeZero ∧ decode (.code 0b11111111#8) = .ok .cobsCodeFull
    ∧ decode (.code 0b00000001#8) = .ok (.cobsCodeRun 0x01#8) ∧ decode (.code 0b11111110#8) = .ok (.cobsCodeRun 0xFE#8) := by
  decide

theorem test_decode_fifo_family :
    decodeCommand (0b00100000#8 ++ 0b01010101#8 ++ 0b0000000000000000#16) [] = .ok (.fifoPush 0x55#8)
    ∧ decodeCommand (0b00100001#8 ++ 0b00000000#8 ++ 0b0000000000000000#16) [] = .ok .fifoPop
    ∧ decodeCommand (0b00100010#8 ++ 0b00000000#8 ++ 0b0000000000000000#16) [] = .ok .fifoClear
    ∧ decodeCommand (0b00100011#8 ++ 0b00000000#8 ++ 0b0000000000000000#16) [] = .ok .fifoLevel := by decide

theorem test_decode_frame_family :
    decodeCommand (0b00110000#8 ++ 0b00000000#8 ++ 0b0000000000000000#16) [] = .ok .rxStep
    ∧ decodeCommand (0b00110001#8 ++ 0b00000000#8 ++ 0b0000000000000000#16) [] = .ok .rxPump
    ∧ decodeCommand (0b00110010#8 ++ 0b11111110#8 ++ 0b0000000000000001#16) [0x10#8] = .ok (.txFrame 0xFE#8 [0x10#8]) := by
  decide

/-- The CMD_ENQ and SET_THROTTLE words with the data-port bytes of programs P1 (line 3) and P4 (line 7). -/
theorem test_decode_motor_family :
    decodeCommand (0b01000000#8 ++ 0b00000000#8 ++ 0b0000000000000001#16)
      [0x01#8, 0#8, 0#8, 0#8, 0#8, 0#8, 0#8, 0#8, 0#8, 0#8, 0#8, 0#8, 0#8, 0#8, 0xE0#8, 0x3F#8]
      = .ok (.cmdEnq [⟨1#64, 0x3FE0000000000000#64⟩])
    ∧ decodeCommand (0b01000001#8 ++ 0b00000000#8 ++ 0b0000000000000000#16) [] = .ok .supStep
    ∧ decodeCommand (0b01000010#8 ++ 0b00000000#8 ++ 0b0000000000000000#16)
      [0#8, 0#8, 0#8, 0#8, 0#8, 0#8, 0xD0#8, 0xBF#8] = .ok (.setThrottle 0#8 0xBFD0000000000000#64)
    ∧ decodeCommand (0b01000011#8 ++ 0b00000001#8 ++ 0b0000001111101000#16) [] = .ok (.setDutyUs 1#8 1000#16)
    ∧ decodeCommand (0b01000100#8 ++ 0b00000000#8 ++ 0b0000000000000000#16) [] = .ok .neutralAll
    ∧ decodeCommand (0b01010000#8 ++ 0b00100000#8 ++ 0b0000000000000000#16) [] = .ok (.statRead 0x20#8) := by decide

/-- Reserved fields and a data port of the wrong length are refused by name (30_encoding.md R78). -/
theorem test_decode_refusals :
    decodeCommand 0x05000000#32 [] = .error .reservedOpcode ∧ decodeCommand 0x21010000#32 [] = .error .nonzeroA8
    ∧ decodeCommand 0x01000001#32 [] = .error .nonzeroL16 ∧ decodeCommand 0x04000000#32 [] = .error .emptyCheck
    ∧ decodeCommand 0x03000002#32 [1#8] = .error .dataPortLength
    ∧ decodeCommand 0x42000000#32 [1#8] = .error .dataPortLength := by decide

/-- The host's two functions on rows of both formats. -/
theorem test_table_words :
    decodeTableWord 32 0x20070000 = some (.fifoPush 0x07#8) ∧ decodeTableWord 8 0xFF = some .cobsCodeFull
    ∧ decodeTableWord 8 0x03 = some (.cobsCodeRun 0x03#8) ∧ decodeTableWord 32 0x42000000 = some (.setThrottle 0#8 0#64)
    ∧ decodeTableWord 32 0x05000000 = none := by decide

/-! ## One step of one instruction, with the spec's values -/

/-- The test configuration of V-FIFO and program P3 (95_test_vectors.md). -/
def smallConfig : Config := { Config.testConfig with fifoN := 4, accMax := 4 }

/-- RST0 of a configuration with a given issuer and time. -/
def start (c : Config) (a : Agent) (now : Nat) : State :=
  { State.atReset c 0#32 with inputs := { issuer := a, now := BitVec.ofNat 32 now, linkAccepts := 1000 } }

/-- `start` with given FIFO indices. -/
def withFifo (c : Config) (a : Agent) (m : Memory) (rd wr : Nat) : State :=
  { start c a 0 with fifoMem := m, fifoRd := rd, fifoWr := wr }

/-- The state a test looks at: the next state, or the state before where there is none. -/
def after (i : Instr) (s : State) : State :=
  match exec i s with
  | .next t => t
  | .fault _ => s
  | .refused _ => s

/-- The result of one instruction. -/
def resultOf (i : Instr) (s : State) : Option OpResult := (after i s).result

theorem test_crc8Init : (after .crc8Init { start Config.testConfig .transmitter 0 with crcAcc := 0x07#8 }).crcAcc = 0x00#8 := by
  decide

theorem test_crc8Step :
    (after (.crc8Step 0x02#8) { start Config.testConfig .transmitter 0 with crcAcc := 0x07#8 }).crcAcc = 0x1B#8 := by decide

theorem test_crc8 : resultOf (.crc8 [1#8, 2#8, 3#8]) (start Config.testConfig .consumer 0) = some (.okValue 0x48) := by decide

theorem test_crc8_other_parameters :
    Machine.crc8 { Config.testConfig with crcPoly := 0x31#8 }
        [0x31#8, 0x32#8, 0x33#8, 0x34#8, 0x35#8, 0x36#8, 0x37#8, 0x38#8, 0x39#8] = 0xA2#8
    ∧ Machine.crc8 { Config.testConfig with crcInit := 0xFF#8 }
        [0x31#8, 0x32#8, 0x33#8, 0x34#8, 0x35#8, 0x36#8, 0x37#8, 0x38#8, 0x39#8] = 0xFB#8 := by decide

theorem test_crc8Check :
    resultOf (.crc8Check [0x01#8, 0x81#8, 0xA1#8, 0x31#8, 0xCA#8, 0x3F#8, 0#8, 0#8, 0#8, 0x54#8])
      (start Config.testConfig .consumer 0) = some (.okValue 0x54)
    ∧ resultOf (.crc8Check [0x01#8, 0x08#8]) (start Config.testConfig .consumer 0) = some (.noneValue 0x07) := by decide

theorem test_cobsEnc :
    resultOf (.cobsEnc [0x11#8, 0x22#8, 0x00#8, 0x33#8]) (start Config.testConfig .consumer 0)
      = some (.okBytes [0x03#8, 0x11#8, 0x22#8, 0x02#8, 0x33#8]) := by decide

/-- 254 bytes: `FF`, the bytes, `01`; with `MINIMAL` no final `01` (V-COBS). -/
theorem test_cobsEnc_full_run :
    cobsEncode .explicit (List.replicate 254 0x11#8) = 0xFF#8 :: List.replicate 254 0x11#8 ++ [0x01#8]
    ∧ cobsEncode .minimal (List.replicate 254 0x11#8) = 0xFF#8 :: List.replicate 254 0x11#8
    ∧ cobsEncode .minimal [] = [0x01#8] := by decide

theorem test_cobsDec :
    resultOf (.cobsDec [0x03#8, 0x11#8, 0x22#8, 0x01#8]) (start Config.testConfig .consumer 0)
      = some (.okBytes [0x11#8, 0x22#8, 0x00#8])
    ∧ resultOf (.cobsDec [0x05#8, 0x11#8, 0x22#8]) (start Config.testConfig .consumer 0) = some .invalid := by decide

theorem test_cobsDec_invalid_frames :
    cobsDecode [] = none ∧ cobsDecode [0x00#8] = none ∧ cobsDecode [0x01#8] = some [] ∧ cobsDecode [0x02#8, 0x11#8, 0x00#8] = none
    ∧ cobsDecode [0x03#8, 0x00#8, 0x11#8] = none ∧ cobsDecode (0xFF#8 :: List.replicate 253 0x11#8) = none := by decide

theorem test_cobsCodeZero : resultOf .cobsCodeZero (start Config.testConfig .consumer 0) = some .invalid := by decide

theorem test_cobsCodeFull :
    (after .cobsCodeFull { start Config.testConfig .consumer 0 with
        codec := { rest := List.replicate 255 0x11#8, out := [] } }).codec
      = { rest := [0x11#8], out := List.replicate 254 0x11#8 } := by decide

theorem test_cobsCodeRun :
    (after (.cobsCodeRun 0x03#8) { start Config.testConfig .consumer 0 with
        codec := { rest := [0x11#8, 0x22#8, 0x01#8], out := [] } }).codec
      = { rest := [0x01#8], out := [0x11#8, 0x22#8, 0x00#8] } := by decide

theorem test_fifoPush_wraps :
    (after (.fifoPush 0x55#8) (withFifo smallConfig .producer [] 1 3)).fifoWr = 0
    ∧ Memory.read (after (.fifoPush 0x55#8) (withFifo smallConfig .producer [] 1 3)).fifoMem 3 = some 0x55#8 := by decide

theorem test_fifoPush_full :
    resultOf (.fifoPush 0x44#8) (withFifo smallConfig .producer [] 0 3) = some .nonePlain
    ∧ (after (.fifoPush 0x44#8) (withFifo smallConfig .producer [] 0 3)).cnt.fifoOvf = 1#32 := by decide

theorem test_fifoPop :
    resultOf .fifoPop (withFifo smallConfig .consumer [(0, 0x07#8), (3, 0xAB#8)] 3 1) = some (.okValue 0xAB)
    ∧ (after .fifoPop (withFifo smallConfig .consumer [(0, 0x07#8), (3, 0xAB#8)] 3 1)).fifoRd = 0 := by decide

theorem test_fifoClear :
    (after .fifoClear { withFifo smallConfig .consumer [] 1 3 with prodEn := false }).fifoWr = 0
    ∧ (after .fifoClear (withFifo smallConfig .consumer [] 1 3)).fault = some .clearActive := by decide

theorem test_fifoLevel : resultOf .fifoLevel (withFifo smallConfig .supervisor [] 3 1) = some (.okValue 2) := by decide

/-- A delimiter waits in the FIFO and the frame `04 05 10 31` is accumulated (V-RX). -/
def frameComplete : State :=
  { withFifo smallConfig .consumer [(0, 0x00#8)] 0 1 with
    accMem := [(0, 0x04#8), (1, 0x05#8), (2, 0x10#8), (3, 0x31#8)], accLen := 4 }

theorem test_rxStep_delivers :
    resultOf .rxStep frameComplete = some (.okValue 2)
    ∧ (after .rxStep frameComplete).msgOut = [(0x05#8, [0x10#8])] := by decide

theorem test_rxStep_overflow :
    resultOf .rxStep { frameComplete with fifoMem := [(0, 0x77#8)] } = some (.okValue 4)
    ∧ (after .rxStep { frameComplete with fifoMem := [(0, 0x77#8)] }).accLen = 0 := by decide

theorem test_rxPump_empty : resultOf .rxPump (start Config.testConfig .consumer 0) = some (.okValue 0) := by decide

theorem test_rxPump_goes_on :
    (after .rxPump frameComplete).cInPump = true ∧ (after .rxPump frameComplete).pumpCount = 1
    ∧ resultOf .rxPump frameComplete = none := by decide

/-- V-FRAME-1. -/
theorem test_txFrame :
    (after (.txFrame 0x01#8 [0x81#8, 0xA1#8, 0x31#8, 0xCA#8, 0x3F#8, 0#8, 0#8, 0#8])
        (start Config.testConfig .transmitter 0)).linkOut
      = [0x07#8, 0x01#8, 0x81#8, 0xA1#8, 0x31#8, 0xCA#8, 0x3F#8, 0x01#8, 0x01#8, 0x02#8, 0x54#8, 0x00#8] := by decide

theorem test_txFrame_short :
    resultOf (.txFrame 0x01#8 [0x10#8]) { start { Config.testConfig with txLeadingDelim := true } .transmitter 0 with
        inputs := { issuer := .transmitter, now := 0#32, linkAccepts := 5 } } = some (.noneValue 5) := by decide

theorem test_cmdEnq_full :
    (after (.cmdEnq [⟨1#64, 0#64⟩]) { start Config.testConfig .consumer 0 with cmdq := [[], []] }).cnt.cmdqDrop = 1#32 := by
  decide

theorem test_cmdEnq : (after (.cmdEnq []) (start Config.testConfig .consumer 0)).cmdq = [[]] := by decide

/-- The first supervisor row of V-MOT: 0.5 for motor 0 at time 10. -/
theorem test_supStep_command :
    (after .supStep { start Config.testConfig .supervisor 10 with cmdq := [[⟨1#64, 0x3FE0000000000000#64⟩]] }).duty
      = [5734, 4915]
    ∧ (after .supStep { start Config.testConfig .supervisor 10 with
        cmdq := [[⟨1#64, 0x3FE0000000000000#64⟩]] }).lastCmdTime = 10#32 := by decide

theorem test_supStep_trip :
    resultOf .supStep { start Config.testConfig .supervisor 501 with duty := [5734, 4915] } = some (.okValue 2)
    ∧ (after .supStep { start Config.testConfig .supervisor 501 with duty := [5734, 4915] }).duty = [4915, 4915] := by
  decide

/-- −0.25, and 0.1 as a binary64 (V-MOT). -/
theorem test_setThrottle :
    resultOf (.setThrottle 0#8 0xBFD0000000000000#64) (start Config.testConfig .supervisor 0) = some (.okValue 4505)
    ∧ resultOf (.setThrottle 0#8 0x3FB999999999999A#64) (start Config.testConfig .supervisor 0) = some (.okValue 5079) := by
  decide

/-- NaN is counted; the infinities go to the ends (V-MOT). -/
theorem test_setThrottle_special :
    (after (.setThrottle 0#8 0x7FF8000000000000#64) (start Config.testConfig .supervisor 0)).cnt.dutyRej = 1#32
    ∧ resultOf (.setThrottle 1#8 0x7FF0000000000000#64) (start Config.testConfig .supervisor 0) = some (.okValue 6553)
    ∧ resultOf (.setThrottle 1#8 0xFFF0000000000000#64) (start Config.testConfig .supervisor 0) = some (.okValue 3276) := by
  decide

theorem test_setDutyUs :
    (after (.setDutyUs 1#8 2000#16) (start Config.testConfig .supervisor 0)).duty = [4915, 6553]
    ∧ resultOf (.setDutyUs 1#8 2001#16) (start Config.testConfig .supervisor 0) = some .nonePlain := by decide

theorem test_neutralAll :
    (after .neutralAll { start Config.testConfig .supervisor 0 with duty := [4505, 3276] }).duty = [4915, 4915] := by decide

theorem test_statRead :
    resultOf (.statRead 0x15#8) { start Config.testConfig .transmitter 0 with lastCmdTime := 1012#32 } = some (.okValue 1012)
    ∧ resultOf (.statRead 0x21#8) (start Config.testConfig .transmitter 0) = some (.okValue 4915) := by decide

/-- Raw pulse widths: key 2 out of range is counted and does not refresh, key 3 is ignored (V-MOT). -/
theorem test_raw_command_set :
    let s := { start { Config.testConfig with cmdMode := .rawUs } .supervisor 50 with
        cmdq := [[⟨1#64, 1600#64⟩, ⟨2#64, 2500#64⟩, ⟨3#64, 1200#64⟩]] }
    (after .supStep s).duty = [5242, 4915] ∧ (after .supStep s).cnt.dutyRej = 1#32 := by decide

/-- Other resolutions (V-MOT): full scale is 2^12, and 400 Hz with 14 bits. -/
theorem test_usToDuty :
    usToDuty { Config.testConfig with pwmFreqHz := 1000, dutyResBits := 12 } (Frac.ofInt 1000) = 4096
    ∧ usToDuty { Config.testConfig with pwmFreqHz := 400, dutyResBits := 14 } (Frac.ofInt 1500) = 9830 := by decide

/-- The float arithmetics of 93_implementation_defined.md I7 agree with the exact one on the values of V-MOT. -/
theorem test_float_arithmetics :
    usToDuty { Config.testConfig with throttleArith := .float32 } (mapThrottle .float32 Config.testMotor ⟨1, 4⟩) = 5324
    ∧ usToDuty { Config.testConfig with throttleArith := .float64 } (mapThrottle .float64 Config.testMotor ⟨-1, 4⟩) = 4505 := by
  decide

/-! ## Witnesses: the hypotheses of each statement that has some are met, each clause by a state of its own -/

/-- A state that meets the invariant, with bytes pending across the wrap of the FIFO, a byte accumulated and a set queued. -/
def loaded : State :=
  { withFifo smallConfig .consumer [(0, 0x05#8), (3, 0x04#8)] 3 1 with accMem := [(0, 0x02#8)], accLen := 1, cmdq := [[]] }

theorem loaded_inv : Inv loaded := by
  constructor <;> decide

/-- `loaded` with another issuer. -/
def loadedBy (a : Agent) : State := { loaded with inputs := { loaded.inputs with issuer := a } }

theorem loadedBy_inv (a : Agent) : Inv (loadedBy a) := loaded_inv.congr rfl rfl rfl rfl rfl rfl rfl rfl rfl rfl

/-- A full FIFO of three bytes that meets the invariant. -/
def full : State := withFifo smallConfig .producer [(0, 0x11#8), (1, 0x22#8), (2, 0x00#8)] 0 3

theorem full_inv : Inv full := by
  constructor <;> decide

/-- An empty FIFO with its indices at the last slot, which meets the invariant. -/
def empty (a : Agent) : State := withFifo smallConfig a [(2, 0x11#8)] 3 3

theorem empty_inv (a : Agent) : Inv (empty a) := by
  have h : Inv (empty .producer) := by constructor <;> decide
  exact h.congr rfl rfl rfl rfl rfl rfl rfl rfl rfl rfl

/-- A state whose schedule is one action. -/
def scheduled (a : Machine.Action) : State := { start Config.testConfig .transmitter 0 with agenda := [a] }

/-- A command as the supervisor issues it. -/
def supervised (w : CmdWord) (data : List Byte) : Command :=
  { word := w, data := data, inputs := { issuer := .supervisor, now := 0#32, linkAccepts := 0 } }

theorem witness_DecodeOfEncode :
    (Instr.cobsCodeRun 0x01#8).encodable = true ∧ (Instr.cobsCodeRun 0xFE#8).encodable = true
    ∧ (Instr.crc8Check [0x00#8]).encodable = true ∧ (Instr.cmdEnq []).encodable = true := by decide

theorem witness_DecodeOfEncode_longest : (Instr.crc8 (List.replicate 65535 0x00#8)).encodable = true := by
  simp only [Instr.encodable, List.length_replicate, maxL16]
  decide

theorem witness_EncodeOfDecode : decodeCommand 0x4301FFFF#32 [] = .ok (.setDutyUs 0x01#8 0xFFFF#16) := by decide

theorem witness_OpcodeTableRows :
    (⟨"TX_FRAME", 0x32000000#32, 0xFF000000#32⟩ : TableRow) ∈ commandRows
    ∧ TableRow.matchesWord ⟨"TX_FRAME", 0x32000000#32, 0xFF000000#32⟩ 0x32FFFFFF#32 = true
    ∧ decodeCommand 0x32000000#32 [] = .ok (.txFrame 0#8 []) := by decide

/-- Each case of 30_encoding.md R78 in turn. -/
theorem witness_IllegalWords_each_case :
    IllegalWord Config.testConfig 0x51000000#32 [] ∧ IllegalWord Config.testConfig 0x44010000#32 []
    ∧ IllegalWord Config.testConfig 0x50000001#32 [] ∧ IllegalWord Config.testConfig 0x04000000#32 []
    ∧ IllegalWord Config.testConfig 0x43020000#32 [] ∧ IllegalWord Config.testConfig 0x50220000#32 []
    ∧ IllegalWord Config.testConfig 0x03000001#32 [] ∧ ¬ IllegalWord Config.testConfig 0x43010000#32 [] := by
  refine ⟨.inl ?_, .inr (.inl ?_), .inr (.inr (.inl ?_)), .inr (.inr (.inr (.inl ?_))),
    .inr (.inr (.inr (.inr (.inl ?_)))), .inr (.inr (.inr (.inr (.inr (.inl ?_))))),
    .inr (.inr (.inr (.inr (.inr (.inr ?_))))), ?_⟩
  all_goals first | decide | skip
  rintro (h | h | h | h | h | h | h) <;> revert h <;> decide

theorem witness_IllegalWords_state :
    let s := scheduled (.issue (supervised 0x43010000#32 []))
    s.cfg.wf = true ∧ s.fault = none ∧ s.agenda = [.issue (supervised 0x43010000#32 [])]
      ∧ agentEnabled s (supervised 0x43010000#32 []).inputs.issuer = true := by decide

theorem witness_StepRuns_command :
    let s := scheduled (.issue (supervised 0x44000000#32 []))
    s.cfg.wf = true ∧ s.fault = none ∧ s.agenda = [.issue (supervised 0x44000000#32 [])]
      ∧ agentEnabled s .supervisor = true ∧ decodeCommand 0x44000000#32 [] = .ok .neutralAll := by decide

theorem witness_StepRuns_codec :
    let s := { scheduled .codecRun with codec := { rest := [0x02#8, 0x11#8], out := [] } }
    s.cfg.wf = true ∧ s.fault = none ∧ s.agenda = [.codecRun] ∧ s.codec.rest = [0x02#8, 0x11#8] := by decide

/-- Each further kind of step: an empty codec, a frame and an empty one presented, a pump that can go on and one that cannot
(no pump, a sink running), the sink's return. -/
theorem witness_StepRuns_schedule :
    (scheduled .codecRun).agenda = [.codecRun] ∧ (scheduled .codecRun).codec.rest = []
    ∧ (scheduled (.codecFrame [0x01#8])).agenda = [.codecFrame [0x01#8]] ∧ [0x01#8] ≠ ([] : List Byte)
    ∧ (scheduled (.codecFrame [])).agenda = [.codecFrame []]
    ∧ (let s := { scheduled .pump with cInPump := true }
       s.agenda = [.pump] ∧ s.cInPump = true ∧ s.sinkBusy = false)
    ∧ (let s := { scheduled .pump with cInPump := true, sinkBusy := true }
       s.agenda = [.pump] ∧ (s.cInPump = false ∨ s.sinkBusy = true))
    ∧ ((scheduled .pump).agenda = [.pump] ∧ ((scheduled .pump).cInPump = false ∨ (scheduled .pump).sinkBusy = true))
    ∧ (scheduled .sinkReturn).agenda = [.sinkReturn]
    ∧ (scheduled .pump).cfg.wf = true ∧ (scheduled .pump).fault = none := by decide

/-- With an empty schedule: a pump that can go on, no pump, and a pump whose sink runs. -/
theorem witness_StepRuns_unscheduled :
    (let s := { loaded with cInPump := true }
     s.cfg.wf = true ∧ s.fault = none ∧ s.agenda = [] ∧ s.cInPump = true ∧ s.sinkBusy = false)
    ∧ (loaded.agenda = [] ∧ (loaded.cInPump = false ∨ loaded.sinkBusy = true))
    ∧ (let s := { loaded with cInPump := true, sinkBusy := true }
       s.agenda = [] ∧ (s.cInPump = false ∨ s.sinkBusy = true)) := by decide

theorem witness_Crc8Check : (start Config.testConfig .consumer 0).cfg.wf = true := by decide

/-- The last byte, which is the CRC, changed; and two sequences of one length. -/
theorem witness_CrcProperties :
    Config.testConfig.crcPoly.getLsbD 0 = true
    ∧ [0x01#8] ++ [Machine.crc8 Config.testConfig [0x01#8]] = [0x01#8] ++ 0x07#8 :: []
    ∧ [0x01#8] ++ [Machine.crc8 Config.testConfig [0x01#8]] = [] ++ 0x01#8 :: [0x07#8] ∧ (0x08#8 : Byte) ≠ 0x07#8
    ∧ [0x01#8, 0x02#8].length = [0xFF#8, 0x80#8].length := by decide

theorem witness_CrcAcc :
    Instr.statRead 0x15#8 ≠ .crc8Init ∧ (∀ b, Instr.statRead 0x15#8 ≠ .crc8Step b)
    ∧ Instr.statRead 0x15#8 ≠ .statRead 0x16#8 := by
  refine ⟨by decide, fun b => by simp, by decide⟩

theorem witness_CobsDecodeRefuses :
    (0x00#8 : Byte) ∈ [0x01#8, 0x00#8] ∧ [0x11#8].length + 1 < (0x03#8 : Byte).toNat
    ∧ (List.replicate 254 0x11#8).length = 254 ∧ 0x00#8 ∉ List.replicate 254 0x11#8 := by decide

theorem witness_CobsDec : cobsDecode [0x01#8, 0x00#8] = none ∧ cobsDecode [0x01#8] = some [] := by decide

/-- A state whose codec holds the given bytes. -/
def decoding (bytes : List Byte) : State :=
  { start Config.testConfig .consumer 0 with codec := { rest := bytes, out := [0x77#8] } }

theorem witness_CobsCodeFull :
    (decoding (List.replicate 253 0x11#8)).codec.rest.length < 254
    ∧ 0x00#8 ∈ (decoding (List.replicate 253 0x11#8 ++ [0x00#8])).codec.rest.take 254
    ∧ (decoding (List.replicate 254 0x11#8)).codec.rest.length = 254
    ∧ 0x00#8 ∉ (decoding (List.replicate 254 0x11#8)).codec.rest
    ∧ 254 < (decoding (List.replicate 255 0x11#8)).codec.rest.length
    ∧ 0x00#8 ∉ (decoding (List.replicate 254 0x11#8 ++ [0x00#8])).codec.rest.take 254 := by decide

/-- The lowest class `0x01`, without data, and the highest, 0xFE. -/
theorem witness_CobsCodeRun :
    1 ≤ (0x01#8 : Byte).toNat ∧ (0xFE#8 : Byte).toNat ≤ 254
    ∧ (decoding (List.replicate 252 0x11#8)).codec.rest.length < (0xFE#8 : Byte).toNat - 1
    ∧ 0x00#8 ∈ (decoding [0x00#8]).codec.rest.take ((0x02#8 : Byte).toNat - 1)
    ∧ (decoding []).codec.rest.length = (0x01#8 : Byte).toNat - 1 ∧ 0x00#8 ∉ (decoding []).codec.rest
    ∧ (0x01#8 : Byte).toNat - 1 < (decoding [0x00#8]).codec.rest.length
    ∧ 0x00#8 ∉ (decoding [0x00#8]).codec.rest.take ((0x01#8 : Byte).toNat - 1) := by decide

theorem witness_CodecRuns : [0x00#8] ≠ ([] : List Byte) := by decide

theorem witness_FifoPush :
    (start smallConfig .consumer 0).inputs.issuer ≠ .producer
    ∧ (let s := { start smallConfig .producer 0 with prodEn := false }; s.inputs.issuer = .producer ∧ s.prodEn = false)
    ∧ (full.inputs.issuer = .producer ∧ full.prodEn = true ∧ (full.fifoWr + 1) % full.cfg.fifoN = full.fifoRd)
    ∧ (let s := empty .producer
       s.inputs.issuer = .producer ∧ s.prodEn = true ∧ (s.fifoWr + 1) % s.cfg.fifoN ≠ s.fifoRd ∧ s.fifoWr < s.cfg.fifoN) := by
  decide

theorem witness_FifoPop :
    (start smallConfig .producer 0).inputs.issuer ≠ .consumer
    ∧ (let s := empty .consumer; s.inputs.issuer = .consumer ∧ s.fifoRd = s.fifoWr)
    ∧ (loaded.inputs.issuer = .consumer ∧ loaded.fifoRd ≠ loaded.fifoWr
       ∧ Memory.read loaded.fifoMem loaded.fifoRd = some 0x04#8) := by decide

theorem witness_FifoClear :
    (let s := { loaded with prodEn := false }; s.prodEn = false ∧ s.cInPump = false)
    ∧ (loaded.prodEn = true ∨ loaded.cInPump = true)
    ∧ (let s := { loaded with prodEn := false, cInPump := true }; s.prodEn = true ∨ s.cInPump = true) := by decide

theorem witness_FifoQueue_room :
    Inv (loadedBy .producer) ∧ (loadedBy .producer).inputs.issuer = .producer ∧ (loadedBy .producer).prodEn = true
    ∧ (pendingBytes (loadedBy .producer)).length < (loadedBy .producer).cfg.fifoN - 1 :=
  ⟨loadedBy_inv _, by decide⟩

theorem witness_FifoQueue_full :
    Inv full ∧ full.inputs.issuer = .producer ∧ full.prodEn = true
    ∧ (pendingBytes full).length = full.cfg.fifoN - 1 := ⟨full_inv, by decide⟩

theorem witness_FifoQueue_pop :
    Inv loaded ∧ loaded.inputs.issuer = .consumer ∧ pendingBytes loaded = 0x04#8 :: [0x05#8] := ⟨loaded_inv, by decide⟩

theorem witness_FifoQueue_empty :
    Inv (empty .consumer) ∧ (empty .consumer).inputs.issuer = .consumer ∧ pendingBytes (empty .consumer) = [] :=
  ⟨empty_inv _, by decide⟩

theorem witness_FifoCapacity :
    Inv (empty .producer) ∧ (empty .producer).inputs.issuer = .producer ∧ (empty .producer).prodEn = true
    ∧ (empty .producer).fifoRd = (empty .producer).fifoWr
    ∧ [0x00#8, 0x11#8, 0x22#8].length = (empty .producer).cfg.fifoN - 1 := ⟨empty_inv _, by decide⟩

theorem witness_RxStep_guards :
    (start smallConfig .producer 0).inputs.issuer ≠ .consumer
    ∧ (let s := { loaded with cInPump := true }; s.inputs.issuer = .consumer ∧ (s.cInPump = true ∨ s.sinkBusy = true))
    ∧ (let s := { loaded with sinkBusy := true }; s.inputs.issuer = .consumer ∧ (s.cInPump = true ∨ s.sinkBusy = true))
    ∧ (let s := empty .consumer
       s.inputs.issuer = .consumer ∧ s.cInPump = false ∧ s.sinkBusy = false ∧ s.fifoRd = s.fifoWr) := by decide

theorem witness_RxStep_bytes :
    (let s := { loaded with fifoMem := [(3, 0x00#8)], accLen := 0 }
     s.inputs.issuer = .consumer ∧ s.cInPump = false ∧ s.sinkBusy = false ∧ s.fifoRd ≠ s.fifoWr
       ∧ Memory.read s.fifoMem s.fifoRd = some 0x00#8 ∧ s.accLen = 0)
    ∧ (let s := { loaded with fifoMem := [(3, 0x00#8)] }
       s.inputs.issuer = .consumer ∧ s.cInPump = false ∧ s.sinkBusy = false ∧ s.fifoRd ≠ s.fifoWr
         ∧ Memory.read s.fifoMem s.fifoRd = some 0x00#8 ∧ 0 < s.accLen
         ∧ Memory.readRange s.accMem 0 s.accLen = some [0x02#8])
    ∧ (let s := { frameComplete with fifoMem := [(0, 0x77#8)] }
       s.inputs.issuer = .consumer ∧ s.cInPump = false ∧ s.sinkBusy = false ∧ s.fifoRd ≠ s.fifoWr
         ∧ Memory.read s.fifoMem s.fifoRd = some 0x77#8 ∧ s.accLen = s.cfg.accMax)
    ∧ (loaded.inputs.issuer = .consumer ∧ loaded.cInPump = false ∧ loaded.sinkBusy = false
       ∧ loaded.fifoRd ≠ loaded.fifoWr ∧ Memory.read loaded.fifoMem loaded.fifoRd = some 0x04#8
       ∧ loaded.accLen < loaded.cfg.accMax) := by decide

theorem witness_FrameChecks :
    cobsDecode [0x03#8, 0x11#8] = none
    ∧ cobsDecode [0x03#8, 0x05#8, 0x1B#8] = some [0x05#8, 0x1B#8] ∧ [0x05#8, 0x1B#8].length < 3
    ∧ cobsDecode [0x04#8, 0x05#8, 0x10#8, 0x30#8] = some [0x05#8, 0x10#8, 0x30#8]
    ∧ Machine.crc8 Config.testConfig ([0x05#8, 0x10#8, 0x30#8].take 2) ≠ [0x05#8, 0x10#8, 0x30#8].getD 2 0x00#8
    ∧ cobsDecode [0x04#8, 0x05#8, 0x10#8, 0x31#8] = some [0x05#8, 0x10#8, 0x31#8]
    ∧ Machine.crc8 Config.testConfig ([0x05#8, 0x10#8, 0x31#8].take 2) = [0x05#8, 0x10#8, 0x31#8].getD 2 0x00#8 := by
  decide

theorem witness_RxPump :
    (let s := empty .consumer
     s.inputs.issuer = .consumer ∧ s.cInPump = false ∧ s.sinkBusy = false ∧ s.fifoRd = s.fifoWr)
    ∧ (loaded.inputs.issuer = .consumer ∧ loaded.cInPump = false ∧ loaded.sinkBusy = false
       ∧ loaded.fifoRd ≠ loaded.fifoWr)
    ∧ (let s := { empty .consumer with cInPump := true, pumpCount := 12 }
       s.inputs.issuer = .consumer ∧ s.cInPump = true ∧ s.sinkBusy = false ∧ s.fifoRd = s.fifoWr)
    ∧ (let s := { loaded with cInPump := true, pumpCount := 1 }
       s.inputs.issuer = .consumer ∧ s.cInPump = true ∧ s.sinkBusy = false ∧ s.fifoRd ≠ s.fifoWr) := by decide

/-- The RX_STEP of the first byte of a pump, and of a later one, answers a next state. -/
theorem witness_RxPump_first_step :
    exec .rxStep loaded = .next (after .rxStep loaded)
    ∧ exec .rxStep { loaded with cInPump := false, pumpCount := 1 }
        = .next (after .rxStep { loaded with cInPump := false, pumpCount := 1 }) := ⟨rfl, rfl⟩

theorem witness_ReceiverCompletes :
    Inv loaded ∧ loaded.inputs.issuer = .consumer ∧ loaded.cInPump = false ∧ loaded.sinkBusy = false :=
  ⟨loaded_inv, by decide⟩

theorem witness_ReceiverIsStill :
    (let s := { scheduled .sinkReturn with sinkBusy := true }
     s.agenda = [.sinkReturn] ∧ step s = .next { s with agenda := [], sinkBusy := false, result := none }
       ∧ s.sinkBusy = true)
    ∧ (let s := { scheduled (.byteArrived 0x11#8) with sinkBusy := true }
       ∃ t, s.agenda = [.byteArrived 0x11#8] ∧ step s = .next t ∧ s.sinkBusy = true)
    ∧ (let s := { loaded with cInPump := true, pumpCount := 1, sinkBusy := true }
       ∃ t, s.agenda = [] ∧ step s = .next t ∧ s.sinkBusy = true) :=
  ⟨⟨rfl, rfl, rfl⟩, ⟨_, rfl, rfl, rfl⟩, _, rfl, rfl, rfl⟩

/-- Every count the link accepts from one byte short of the frame to more than the frame. -/
theorem witness_TxFrame :
    (buildWire Config.testConfig 0x01#8 [0x10#8]).length ≤ (start Config.testConfig .transmitter 0).inputs.linkAccepts
    ∧ (start Config.testConfig .transmitter 0).inputs.linkAccepts = 1000
    ∧ (State.reset.inputs.linkAccepts < (buildWire State.reset.cfg 0x01#8 []).length)
    ∧ (let s := { State.reset with inputs := { issuer := .transmitter, now := 0#32, linkAccepts := 5 } }
       s.inputs.linkAccepts = (buildWire s.cfg 0x01#8 [0x10#8]).length)
    ∧ (let s := { State.reset with inputs := { issuer := .transmitter, now := 0#32, linkAccepts := 4 } }
       s.inputs.linkAccepts + 1 = (buildWire s.cfg 0x01#8 [0x10#8]).length) := by decide

/-- A frame of exactly `ACC_MAX` encoded bytes. -/
theorem witness_ReceiverDelivers :
    Inv { loaded with accLen := 0 } ∧ ({ loaded with accLen := 0 } : State).accLen = 0 ∧ [0x10#8] ≠ ([] : List Byte)
    ∧ (cobsEncode smallConfig.cobsFfTail (0x05#8 :: [0x10#8] ++ [Machine.crc8 smallConfig (0x05#8 :: [0x10#8])])).length
        ≤ smallConfig.accMax := by
  refine ⟨?_, by decide⟩
  constructor <;> decide

/-- The frame `04 05 10 31 00` arriving at an idle receiver whose FIFO holds three bytes, filling it twice: taken by single
RX_STEPs, and by a pump that takes the rest. -/
theorem witness_ReceiverDelivers_run :
    let events : List LinkEvent := [.arrives 0x04#8, .arrives 0x05#8, .arrives 0x10#8, .takes false, .takes true,
      .arrives 0x31#8, .arrives 0x00#8, .takes true, .takes false, .takes true, .takes false]
    Inv (empty .transmitter) ∧ ReceiverReady (empty .transmitter) ∧ (empty .transmitter).accLen = 0
    ∧ (empty .transmitter).cfg = smallConfig
    ∧ arrivedBytes events = buildWire smallConfig 0x05#8 [0x10#8]
    ∧ pendingAfter (smallConfig.fifoN - 1) 0 events = some 0
    ∧ (buildWire smallConfig 0x05#8 [0x10#8]).length ≤ (start smallConfig .transmitter 0).inputs.linkAccepts := by
  refine ⟨empty_inv _, ?_, by decide⟩
  constructor <;> decide

/-- The same frame with a delimiter before it, arriving while another frame is being received. -/
theorem witness_ReceiverDelivers_leading :
    let sender := { smallConfig with txLeadingDelim := true }
    let s := { empty .transmitter with accMem := [(0, 0x02#8)], accLen := 1 }
    let events : List LinkEvent := [.arrives 0x00#8, .arrives 0x04#8, .arrives 0x05#8, .takes false, .takes false,
      .takes false, .arrives 0x10#8, .arrives 0x31#8, .arrives 0x00#8, .takes true, .takes true, .takes true]
    Inv s ∧ ReceiverReady s ∧ s.accLen ≠ 0 ∧ sender.txLeadingDelim = true
    ∧ s.cfg.crcPoly = sender.crcPoly ∧ s.cfg.crcInit = sender.crcInit
    ∧ arrivedBytes events = buildWire sender 0x05#8 [0x10#8]
    ∧ pendingAfter (s.cfg.fifoN - 1) 0 events = some 0
    ∧ (cobsEncode sender.cobsFfTail (0x05#8 :: [0x10#8] ++ [Machine.crc8 sender (0x05#8 :: [0x10#8])])).length
        ≤ s.cfg.accMax := by
  refine ⟨?_, ?_, by decide⟩
  · constructor <;> decide
  · constructor <;> decide

theorem witness_CmdEnq :
    (start Config.testConfig .producer 0).inputs.issuer ≠ .consumer
    ∧ (let s := { start Config.testConfig .consumer 0 with cmdq := [[], []] }
       s.inputs.issuer = .consumer ∧ s.cmdq.length = s.cfg.qDepth)
    ∧ (let s := { start Config.testConfig .consumer 0 with cmdq := [[]] }
       s.inputs.issuer = .consumer ∧ s.cmdq.length ≠ s.cfg.qDepth) := by decide

/-- One above, an infinity of each sign, and a negative value on a motor of the test configuration. -/
theorem witness_ThrottleDuty :
    Config.testConfig.wf = true ∧ Config.testMotor ∈ Config.testConfig.motors
    ∧ Config.testConfig.throttleArith = .exactRational
    ∧ binary64 0x3FF0000000000000#64 = .finite ⟨2 ^ 52, 2 ^ 52⟩ ∧ binary64 0x7FF0000000000000#64 = .inf false
    ∧ binary64 0xFFF0000000000000#64 = .inf true
    ∧ clampThrottle Config.testMotor (binary64 0xFFF0000000000000#64) = some ⟨-1, 1⟩
    ∧ clampThrottle Config.testMotor (binary64 0x7FF0000000000000#64) = some ⟨1, 1⟩
    ∧ (clampThrottle Config.testMotor (binary64 0xBFE0000000000000#64)).isSome = true
    ∧ 0 < (Frac.ofInt 2000).den ∧ 0 ≤ (Frac.ofInt 2000).num ∧ Config.testMotor.maxUs = 2000 := by decide

/-- NaN at its lowest pattern, an infinity, the greatest finite pattern. -/
theorem witness_Binary64 :
    (0x7FF0000000000001#64).toNat / 2 ^ 52 % 2 ^ 11 = 2047 ∧ (0x7FF0000000000001#64).toNat % 2 ^ 52 ≠ 0
    ∧ (0xFFF0000000000000#64).toNat / 2 ^ 52 % 2 ^ 11 = 2047 ∧ (0xFFF0000000000000#64).toNat % 2 ^ 52 = 0
    ∧ (0x7FEFFFFFFFFFFFFF#64).toNat / 2 ^ 52 % 2 ^ 11 < 2047 ∧ (0x0000000000000001#64).toNat / 2 ^ 52 % 2 ^ 11 < 2047 := by
  decide

theorem witness_SetThrottle :
    (start Config.testConfig .supervisor 0).cfg.nMot ≤ (0x02#8 : Byte).toNat
    ∧ (0x01#8 : Byte).toNat < (start Config.testConfig .consumer 0).cfg.nMot
    ∧ (start Config.testConfig .consumer 0).inputs.issuer ≠ .supervisor
    ∧ (start Config.testConfig .supervisor 0).inputs.issuer = .supervisor ∧ binary64 0x7FF8000000000000#64 = .nan
    ∧ (start Config.testConfig .supervisor 0).cfg.motors[(0x01#8 : Byte).toNat]? = some Config.testMotor
    ∧ binary64 0x0000000000000000#64 ≠ .nan := by decide

theorem witness_SetDutyUs :
    (start Config.testConfig .supervisor 0).cfg.nMot ≤ (0x02#8 : Byte).toNat
    ∧ (start Config.testConfig .supervisor 0).cfg.motors[(0x01#8 : Byte).toNat]? = some Config.testMotor
    ∧ (start Config.testConfig .supervisor 0).inputs.issuer = .supervisor
    ∧ (start Config.testConfig .consumer 0).inputs.issuer ≠ .supervisor
    ∧ (999#16 : BitVec 16).toNat < Config.testMotor.minUs ∧ Config.testMotor.maxUs < (2001#16 : BitVec 16).toNat
    ∧ Config.testMotor.minUs ≤ (1000#16 : BitVec 16).toNat ∧ (2000#16 : BitVec 16).toNat ≤ Config.testMotor.maxUs := by
  decide

theorem witness_NeutralAll :
    (start Config.testConfig .producer 0).inputs.issuer ≠ .supervisor
    ∧ (start Config.testConfig .supervisor 0).inputs.issuer = .supervisor
    ∧ Config.testConfig.throttleArith = .exactRational := by decide

/-- Keys at both ends of the motors and just outside, and a value of each kind. -/
theorem witness_ApplyEntry :
    (0#64 : Word64).toInt < Config.testConfig.keyBase
    ∧ Config.testConfig.keyBase + Config.testConfig.nMot ≤ (3#64 : Word64).toInt
    ∧ (1#64 : Word64).toInt = Config.testConfig.keyBase + (0 : Nat)
    ∧ (2#64 : Word64).toInt = Config.testConfig.keyBase + (1 : Nat)
    ∧ Config.testConfig.motors[1]? = some Config.testMotor ∧ Config.testConfig.cmdMode = .throttle
    ∧ binary64 0x7FF8000000000000#64 = .nan
    ∧ clampThrottle Config.testMotor (binary64 0x0000000000000000#64) = some ⟨0, 1⟩
    ∧ ({ Config.testConfig with cmdMode := .rawUs } : Config).cmdMode = .rawUs
    ∧ (0xFFFFFFFFFFFFFFFF#64 : Word64).toInt < Config.testMotor.minUs
    ∧ (Config.testMotor.maxUs : Int) < (2001#64 : Word64).toInt
    ∧ (Config.testMotor.minUs : Int) ≤ (1000#64 : Word64).toInt ∧ (2000#64 : Word64).toInt ≤ Config.testMotor.maxUs := by
  decide

/-- Elapsed one tick more than the timeout, exactly the timeout, and across the wrap of the time input (V-MOT). -/
theorem witness_Watchdog :
    (let s := start Config.testConfig .supervisor 501
     s.cfg.wdtT < (s.inputs.now.toNat + 2 ^ 32 - s.lastCmdTime.toNat) % 2 ^ 32)
    ∧ (let s := start Config.testConfig .supervisor 500
       (s.inputs.now.toNat + 2 ^ 32 - s.lastCmdTime.toNat) % 2 ^ 32 ≤ s.cfg.wdtT)
    ∧ (let s := { start Config.testConfig .supervisor 0xF5 with lastCmdTime := 0xFFFFFF00#32 }
       s.cfg.wdtT < (s.inputs.now.toNat + 2 ^ 32 - s.lastCmdTime.toNat) % 2 ^ 32) := by decide

theorem witness_SupStep :
    (start Config.testConfig .consumer 0).inputs.issuer ≠ .supervisor
    ∧ (start Config.testConfig .supervisor 0).inputs.issuer = .supervisor
    ∧ (start Config.testConfig .supervisor 0).cmdq = []
    ∧ (let s := { start Config.testConfig .supervisor 0 with cmdq := [[]] }
       s.inputs.issuer = .supervisor ∧ s.cmdq = [] :: [] ∧ s.cfg.wdtCheckOnCmd = false)
    ∧ (let s := { start { Config.testConfig with wdtCheckOnCmd := true } .supervisor 600 with cmdq := [[]] }
       s.inputs.issuer = .supervisor ∧ s.cmdq = [] :: [] ∧ s.cfg.wdtCheckOnCmd = true) := by decide

theorem witness_Failsafe :
    (start Config.testConfig .supervisor 0).cmdq = []
    ∧ (start Config.testConfig .supervisor 0).cfg.wdtT
        < (501#32 - (start Config.testConfig .supervisor 0).lastCmdTime).toNat := by decide

/-- A NEUTRAL_ALL that S issues while a duty is not neutral; and a RESET. -/
theorem witness_OnlyTheSupervisor :
    (let s := { scheduled (.issue (supervised 0x44000000#32 [])) with duty := [0, 0] }
     ∃ t, s.agenda = [.issue (supervised 0x44000000#32 [])] ∧ step s = .next t ∧ t.duty ≠ s.duty)
    ∧ (let s := scheduled (.reset 7#32)
       ∃ t, s.agenda = [.reset 7#32] ∧ step s = .next t ∧ t.lastCmdTime ≠ s.lastCmdTime)
    ∧ (let s := { loaded with cInPump := true }
       ∃ t, s.agenda = [] ∧ step s = .next t ∧ t.duty = s.duty) :=
  ⟨⟨_, rfl, rfl, by decide⟩, ⟨_, rfl, rfl, by decide⟩, ⟨_, rfl, rfl, rfl⟩⟩

/-- The lowest and the highest defined index of each range, and the reserved ones beside them. -/
theorem witness_StatRead :
    Inv loaded ∧ statIndexDefined loaded.cfg.nMot 0x00#8 = true ∧ statIndexDefined loaded.cfg.nMot 0x09#8 = true
    ∧ statIndexDefined loaded.cfg.nMot 0x0A#8 = false ∧ statIndexDefined loaded.cfg.nMot 0x0F#8 = false
    ∧ statIndexDefined loaded.cfg.nMot 0x10#8 = true ∧ statIndexDefined loaded.cfg.nMot 0x16#8 = true
    ∧ statIndexDefined loaded.cfg.nMot 0x17#8 = false ∧ statIndexDefined loaded.cfg.nMot 0x1F#8 = false
    ∧ statIndexDefined loaded.cfg.nMot 0x20#8 = true ∧ statIndexDefined loaded.cfg.nMot 0x21#8 = true
    ∧ statIndexDefined loaded.cfg.nMot 0x22#8 = false ∧ statIndexDefined loaded.cfg.nMot 0xFF#8 = false :=
  ⟨loaded_inv, by decide⟩

theorem witness_EachCounter :
    let s := { full with agenda := [.byteArrived 0x44#8] }
    ∃ t, step s = .next t ∧ (∀ now rest, s.agenda ≠ .reset now :: rest) ∧ writerOfEvent .fifoOvf = some .producer
      ∧ t.cnt.get .fifoOvf ≠ s.cnt.get .fifoOvf :=
  ⟨_, rfl, by simp, rfl, by decide⟩

/-- A TX_FRAME of which the link accepts nothing. -/
theorem witness_EachCounter_txShort :
    let c : Command := { word := 0x32050001#32, data := [0x10#8]
                         inputs := { issuer := .transmitter, now := 0#32, linkAccepts := 0 } }
    let s := scheduled (.issue c)
    ∃ t, step s = .next t ∧ (∀ now rest, s.agenda ≠ .reset now :: rest)
      ∧ t.cnt.get .txShort ≠ s.cnt.get .txShort ∧ t.inputs = c.inputs :=
  ⟨_, rfl, by simp [scheduled], by decide, rfl⟩

theorem witness_Queries : ∃ k, Instr.statRead 0xFF#8 = .statRead k := ⟨_, rfl⟩

theorem witness_ForbiddenUses :
    (ownerOfInstr .supStep = some .supervisor ∧ Instr.supStep.operandsLegal Config.testConfig = true
       ∧ (start Config.testConfig .consumer 0).inputs.issuer ≠ .supervisor)
    ∧ (loaded.prodEn = true ∨ loaded.cInPump = true)
    ∧ (let s := { loaded with sinkBusy := true }
       s.inputs.issuer = .consumer ∧ (s.cInPump = true ∨ s.sinkBusy = true))
    ∧ (let s := { State.reset with fault := some .wrongAgent }; s.cfg.wf = true ∧ s.fault = some .wrongAgent)
    ∧ (start { Config.testConfig with fifoN := 1 } .consumer 0).cfg.wf = false := by decide

theorem witness_FaultLeaves :
    let s := scheduled (.issue (supervised 0x21000000#32 []))
    ∃ t, step s = .next t ∧ t.fault = some .wrongAgent := ⟨_, rfl, rfl⟩

theorem witness_ParametersNeverChange : ∃ t, step State.reset = .next t := ⟨_, rfl⟩

theorem witness_ByteArrival :
    (let s := scheduled (.byteArrived 0x00#8)
     s.cfg.wf = true ∧ s.fault = none ∧ s.agenda = [.byteArrived 0x00#8] ∧ s.prodEn = true)
    ∧ (let s := { scheduled (.byteArrived 0xFF#8) with prodEn := false }
       s.agenda = [.byteArrived 0xFF#8] ∧ s.prodEn = false)
    ∧ (let c : Command := { supervised 0x20000000#32 [] with inputs := { issuer := .producer, now := 0#32, linkAccepts := 0 } }
       let s := { scheduled (.issue c) with prodEn := false }
       s.agenda = [.issue c] ∧ c.inputs.issuer = .producer ∧ s.prodEn = false)
    ∧ (scheduled .prodDisable).agenda = [.prodDisable] ∧ (scheduled .prodEnable).agenda = [.prodEnable] := by decide

theorem witness_Reset :
    let s := { scheduled (.reset 0xFFFFFF00#32) with cInPump := true, pumpCount := 3, sinkBusy := true }
    s.cfg.wf = true ∧ s.fault = none ∧ s.agenda = [.reset 0xFFFFFF00#32] := by decide

theorem witness_FirstTrip :
    (let s : State := { State.atReset Config.testConfig 0xFFFFFF00#32 with
        inputs := { issuer := .supervisor, now := 0xF5#32, linkAccepts := 0 } }
     s = { State.atReset Config.testConfig 0xFFFFFF00#32 with
        inputs := { issuer := .supervisor, now := 0xF5#32, linkAccepts := 0 } })
    ∧ Config.testConfig.wdtT < (0xF5#32 - 0xFFFFFF00#32 : Time).toNat
    ∧ (0xF4#32 - 0xFFFFFF00#32 : Time).toNat ≤ Config.testConfig.wdtT := by decide

theorem witness_ResetMeetsTheInvariant : Config.testConfig.wf = true := by decide

theorem witness_EveryStep : Inv loaded ∧ ∃ t, step loaded = .next t := ⟨loaded_inv, _, rfl⟩

theorem witness_InvariantExcludes :
    Inv { full with agenda := [.pump] } ∧ step { full with agenda := [.pump] } = .fault .stuck :=
  ⟨full_inv.congr rfl rfl rfl rfl rfl rfl rfl rfl rfl rfl, rfl⟩

end Sys2Proof.Tests
end

section
/-! What one step can do, said once: an inversion lemma for the instructions and one for the schedule's entries. The
statements about what every step keeps, and about who changes what, are read off these two (10_state.md R22 to R34). -/

namespace Sys2Proof.Machine

/-! ## Steps that leave the store, the counters and the actuators alone -/

/-- The parameters, the storage, the queue, the duties, the last command time, the counters and the pump are the same in
both states; the other elements may differ. -/
structure SameCore (s t : State) : Prop where
  eq : t = { s with crcAcc := t.crcAcc, fault := t.fault, prodEn := t.prodEn, sinkBusy := t.sinkBusy, codec := t.codec
                    inputs := t.inputs, result := t.result, rxResult := t.rxResult, linkOut := t.linkOut
                    msgOut := t.msgOut, agenda := t.agenda }

theorem SameCore.cfg {s t : State} (h : SameCore s t) : t.cfg = s.cfg := by rw [h.eq]

theorem SameCore.duty {s t : State} (h : SameCore s t) : t.duty = s.duty := by rw [h.eq]

theorem SameCore.lastCmdTime {s t : State} (h : SameCore s t) : t.lastCmdTime = s.lastCmdTime := by
  rw [h.eq]

theorem SameCore.cnt {s t : State} (h : SameCore s t) : t.cnt = s.cnt := by rw [h.eq]

/-- The invariant reads nothing but what `SameCore` keeps. -/
theorem Inv.of_sameCore {s t : State} (hi : Inv s) (h : SameCore s t) : Inv t :=
  hi.congr h.cfg (by rw [h.eq]) (by rw [h.eq]) (by rw [h.eq]) (by rw [h.eq]) (by rw [h.eq]) (by rw [h.eq]) h.duty
    (by rw [h.eq]) (by rw [h.eq])

/-- An answered result moves nothing of the core. -/
theorem SameCore.of_answer {r : OpResult} {s u t : State} (hu : SameCore s u) (h : answer r u = .next t) :
    SameCore s t := by
  obtain rfl := (answer_eq_next ..).mp h
  exact ⟨by rw [hu.eq]; rfl⟩

theorem SameCore.of_takeFault {why : Misuse} {s t : State} (h : takeFault why s = .next t) : SameCore s t := by
  obtain rfl := (takeFault_eq_next ..).mp h
  exact ⟨rfl⟩

theorem SameCore.of_codecAfter {s t : State} {c : Option Codec} (h : codecAfter s c = .next t) : SameCore s t := by
  obtain ⟨d, r, hd⟩ := codecAfter_eq_next s c
  rw [hd] at h
  cases h
  exact ⟨rfl⟩

theorem SameCore.of_execCrc8Check {bytes : List Byte} {s t : State} (h : execCrc8Check bytes s = .next t) :
    SameCore s t := by
  unfold execCrc8Check at h
  split at h
  · exact .of_answer ⟨rfl⟩ h
  · exact .of_answer ⟨rfl⟩ h

theorem SameCore.of_execStatRead {k : Byte} {s t : State} (h : execStatRead k s = .next t) : SameCore s t := by
  unfold execStatRead at h
  split at h
  · exact .of_answer ⟨rfl⟩ h
  · exact .of_answer ⟨rfl⟩ h

/-! ## What an instruction can do -/

/-- What instruction `i` has done where it answers the next state `t` from `s`. Each case names the agent it needs. -/
inductive ExecEffect (s : State) : Instr → State → Prop
  /-- A query, an `ILLEGAL`, a fault, a step of the checksum or of the codec, or a link write that is not short. -/
  | still {i : Instr} {t : State} (h : SameCore s t) : ExecEffect s i t
  /-- A short link write (44_frame.md R137). -/
  | shortWrite {ch : Byte} {p : List Byte} (r : Option OpResult) (l : List Byte) :
      ExecEffect s (.txFrame ch p) { s.raise .txShort with result := r, linkOut := l }
  | push {b : Byte} {r : OpResult} {u : State} (ho : s.inputs.issuer = .producer) (h : pushByte b s = .ok (r, u)) :
      ExecEffect s (.fifoPush b) (u.answer r)
  | pop {b : Option Byte} {u : State} (ho : s.inputs.issuer = .consumer) (h : popByte s = .ok (b, u)) :
      ExecEffect s .fifoPop (u.answer (popResult b))
  | clear : ExecEffect s .fifoClear (State.answer { s with fifoRd := 0, fifoWr := 0 } .okPlain)
  | receive {r : OpResult} {u : State} (ho : s.inputs.issuer = .consumer) (h : receiveByte s = .ok (r, u)) :
      ExecEffect s .rxStep (u.answer r)
  | startPump {t : State} (ho : s.inputs.issuer = .consumer)
      (h : pumpIteration { s with cInPump := true, pumpCount := 0 } = .next t) : ExecEffect s .rxPump t
  | dropSet {cs : CommandSet} (ho : s.inputs.issuer = .consumer) :
      ExecEffect s (.cmdEnq cs) ((s.raise .cmdqDrop).answer .nonePlain)
  | enqueue {cs : CommandSet} (ho : s.inputs.issuer = .consumer) (hq : s.cmdq.length ≠ s.cfg.qDepth) :
      ExecEffect s (.cmdEnq cs) (State.answer { s with cmdq := s.cmdq ++ [cs] } .okPlain)
  | supervise (ho : s.inputs.issuer = .supervisor) (r : OpResult) :
      ExecEffect s .supStep ((supervise s).2.answer r)
  | throttle {k : Byte} {v : Word64} {m : Motor} (ho : s.inputs.issuer = .supervisor) (hm : m ∈ s.cfg.motors)
      (r : OpResult) : ExecEffect s (.setThrottle k v) ((driveThrottle k.toNat m v s).2.answer r)
  | pulse {k : Byte} {us : BitVec 16} {m : Motor} (ho : s.inputs.issuer = .supervisor) (hm : m ∈ s.cfg.motors)
      (r : OpResult) : ExecEffect s (.setDutyUs k us) ((drivePulse k.toNat m us.toNat s).2.answer r)
  | neutral (ho : s.inputs.issuer = .supervisor) : ExecEffect s .neutralAll ((neutralise s).answer .okPlain)

/-- An owned operation has its owner's effect, or takes `fault(WRONG_AGENT)`. -/
theorem ExecEffect.of_ownedBy {a : Agent} {op : State → Answer} {i : Instr} {s t : State}
    (h : ownedBy a op s = .next t) (hop : s.inputs.issuer = a → op s = .next t → ExecEffect s i t) :
    ExecEffect s i t := by
  rcases ownedBy_next h with ⟨ho, h⟩ | ⟨-, rfl⟩
  · exact hop ho h
  · exact .still ⟨rfl⟩

/-- So does a guarded operation of the receiver. -/
theorem ExecEffect.of_notReentrant {op : State → Answer} {i : Instr} {s t : State}
    (h : notReentrant op s = .next t) (hop : op s = .next t → ExecEffect s i t) : ExecEffect s i t := by
  rcases notReentrant_next h with ⟨-, h⟩ | ⟨-, rfl⟩
  · exact hop h
  · exact .still ⟨rfl⟩

/-- A driver operation has its rule's effect on a motor that is there, and none otherwise. -/
theorem ExecEffect.of_withMotor {k : Byte} {op : Nat → Motor → State → OpResult × State} {i : Instr} {s t : State}
    (h : withMotor k op s = .next t)
    (hop : ∀ m ∈ s.cfg.motors, s.inputs.issuer = .supervisor →
      ExecEffect s i ((op k.toNat m s).2.answer (op k.toNat m s).1)) : ExecEffect s i t := by
  cases hm : s.cfg.motors[k.toNat]? with
  | none =>
    rw [withMotor_none hm] at h
    exact .still (.of_answer ⟨rfl⟩ h)
  | some m =>
    rw [withMotor_some hm] at h
    split at h
    · next ho =>
      obtain rfl := (answer_eq_next ..).mp h
      exact hop m (List.mem_of_getElem? hm) ho
    · exact .still (.of_takeFault h)

theorem execFifoPush_effect {b : Byte} {s t : State} (h : execFifoPush b s = .next t) :
    ExecEffect s (.fifoPush b) t := by
  refine .of_ownedBy h fun ho h => ?_
  split at h
  · obtain ⟨r, u, hp, rfl⟩ := finish_eq_next.mp h
    exact .push ho hp
  · cases h

theorem execFifoPop_effect {s t : State} (h : execFifoPop s = .next t) : ExecEffect s .fifoPop t := by
  refine .of_ownedBy h fun ho h => ?_
  split at h
  · cases h
  · next hp =>
    obtain rfl := (answer_eq_next ..).mp h
    exact .pop ho hp

theorem execFifoClear_effect {s t : State} (h : execFifoClear s = .next t) : ExecEffect s .fifoClear t := by
  unfold execFifoClear at h
  split at h
  · obtain rfl := (answer_eq_next ..).mp h
    exact .clear
  · exact .still (.of_takeFault h)

theorem execRxStep_effect {s t : State} (h : execRxStep s = .next t) : ExecEffect s .rxStep t := by
  refine .of_ownedBy h fun ho h => .of_notReentrant h fun h => ?_
  obtain ⟨r, u, hr, rfl⟩ := finish_eq_next.mp h
  exact .receive ho hr

theorem execTxFrame_effect {ch : Byte} {p : List Byte} {s t : State} (h : execTxFrame ch p s = .next t) :
    ExecEffect s (.txFrame ch p) t := by
  unfold execTxFrame at h
  dsimp only at h
  split at h
  · obtain rfl := (answer_eq_next ..).mp h
    exact .shortWrite _ _
  · exact .still (.of_answer ⟨rfl⟩ h)

theorem execCmdEnq_effect {cs : CommandSet} {s t : State} (h : execCmdEnq cs s = .next t) :
    ExecEffect s (.cmdEnq cs) t := by
  refine .of_ownedBy h fun ho h => ?_
  split at h
  · obtain rfl := (answer_eq_next ..).mp h
    exact .dropSet ho
  · next hq =>
    obtain rfl := (answer_eq_next ..).mp h
    exact .enqueue ho (by simpa [intakeFull] using hq)

theorem execSupStep_effect {s t : State} (h : execSupStep s = .next t) : ExecEffect s .supStep t := by
  refine .of_ownedBy h fun ho h => ?_
  obtain rfl := (answer_eq_next ..).mp h
  exact .supervise ho _

theorem execSetThrottle_effect {k : Byte} {v : Word64} {s t : State} (h : execSetThrottle k v s = .next t) :
    ExecEffect s (.setThrottle k v) t :=
  .of_withMotor h fun _ hm ho => .throttle ho hm _

theorem execSetDutyUs_effect {k : Byte} {us : BitVec 16} {s t : State} (h : execSetDutyUs k us s = .next t) :
    ExecEffect s (.setDutyUs k us) t :=
  .of_withMotor h fun _ hm ho => .pulse ho hm _

theorem execNeutralAll_effect {s t : State} (h : execNeutralAll s = .next t) : ExecEffect s .neutralAll t := by
  refine .of_ownedBy h fun ho h => ?_
  obtain rfl := (answer_eq_next ..).mp h
  exact .neutral ho

/-- What an instruction that answers a next state has done. -/
theorem exec_effect {i : Instr} {s t : State} (h : exec i s = .next t) : ExecEffect s i t := by
  cases i with
  | crc8Init => exact .still (.of_answer ⟨rfl⟩ h)
  | crc8Step b => exact .still (.of_answer ⟨rfl⟩ h)
  | crc8 bytes => exact .still (.of_answer ⟨rfl⟩ h)
  | crc8Check bytes => exact .still (.of_execCrc8Check h)
  | cobsEnc bytes => exact .still (.of_answer ⟨rfl⟩ h)
  | cobsDec frame => exact .still (.of_answer ⟨rfl⟩ h)
  | fifoPush b => exact execFifoPush_effect h
  | fifoPop => exact execFifoPop_effect h
  | fifoClear => exact execFifoClear_effect h
  | fifoLevel => exact .still (.of_answer ⟨rfl⟩ h)
  | rxStep => exact execRxStep_effect h
  | rxPump => exact .of_ownedBy h fun ho h => .of_notReentrant h fun h => .startPump ho h
  | txFrame ch p => exact execTxFrame_effect h
  | cmdEnq cs => exact execCmdEnq_effect h
  | supStep => exact execSupStep_effect h
  | setThrottle k v => exact execSetThrottle_effect h
  | setDutyUs k us => exact execSetDutyUs_effect h
  | neutralAll => exact execNeutralAll_effect h
  | statRead k => exact .still (.of_execStatRead h)
  | cobsCodeZero => exact .still (.of_codecAfter (c := none) h)
  | cobsCodeFull => exact .still (.of_codecAfter h)
  | cobsCodeRun c => exact .still (.of_codecAfter h)

/-! ## What a step can do -/

/-- What a step that answers the next state `t` from `s` has done. -/
inductive StepEffect (s : State) : State → Prop
  /-- An idle step, an action of the environment on the hook, the sink or the codec, or an `ILLEGAL` command. -/
  | still {t : State} (h : SameCore s t) : StepEffect s t
  | command {c : Command} {rest : List Action} {i : Instr} {t : State} (ha : s.agenda = .issue c :: rest)
      (hd : decodeCommand c.word c.data = .ok i) (h : ExecEffect { s with agenda := rest, inputs := c.inputs } i t) :
      StepEffect s t
  | arrival {b : Byte} {rest : List Action} {t : State} (ha : s.agenda = .byteArrived b :: rest)
      (h : ExecEffect { s with agenda := rest, inputs := { s.inputs with issuer := .producer } } (.fifoPush b) t) :
      StepEffect s t
  | pump {rest : List Action} {t : State}
      (h : pumpIteration { s with agenda := rest, inputs := { s.inputs with issuer := .consumer } } = .next t) :
      StepEffect s t
  | reset {now : Time} {rest : List Action} (ha : s.agenda = .reset now :: rest) :
      StepEffect s (resetBlock now { s with agenda := rest })

/-- C's next step of its pump is a pump iteration. -/
theorem continuePump_next {s t : State} (h : continuePump s = .next t) :
    pumpIteration { s with inputs := { s.inputs with issuer := .consumer } } = .next t := by
  unfold continuePump pumpStep at h
  split at h
  · exact h
  · cases h

/-- A code byte decodes to one of the codec's own classes, which leave the core alone. -/
theorem SameCore.of_exec_decodeCode {c : Byte} {s t : State} (h : exec (decodeCode c) s = .next t) : SameCore s t := by
  unfold decodeCode at h
  split at h
  · exact .of_codecAfter (c := none) h
  · split at h
    · exact .of_codecAfter (c := cobsTakeRun 254 false s.codec) h
    · exact .of_codecAfter h

theorem SameCore.of_runCodec {s t : State} (h : runCodec s = .next t) : SameCore s t := by
  unfold runCodec at h
  split at h
  · cases h
  · exact ⟨(SameCore.of_exec_decodeCode h).eq⟩

theorem SameCore.of_loadFrame {f : List Byte} {s t : State} (h : loadFrame f s = .next t) : SameCore s t := by
  unfold loadFrame at h
  split at h
  · exact .of_answer ⟨rfl⟩ h
  · cases h
    exact ⟨rfl⟩

/-- What a scheduled action that answers a next state has done. -/
theorem act_effect {s t : State} {a : Action} {rest : List Action} (ha : s.agenda = a :: rest)
    (h : act a { s with agenda := rest } = .next t) : StepEffect s t := by
  cases a with
  | issue c =>
    obtain ⟨-, ⟨i, hd, h⟩ | ⟨why, -, rfl⟩⟩ := issueCommand_next h
    · exact .command ha hd (exec_effect h)
    · exact .still ⟨rfl⟩
  | pump => exact .pump (continuePump_next (s := { s with agenda := rest }) h)
  | byteArrived b =>
    change byteArrives b _ = _ at h
    unfold byteArrives at h
    split at h
    · exact .arrival ha (exec_effect h)
    · cases h
      exact .still ⟨rfl⟩
  | sinkReturn => cases h; exact .still ⟨rfl⟩
  | prodDisable => cases h; exact .still ⟨rfl⟩
  | prodEnable => cases h; exact .still ⟨rfl⟩
  | reset now => cases h; exact .reset ha
  | codecFrame f => exact .still ⟨(SameCore.of_loadFrame h).eq⟩
  | codecRun => exact .still ⟨(SameCore.of_runCodec h).eq⟩

/-- What a step that answers a next state has done. -/
theorem step_effect {s t : State} (h : step s = .next t) : StepEffect s t := by
  obtain ⟨-, -, ⟨a, rest, ha, h⟩ | ⟨ha, h⟩⟩ := step_next h
  · exact act_effect ha h
  · unfold actUnscheduled at h
    split at h
    · exact .pump (rest := s.agenda) (continuePump_next h)
    · cases h
      exact .still ⟨rfl⟩

end Sys2Proof.Machine
end

section
/-! Every operation keeps the invariant, piece by piece in the order of the model's files, and so every step does
(10_state.md R22 to R30; 00_scope.md R7). -/

namespace Sys2Proof.Machine

/-! ## The FIFO -/

/-- With one index equal to the other nothing is pending. -/
theorem fifoLevel_of_eq {s : State} (h : s.fifoRd = s.fifoWr) : fifoLevel s = 0 := by
  simp [fifoLevel, h]

theorem nextIndex_lt {s : State} (hi : Inv s) (i : Nat) : nextIndex s i < s.cfg.fifoN :=
  Nat.mod_lt _ (Nat.zero_lt_of_lt hi.fifoRdLt)

/-- A push into a FIFO that is not full makes one more byte pending, behind those that were. -/
theorem fifoLevel_push {s : State} (hi : Inv s) (hf : fifoFull s = false) (m : Memory) :
    fifoLevel { s with fifoMem := m, fifoWr := nextIndex s s.fifoWr } = fifoLevel s + 1
      ∧ pendingSlot s (fifoLevel s) = s.fifoWr := by
  have hr := hi.fifoRdLt
  have hw := hi.fifoWrLt
  have hne : nextIndex s s.fifoWr ≠ s.fifoRd := by
    intro h; rw [(fifoFull_eq_true s).mpr h] at hf; cases hf
  have hlt := fifoLevel_lt hr hw
  rw [fifoLevel_eq (s := { s with fifoMem := m, fifoWr := nextIndex s s.fifoWr }) hr (nextIndex_lt hi _),
    pendingSlot_eq hr hlt, fifoLevel_eq hr hw]
  rw [nextIndex_eq hw] at hne ⊢
  dsimp only
  split_ifs at hne ⊢ <;> omega

/-- A pop from a FIFO that is not empty leaves one byte less pending, and those left one place nearer the front. -/
theorem fifoLevel_pop {s : State} (hi : Inv s) (hne : s.fifoRd ≠ s.fifoWr) :
    fifoLevel { s with fifoRd := nextIndex s s.fifoRd } + 1 = fifoLevel s
      ∧ ∀ j, j + 1 < fifoLevel s → pendingSlot { s with fifoRd := nextIndex s s.fifoRd } j = pendingSlot s (j + 1) := by
  have hr := hi.fifoRdLt
  have hw := hi.fifoWrLt
  have hlt := fifoLevel_lt hr hw
  have hr' := nextIndex_lt hi s.fifoRd
  constructor
  · rw [fifoLevel_eq (s := { s with fifoRd := nextIndex s s.fifoRd }) hr' hw, fifoLevel_eq hr hw, nextIndex_eq hr]
    dsimp only
    split_ifs <;> omega
  · intro j hj
    rw [pendingSlot_eq (s := { s with fifoRd := nextIndex s s.fifoRd }) hr' (by dsimp only; omega),
      pendingSlot_eq hr (by omega), nextIndex_eq hr]
    dsimp only
    split_ifs <;> omega

/-- The byte of the read slot of a FIFO that is not empty is there. -/
theorem Inv.read_fifoRd {s : State} (hi : Inv s) (hne : s.fifoRd ≠ s.fifoWr) :
    ∃ b, Memory.read s.fifoMem s.fifoRd = some b := by
  have hpos : 0 < fifoLevel s := by have := (fifoLevel_pop hi hne).1; omega
  have h := hi.fifoFilled 0 hpos
  rw [pendingSlot_eq hi.fifoRdLt (Nat.zero_lt_of_lt hi.fifoRdLt), if_pos (by simpa using hi.fifoRdLt)] at h
  exact Option.isSome_iff_exists.mp h

theorem Inv.raise {s : State} (hi : Inv s) (e : Event) : Inv (s.raise e) :=
  hi.congr rfl rfl rfl rfl rfl rfl rfl rfl rfl rfl

/-- A push keeps the invariant. -/
theorem Inv.pushByte {b : Byte} {s t : State} {r : OpResult} (hi : Inv s) (h : pushByte b s = .ok (r, t)) : Inv t := by
  rcases pushByte_eq_ok.mp h with ⟨-, -, rfl⟩ | ⟨hf, hw, -, rfl⟩
  · exact hi.raise _
  · obtain ⟨hlevel, hslot⟩ := fifoLevel_push hi hf (Memory.write s.fifoMem s.fifoWr b)
    refine { hi with
      fifoMemWf := Memory.wf_write _ _ hi.fifoMemWf
      fifoMemBelow := Memory.below_write _ hw hi.fifoMemBelow
      fifoWrLt := nextIndex_lt hi _
      fifoFilled := fun j hj => ?_ }
    rw [hlevel] at hj
    change (Memory.read (Memory.write _ _ _) (pendingSlot s j)).isSome = true
    rw [Memory.read_write]
    split
    · rfl
    · next hne =>
      have : j ≠ fifoLevel s := fun e => hne (e ▸ hslot)
      exact hi.fifoFilled j (by omega)

/-- The read index advanced over a pending byte keeps the invariant. -/
theorem Inv.advanceRead {s : State} (hi : Inv s) (hne : s.fifoRd ≠ s.fifoWr) :
    Inv { s with fifoRd := nextIndex s s.fifoRd } := by
  obtain ⟨hlevel, hslot⟩ := fifoLevel_pop hi hne
  refine { hi with fifoRdLt := nextIndex_lt hi _, fifoFilled := fun j hj => ?_ }
  rw [hslot j (by omega)]
  exact hi.fifoFilled _ (by omega)

/-- A pop keeps the invariant. -/
theorem Inv.popByte {b : Option Byte} {s t : State} (hi : Inv s) (h : popByte s = .ok (b, t)) : Inv t := by
  rcases popByte_eq_ok.mp h with ⟨-, -, rfl⟩ | ⟨hne, x, -, -, rfl⟩
  · exact hi
  · exact hi.advanceRead hne

/-- FIFO_CLEAR's indices keep the invariant. -/
theorem Inv.clear {s : State} (hi : Inv s) : Inv { s with fifoRd := 0, fifoWr := 0 } :=
  have hpos : 0 < s.cfg.fifoN := Nat.zero_lt_of_lt hi.fifoRdLt
  { hi with
    fifoRdLt := hpos
    fifoWrLt := hpos
    fifoFilled := fun _ hj => by rw [fifoLevel_of_eq rfl] at hj; omega }

/-! ## The receiver -/

/-- The buffer cleared, the invariant is kept. -/
theorem Inv.clearAcc {s : State} (hi : Inv s) : Inv { s with accLen := 0 } :=
  { hi with accLenLe := Nat.zero_le _, accFilled := fun _ h => absurd h (Nat.not_lt_zero _) }

/-- A byte that is no delimiter, appended where there is room, keeps the invariant. -/
theorem Inv.append {b : Byte} {s : State} (hi : Inv s) (hb : b ≠ 0x00#8) (hlt : s.accLen < s.cfg.accMax) :
    Inv { s with accMem := Memory.write s.accMem s.accLen b, accLen := s.accLen + 1 } := by
  refine { hi with
    accMemWf := Memory.wf_write _ _ hi.accMemWf
    accMemBelow := Memory.below_write _ hlt hi.accMemBelow
    accLenLe := hlt
    accFilled := fun a ha => ?_ }
  rw [Memory.read_write]
  split
  · exact ⟨b, rfl, hb⟩
  · exact hi.accFilled a (by dsimp only at ha; omega)

theorem Inv.validateFrame {frame : List Byte} {s t : State} {code : RxCode} (hi : Inv s)
    (h : (code, t) = validateFrame frame s) : Inv t := by
  rcases validateFrame_cases frame s with ⟨e, -, hv⟩ | ⟨ch, p, -, hv⟩
  · rw [hv] at h; cases h
    exact hi.raise e
  · rw [hv] at h; cases h
    exact hi.congr rfl rfl rfl rfl rfl rfl rfl rfl rfl rfl

/-- A byte taken by the receiver keeps the invariant. -/
theorem Inv.takeByte {b : Byte} {s t : State} {code : RxCode} (hi : Inv s) (h : takeByte b s = .ok (code, t)) :
    Inv t := by
  rcases takeByte_eq_ok.mp h with ⟨-, -, -, rfl⟩ | ⟨-, -, frame, -, hv⟩ | ⟨-, -, -, rfl⟩ | ⟨hb, hlt, -, rfl⟩
  · exact hi
  · exact hi.clearAcc.validateFrame hv
  · exact hi.clearAcc.raise _
  · exact hi.append hb hlt

/-- One iteration of the receiver keeps the invariant. -/
theorem Inv.receiveByte {s t : State} {r : OpResult} (hi : Inv s) (h : receiveByte s = .ok (r, t)) : Inv t := by
  rcases receiveByte_eq_ok.mp h with ⟨-, -, rfl⟩ | ⟨hne, b, code, u, -, hu, -, rfl⟩
  · exact hi.of_sameCore ⟨rfl⟩
  · exact ((hi.advanceRead hne).takeByte hu).of_sameCore ⟨rfl⟩

/-- The pump's own fields may take any value in which no count stands outside a pump. -/
theorem Inv.withPump {s : State} (hi : Inv s) (p : Bool) (n : Nat) (h : p = false → n = 0) :
    Inv { s with cInPump := p, pumpCount := n } :=
  { hi with pumpIdle := h }

/-- One iteration of a pump keeps the invariant. -/
theorem Inv.pumpIteration {s t : State} (hi : Inv s) (h : pumpIteration s = .next t) : Inv t := by
  obtain ⟨r, u, hr, ⟨-, rfl⟩ | ⟨-, rfl⟩⟩ := pumpIteration_eq_next.mp h
  · exact ((hi.receiveByte hr).withPump false 0 fun _ => rfl).of_sameCore ⟨rfl⟩
  · exact ((hi.receiveByte hr).withPump true (u.pumpCount + 1) nofun).of_sameCore ⟨rfl⟩

/-! ## The intake queue and the duties -/

theorem Inv.enqueue {s : State} (hi : Inv s) (cs : CommandSet) (hq : s.cmdq.length ≠ s.cfg.qDepth) :
    Inv { s with cmdq := s.cmdq ++ [cs] } := by
  refine { hi with cmdqLe := ?_ }
  have := hi.cmdqLe
  simp only [List.length_append, List.length_singleton]
  omega

theorem Inv.dequeue {s : State} (hi : Inv s) {cs : CommandSet} {rest : List CommandSet} (hq : s.cmdq = cs :: rest) :
    Inv { s with cmdq := rest } := by
  refine { hi with cmdqLe := ?_ }
  have := hi.cmdqLe
  rw [hq, List.length_cons] at this
  exact Nat.le_of_succ_le this

/-- A duty of at most full scale may be written. -/
theorem Inv.setDuty {s : State} (hi : Inv s) (i : Nat) {d : Nat} (hd : d ≤ 2 ^ s.cfg.dutyResBits) :
    Inv (setDuty s i d) := by
  refine { hi with dutyLength := by simpa using hi.dutyLength, dutyLe := fun x hx => ?_ }
  rcases List.mem_or_eq_of_mem_set hx with h | rfl
  · exact hi.dutyLe x h
  · exact hd

theorem Inv.neutralise {s : State} (hi : Inv s) : Inv (neutralise s) :=
  { hi with dutyLength := neutralDuties_length _, dutyLe := fun _ => neutralDuties_le hi.cfgWf }

theorem Inv.withLastCmdTime {s : State} (hi : Inv s) (now : Time) : Inv { s with lastCmdTime := now } :=
  hi.congr rfl rfl rfl rfl rfl rfl rfl rfl rfl rfl

theorem Inv.driveThrottle {s : State} (hi : Inv s) (i : Nat) {m : Motor} (hm : m ∈ s.cfg.motors) (v : Word64) :
    Inv (driveThrottle i m v s).2 := by
  rcases driveThrottle_cases i m v s with ⟨-, h⟩ | ⟨c, hc, h⟩
  · rw [h]; exact hi.raise _
  · rw [h]; exact hi.setDuty i (throttleDuty_le hi.cfgWf hm hc)

theorem Inv.drivePulse {s : State} (hi : Inv s) (i : Nat) {m : Motor} (hm : m ∈ s.cfg.motors) (us : Int) :
    Inv (drivePulse i m us s).2 := by
  rcases drivePulse_cases i m us s with ⟨-, h⟩ | ⟨hlo, hhi, h⟩
  · rw [h]; exact hi.raise _
  · rw [h]; exact hi.setDuty i (pulseDuty_le hi.cfgWf hm hlo hhi)

/-! ## The supervisor's step -/

theorem Inv.applyEntry {s : State} (hi : Inv s) (e : Entry) : Inv (applyEntry e s) := by
  rcases applyEntry_cases hi.cfgWf e with h | h | ⟨i, d, -, hd, h⟩
  · rw [h]; exact hi
  · rw [h]; exact hi.raise _
  · rw [h]; exact (hi.setDuty i hd).withLastCmdTime _

theorem Inv.applyEntries {s : State} (hi : Inv s) (es : CommandSet) : Inv (applyEntries es s) := by
  induction es generalizing s with
  | nil => exact hi
  | cons e es ih => exact ih (hi.applyEntry e)

theorem Inv.wdtCheck {s : State} (hi : Inv s) : Inv (wdtCheck s).2 := by
  rcases wdtCheck_cases s with ⟨-, h⟩ | ⟨-, h⟩
  · rw [h]; exact (hi.neutralise.withLastCmdTime _).raise _
  · rw [h]; exact hi

/-- One iteration of the supervisor keeps the invariant. -/
theorem Inv.supervise {s : State} (hi : Inv s) : Inv (supervise s).2 := by
  unfold Machine.supervise
  split
  · exact hi.wdtCheck
  · next cs rest hq =>
    have happly := (hi.dequeue hq).applyEntries cs
    unfold supervisorCommand
    dsimp only
    split
    · exact happly.wdtCheck
    · exact happly

/-! ## Reset, the instructions and the step -/

/-- The reset state of a well-formed configuration meets the invariant (70_reset_and_hazards.md R230). -/
theorem Inv.atReset {c : Config} (hc : c.wf = true) (now : Time) : Inv (State.atReset c now) :=
  have hpos : 0 < c.fifoN := Nat.zero_lt_of_lt ((Config_wf_iff c).mp hc).1
  { cfgWf := hc
    fifoMemWf := rfl
    fifoMemBelow := rfl
    fifoRdLt := hpos
    fifoWrLt := hpos
    fifoFilled := fun _ hj => by rw [fifoLevel_of_eq rfl] at hj; omega
    accMemWf := rfl
    accMemBelow := rfl
    accLenLe := Nat.zero_le _
    accFilled := fun _ h => absurd h (Nat.not_lt_zero _)
    cmdqLe := Nat.zero_le _
    dutyLength := neutralDuties_length c
    dutyLe := fun _ => neutralDuties_le hc
    pumpIdle := fun _ => rfl }

theorem Inv.answer {s : State} (hi : Inv s) (r : OpResult) : Inv (s.answer r) := hi.of_sameCore ⟨rfl⟩

/-- Every instruction keeps the invariant. -/
theorem Inv.execEffect {i : Instr} {s t : State} (hi : Inv s) (h : ExecEffect s i t) : Inv t := by
  cases h with
  | still h => exact hi.of_sameCore h
  | shortWrite r l => exact (hi.raise .txShort).of_sameCore ⟨rfl⟩
  | push _ h => exact (hi.pushByte h).answer _
  | pop _ h => exact (hi.popByte h).answer _
  | clear => exact hi.clear.answer _
  | receive _ h => exact (hi.receiveByte h).answer _
  | startPump _ h => exact (hi.withPump true 0 nofun).pumpIteration h
  | dropSet _ => exact (hi.raise _).answer _
  | enqueue _ hq => exact (hi.enqueue _ hq).answer _
  | supervise _ r => exact hi.supervise.answer _
  | throttle _ hm r => exact (hi.driveThrottle _ hm _).answer _
  | pulse _ hm r => exact (hi.drivePulse _ hm _).answer _
  | neutral _ => exact hi.neutralise.answer _

/-- Settles O59: each thing a step can do keeps the invariant. -/
theorem everyStepKeepsTheInvariant : Obligations.EveryStepKeepsTheInvariant := by
  intro s t hi h
  cases step_effect h with
  | still h => exact hi.of_sameCore h
  | command _ _ h => exact (hi.of_sameCore ⟨rfl⟩).execEffect h
  | arrival _ h => exact (hi.of_sameCore ⟨rfl⟩).execEffect h
  | pump h => exact (hi.of_sameCore ⟨rfl⟩).pumpIteration h
  | reset _ => exact (Inv.atReset hi.cfgWf _).of_sameCore ⟨rfl⟩

end Sys2Proof.Machine
end

section
/-! Who changes what: the parameters, the duties and the last command time, and the counters, over every instruction and
every step (10_state.md R30 to R34; 45_motor.md R163). -/

namespace Sys2Proof.Machine

/-! ## What the shared operations leave alone -/

/-- A pop moves the read index at most. -/
theorem popByte_frame {b : Option Byte} {s t : State} (h : popByte s = .ok (b, t)) :
    t = { s with fifoRd := t.fifoRd } := by
  rcases popByte_eq_ok.mp h with ⟨-, -, rfl⟩ | ⟨-, x, -, -, rfl⟩ <;> rfl

/-- A push moves the storage, the write index and the counters at most. -/
theorem pushByte_frame {b : Byte} {s t : State} {r : OpResult} (h : pushByte b s = .ok (r, t)) :
    t = { s with fifoMem := t.fifoMem, fifoWr := t.fifoWr, cnt := t.cnt } := by
  rcases pushByte_eq_ok.mp h with ⟨-, -, rfl⟩ | ⟨-, -, -, rfl⟩ <;> rfl

/-- One iteration of a pump leaves the parameters, the actuators and the inputs alone. -/
theorem pumpIteration_frame {s t : State} (h : pumpIteration s = .next t) :
    t.cfg = s.cfg ∧ t.duty = s.duty ∧ t.lastCmdTime = s.lastCmdTime ∧ t.inputs = s.inputs := by
  obtain ⟨r, u, hr, hu⟩ := pumpIteration_eq_next.mp h
  obtain ⟨hcfg, -, -, -, -, hduty, htime, -, -, -, -, -, hin, -⟩ := receiveByte_frame hr
  rcases hu with ⟨-, rfl⟩ | ⟨-, rfl⟩ <;> exact ⟨hcfg, hduty, htime, hin⟩

/-- A driver rule moves one duty and the counters at most. -/
theorem driveThrottle_frame (i : Nat) (m : Motor) (v : Word64) (s : State) :
    (driveThrottle i m v s).2
      = { s with duty := (driveThrottle i m v s).2.duty, cnt := (driveThrottle i m v s).2.cnt } := by
  rcases driveThrottle_cases i m v s with ⟨-, h⟩ | ⟨c, -, h⟩ <;> rw [h] <;> rfl

theorem drivePulse_frame (i : Nat) (m : Motor) (us : Int) (s : State) :
    (drivePulse i m us s).2
      = { s with duty := (drivePulse i m us s).2.duty, cnt := (drivePulse i m us s).2.cnt } := by
  rcases drivePulse_cases i m us s with ⟨-, h⟩ | ⟨-, -, h⟩ <;> rw [h] <;> rfl

/-! ## The parameters -/

/-- No instruction changes the parameters. -/
theorem ExecEffect.cfg {i : Instr} {s t : State} (h : ExecEffect s i t) : t.cfg = s.cfg := by
  cases h with
  | still h => exact h.cfg
  | shortWrite r l => rfl
  | push _ h => rw [State.answer_cfg, pushByte_frame h]
  | pop _ h => rw [State.answer_cfg, popByte_frame h]
  | clear => rfl
  | receive _ h => exact (receiveByte_frame h).1
  | startPump _ h => exact (pumpIteration_frame h).1
  | dropSet _ => rfl
  | enqueue _ _ => rfl
  | supervise _ r => rw [State.answer_cfg, (supervise_frame s).eq]
  | throttle _ _ r => rw [State.answer_cfg, driveThrottle_frame]
  | pulse _ _ r => rw [State.answer_cfg, drivePulse_frame]
  | neutral _ => rfl

/-- Settles O54: no instruction, no action of the environment and no RESET writes the parameters. -/
theorem parametersNeverChange : Obligations.ParametersNeverChange := by
  intro s t h
  cases step_effect h with
  | still h => exact h.cfg
  | command _ _ h => exact h.cfg
  | arrival _ h => exact h.cfg
  | pump h => exact (pumpIteration_frame h).1
  | reset _ => rfl

/-! ## The actuators -/

/-- An instruction leaves the duties and the last command time alone, or is one of S's own issued by S, of which SUP_STEP
alone moves the last command time. -/
theorem ExecEffect.actuators {i : Instr} {s t : State} (h : ExecEffect s i t) :
    (t.duty = s.duty ∧ t.lastCmdTime = s.lastCmdTime)
    ∨ (s.inputs.issuer = .supervisor ∧ ownerOfInstr i = some .supervisor
        ∧ (i = .supStep ∨ t.lastCmdTime = s.lastCmdTime)) := by
  cases h with
  | still h => exact .inl ⟨h.duty, h.lastCmdTime⟩
  | shortWrite r l => exact .inl ⟨rfl, rfl⟩
  | push _ h => rw [State.answer_duty, State.answer_lastCmdTime, pushByte_frame h]; exact .inl ⟨rfl, rfl⟩
  | pop _ h => rw [State.answer_duty, State.answer_lastCmdTime, popByte_frame h]; exact .inl ⟨rfl, rfl⟩
  | clear => exact .inl ⟨rfl, rfl⟩
  | receive _ h =>
    obtain ⟨-, -, -, -, -, hduty, htime, -⟩ := receiveByte_frame h
    exact .inl ⟨hduty, htime⟩
  | startPump _ h =>
    obtain ⟨-, hduty, htime, -⟩ := pumpIteration_frame h
    exact .inl ⟨hduty, htime⟩
  | dropSet _ => exact .inl ⟨rfl, rfl⟩
  | enqueue _ _ => exact .inl ⟨rfl, rfl⟩
  | supervise ho r => exact .inr ⟨ho, rfl, .inl rfl⟩
  | throttle ho _ r => exact .inr ⟨ho, rfl, .inr (by rw [State.answer_lastCmdTime, driveThrottle_frame])⟩
  | pulse ho _ r => exact .inr ⟨ho, rfl, .inr (by rw [State.answer_lastCmdTime, drivePulse_frame])⟩
  | neutral ho => exact .inr ⟨ho, rfl, .inr rfl⟩

/-- A step leaves the duties and the last command time alone, or is a RESET, or runs an instruction of S's own that S
issued, of which SUP_STEP alone moves the last command time. -/
theorem step_actuators {s t : State} (h : step s = .next t) :
    (t.duty = s.duty ∧ t.lastCmdTime = s.lastCmdTime)
    ∨ (∃ now rest, s.agenda = .reset now :: rest)
    ∨ ∃ (c : Command) (rest : List Action) (i : Instr), s.agenda = .issue c :: rest ∧ c.inputs.issuer = .supervisor
        ∧ decodeCommand c.word c.data = .ok i ∧ ownerOfInstr i = some .supervisor
        ∧ (i = .supStep ∨ t.lastCmdTime = s.lastCmdTime) := by
  cases step_effect h with
  | still h => exact .inl ⟨h.duty, h.lastCmdTime⟩
  | command ha hd h =>
    rcases h.actuators with hkept | ⟨ho, hown, hi⟩
    · exact .inl hkept
    · exact .inr (.inr ⟨_, _, _, ha, ho, hd, hown, hi⟩)
  | arrival _ h =>
    rcases h.actuators with hkept | ⟨-, hown, -⟩
    · exact .inl hkept
    · cases hown
  | pump h =>
    obtain ⟨-, hduty, htime, -⟩ := pumpIteration_frame h
    exact .inl ⟨hduty, htime⟩
  | reset ha => exact .inr (.inl ⟨_, _, ha⟩)

/-! ## The operation code of a decoded command -/

theorem opcOf_eq_of_toNat {w : CmdWord} {o : Byte} (h : (opcOf w).toNat = o.toNat) : o = opcOf w :=
  BitVec.eq_of_toNat_eq h.symm

theorem require_ok_right {ok : Bool} {why : Illegal} {k : Except Illegal Instr} {i : Instr}
    (h : require ok why k = .ok i) : k = .ok i := (require_eq_ok h).2

/-- The instruction that a command word decodes to is encoded with the same operation code. -/
theorem opcOf_encode_of_decode {w w' : CmdWord} {data data' : List Byte} {i : Instr}
    (h : decodeCommand w data = .ok i) (he : encode i = .command w' data') : opcOf w' = opcOf w := by
  have h := (decodeCommand_eq_ok h).1
  unfold decodeFields at h
  dsimp only at h
  split at h <;>
  · next hopc =>
    repeat replace h := require_ok_right h
    cases h <;> cases he <;> exact (opcOf_packWord ..).trans (opcOf_eq_of_toNat hopc)

/-- A command that decodes to an instruction of S's own has one of S's four operation codes. -/
theorem opcOf_of_supervisorOwned {w : CmdWord} {data : List Byte} {i : Instr} (hd : decodeCommand w data = .ok i)
    (ho : ownerOfInstr i = some .supervisor) :
    opcOf w = 0x41#8 ∨ opcOf w = 0x42#8 ∨ opcOf w = 0x43#8 ∨ opcOf w = 0x44#8 := by
  cases i with
  | supStep => exact .inl (by simpa using (opcOf_encode_of_decode hd rfl).symm)
  | setThrottle k v => exact .inr (.inl (by simpa using (opcOf_encode_of_decode hd rfl).symm))
  | setDutyUs k us => exact .inr (.inr (.inl (by simpa using (opcOf_encode_of_decode hd rfl).symm)))
  | neutralAll => exact .inr (.inr (.inr (by simpa using (opcOf_encode_of_decode hd rfl).symm)))
  | _ => cases ho

/-- Settles O48: a duty or the last command time moves only in a RESET or in an instruction of S's own, and the last
command time, of those, only in SUP_STEP. -/
theorem onlyTheSupervisorMovesTheActuators : Obligations.OnlyTheSupervisorMovesTheActuators := by
  intro s t h
  rcases step_actuators h with ⟨hduty, htime⟩ | hreset | ⟨c, rest, i, ha, ho, hd, hown, hi⟩
  · exact ⟨fun hne => absurd hduty hne, fun hne => absurd htime hne⟩
  · exact ⟨fun _ => .inl hreset, fun _ => .inl hreset⟩
  · refine ⟨fun _ => .inr ⟨c, rest, ha, ho, opcOf_of_supervisorOwned hd hown⟩, fun hne => .inr ⟨c, rest, ha, ho, ?_⟩⟩
    obtain rfl := hi.resolve_right hne
    simpa using (opcOf_encode_of_decode hd rfl).symm

/-! ## The counters -/

/-- From the counters `c` to the counters `d` none has moved but those that agent `a` writes. -/
def CountsOnlyFor (a : Agent) (c d : Counters) : Prop :=
  ∀ e, d.get e ≠ c.get e → writerOfEvent e = some a

theorem CountsOnlyFor.refl (a : Agent) (c : Counters) : CountsOnlyFor a c c := fun _ hne => absurd rfl hne

/-- Counting one event moves that event's counter alone. -/
theorem Counters.eq_of_get_bump_ne {c : Counters} {e f : Event} (h : (c.bump e).get f ≠ c.get f) : f = e := by
  rw [Counters.get_bump] at h
  by_contra hne
  exact h (if_neg hne)

theorem CountsOnlyFor.bump {a : Agent} {e : Event} (he : writerOfEvent e = some a) (c : Counters) :
    CountsOnlyFor a c (c.bump e) := by
  intro f hne
  rwa [Counters.eq_of_get_bump_ne hne]

theorem CountsOnlyFor.trans {a : Agent} {b c d : Counters} (h : CountsOnlyFor a b c) (h' : CountsOnlyFor a c d) :
    CountsOnlyFor a b d := by
  intro e hne
  by_cases hm : c.get e = b.get e
  · exact h' e (hm ▸ hne)
  · exact h e hm

theorem pushByte_counts {b : Byte} {s t : State} {r : OpResult} (h : pushByte b s = .ok (r, t)) :
    CountsOnlyFor .producer s.cnt t.cnt := by
  rcases pushByte_eq_ok.mp h with ⟨-, -, rfl⟩ | ⟨-, -, -, rfl⟩
  · exact .bump (e := .fifoOvf) rfl _
  · exact .refl _ _

/-- A validated frame counts an event of C's. -/
theorem validateFrame_counts {frame : List Byte} {s t : State} {code : RxCode} (h : (code, t) = validateFrame frame s) :
    CountsOnlyFor .consumer s.cnt t.cnt := by
  rcases validateFrame_cases frame s with ⟨e, hj, hv⟩ | ⟨ch, p, -, hv⟩
  · rw [hv] at h; cases h
    refine .bump (e := e) ?_ _
    rcases judgeFrame_rejected hj with rfl | rfl | rfl <;> rfl
  · rw [hv] at h; cases h
    exact .bump (e := .msgOut) rfl _

theorem takeByte_counts {b : Byte} {s t : State} {code : RxCode} (h : takeByte b s = .ok (code, t)) :
    CountsOnlyFor .consumer s.cnt t.cnt := by
  rcases takeByte_eq_ok.mp h with ⟨-, -, -, rfl⟩ | ⟨-, -, frame, -, hv⟩ | ⟨-, -, -, rfl⟩ | ⟨-, -, -, rfl⟩
  · exact .refl _ _
  · exact (validateFrame_counts hv :)
  · exact .bump (e := .accOvf) rfl _
  · exact .refl _ _

theorem receiveByte_counts {s t : State} {r : OpResult} (h : receiveByte s = .ok (r, t)) :
    CountsOnlyFor .consumer s.cnt t.cnt := by
  rcases receiveByte_eq_ok.mp h with ⟨-, -, rfl⟩ | ⟨-, b, code, u, -, hu, -, rfl⟩
  · exact .refl _ _
  · exact (takeByte_counts hu :)

theorem pumpIteration_counts {s t : State} (h : pumpIteration s = .next t) : CountsOnlyFor .consumer s.cnt t.cnt := by
  obtain ⟨r, u, hr, ⟨-, rfl⟩ | ⟨-, rfl⟩⟩ := pumpIteration_eq_next.mp h
  · exact (receiveByte_counts hr :)
  · exact (receiveByte_counts hr :)

theorem driveThrottle_counts (i : Nat) (m : Motor) (v : Word64) (s : State) :
    CountsOnlyFor .supervisor s.cnt (driveThrottle i m v s).2.cnt := by
  rcases driveThrottle_cases i m v s with ⟨-, h⟩ | ⟨c, -, h⟩
  · rw [h]; exact .bump (e := .dutyRej) rfl _
  · rw [h]; exact .refl _ _

theorem drivePulse_counts (i : Nat) (m : Motor) (us : Int) (s : State) :
    CountsOnlyFor .supervisor s.cnt (drivePulse i m us s).2.cnt := by
  rcases drivePulse_cases i m us s with ⟨-, h⟩ | ⟨-, -, h⟩
  · rw [h]; exact .bump (e := .dutyRej) rfl _
  · rw [h]; exact .refl _ _

theorem driveValue_counts (i : Nat) (m : Motor) (v : Word64) (s : State) :
    CountsOnlyFor .supervisor s.cnt (driveValue i m v s).2.cnt := by
  unfold driveValue
  split
  · exact driveThrottle_counts i m v s
  · exact drivePulse_counts i m v.toInt s

theorem applyEntry_counts (e : Entry) (s : State) : CountsOnlyFor .supervisor s.cnt (applyEntry e s).cnt := by
  unfold applyEntry
  split
  · exact .refl _ _
  · next i m _ =>
    have hdrive := driveValue_counts i m e.value s
    dsimp only
    split
    · exact hdrive
    · exact hdrive

theorem applyEntries_counts (es : CommandSet) (s : State) : CountsOnlyFor .supervisor s.cnt (applyEntries es s).cnt := by
  induction es generalizing s with
  | nil => exact .refl _ _
  | cons e es ih => exact (applyEntry_counts e s).trans (ih _)

theorem wdtCheck_counts (s : State) : CountsOnlyFor .supervisor s.cnt (wdtCheck s).2.cnt := by
  rcases wdtCheck_cases s with ⟨-, h⟩ | ⟨-, h⟩
  · rw [h]; exact .bump (e := .wdtTrip) rfl _
  · rw [h]; exact .refl _ _

/-- One supervisor iteration counts events of S's. -/
theorem supervise_counts (s : State) : CountsOnlyFor .supervisor s.cnt (supervise s).2.cnt := by
  unfold supervise
  split
  · exact wdtCheck_counts s
  · next cs rest _ =>
    have happly := applyEntries_counts cs { s with cmdq := rest }
    unfold supervisorCommand
    dsimp only
    split
    · exact happly.trans (wdtCheck_counts _)
    · exact happly

/-- A counter that moves with an agent's own events has that agent as its writer, and is not `TX_SHORT`. -/
theorem CountsOnlyFor.writer {a : Agent} {c d : Counters} {e : Event} (h : CountsOnlyFor a c d)
    (hne : d.get e ≠ c.get e) : (∀ g, writerOfEvent e = some g → a = g) ∧ e ≠ .txShort := by
  have hw := h e hne
  refine ⟨fun g hg => Option.some.inj (hw.symm.trans hg), fun he => ?_⟩
  subst he
  cases hw

/-- What is counted for an operation's owner is counted for the issuer of the step. -/
theorem CountsOnlyFor.of_issuer {a : Agent} {x y : Inputs} {c d : Counters} (hin : y = x) (ho : x.issuer = a)
    (h : CountsOnlyFor a c d) : CountsOnlyFor y.issuer c d := by
  rw [hin, ho]
  exact h

/-- An instruction counts events of its issuer's, or is a TX_FRAME that counts `TX_SHORT`. -/
theorem ExecEffect.counts {i : Instr} {s t : State} (h : ExecEffect s i t) :
    CountsOnlyFor t.inputs.issuer s.cnt t.cnt
    ∨ ((∃ ch p, i = .txFrame ch p) ∧ t.inputs = s.inputs ∧ t.cnt = s.cnt.bump .txShort) := by
  cases h with
  | still h => rw [h.cnt]; exact .inl (.refl _ _)
  | shortWrite r l => exact .inr ⟨⟨_, _, rfl⟩, rfl, rfl⟩
  | push ho h =>
    exact .inl (.of_issuer (by rw [State.answer_inputs, pushByte_frame h]) ho (pushByte_counts h :))
  | pop _ h => rw [State.answer_cnt, popByte_frame h]; exact .inl (.refl _ _)
  | clear => exact .inl (.refl _ _)
  | receive ho h =>
    obtain ⟨-, -, -, -, -, -, -, -, -, -, -, -, hin, -⟩ := receiveByte_frame h
    exact .inl (.of_issuer hin ho (receiveByte_counts h :))
  | startPump ho h =>
    obtain ⟨-, -, -, hin⟩ := pumpIteration_frame h
    exact .inl (.of_issuer hin ho (pumpIteration_counts h :))
  | dropSet ho => exact .inl (.of_issuer rfl ho (.bump (e := .cmdqDrop) rfl _))
  | enqueue _ _ => exact .inl (.refl _ _)
  | supervise ho r =>
    exact .inl (.of_issuer (by rw [State.answer_inputs, (supervise_frame s).eq]) ho (supervise_counts s :))
  | throttle ho _ r =>
    exact .inl (.of_issuer (by rw [State.answer_inputs, driveThrottle_frame]) ho (driveThrottle_counts _ _ _ s :))
  | pulse ho _ r =>
    exact .inl (.of_issuer (by rw [State.answer_inputs, drivePulse_frame]) ho (drivePulse_counts _ _ _ s :))
  | neutral _ => exact .inl (.refl _ _)

/-- A step other than RESET counts events of its issuer's, or is a TX_FRAME that counts `TX_SHORT`. -/
theorem step_counts {s t : State} (h : step s = .next t) (hreset : ∀ now rest, s.agenda ≠ .reset now :: rest) :
    CountsOnlyFor t.inputs.issuer s.cnt t.cnt
    ∨ ((∃ (c : Command) (rest : List Action), s.agenda = .issue c :: rest ∧ opcOf c.word = 0x32#8
        ∧ t.inputs = c.inputs) ∧ t.cnt = s.cnt.bump .txShort) := by
  cases step_effect h with
  | still h => rw [h.cnt]; exact .inl (.refl _ _)
  | @command c rest _ _ ha hd h =>
    rcases h.counts with hown | ⟨⟨ch, p, rfl⟩, hin, hshort⟩
    · exact .inl hown
    · exact .inr ⟨⟨c, rest, ha, by simpa using (opcOf_encode_of_decode hd rfl).symm, hin⟩, hshort⟩
  | arrival _ h =>
    rcases h.counts with hown | ⟨⟨ch, p, hi⟩, -⟩
    · exact .inl hown
    · cases hi
  | pump h =>
    obtain ⟨-, -, -, hin⟩ := pumpIteration_frame h
    exact .inl (.of_issuer hin rfl (pumpIteration_counts h :))
  | reset ha => exact absurd ha (hreset _ _)

/-- Settles O50: a step counts its issuer's events alone, but for a TX_FRAME's `TX_SHORT`. -/
theorem eachCounterHasOneWriter : Obligations.EachCounterHasOneWriter := by
  intro s t e h hreset hne
  rcases step_counts h hreset with hown | ⟨hcommand, hshort⟩
  · obtain ⟨hwriter, hnot⟩ := hown.writer hne
    exact ⟨hwriter, fun he => absurd he hnot⟩
  · rw [hshort] at hne
    obtain rfl := Counters.eq_of_get_bump_ne hne
    exact ⟨nofun, fun _ => hcommand⟩

end Sys2Proof.Machine
end

section
/-! From a state of the invariant no operation meets a storage slot that holds no value or does not exist, and none is
refused (10_state.md R22, R26; 20_memory.md R51). -/

namespace Sys2Proof.Machine

/-- An answer that is no stop at a storage slot and no refusal. -/
def Answer.Sound (x : Answer) : Prop := (∀ f, x = .fault f → f.isStorage = false) ∧ ∀ r, x ≠ .refused r

theorem Answer.Sound.next (s : State) : Answer.Sound (.next s) := ⟨nofun, nofun⟩

theorem Answer.Sound.fault {f : Fault} (h : f.isStorage = false) : Answer.Sound (.fault f) :=
  ⟨fun _ hf => by cases hf; exact h, nofun⟩

theorem Answer.Sound.codecAfter (s : State) (c : Option Codec) : Answer.Sound (codecAfter s c) := by
  obtain ⟨d, r, h⟩ := codecAfter_eq_next s c
  rw [h]
  exact .next _

/-- The check of the issuer adds no stop at a storage slot. -/
theorem Answer.Sound.ownedBy {a : Agent} {op : State → Answer} {s : State} (h : Answer.Sound (op s)) :
    Answer.Sound (ownedBy a op s) := by
  unfold Machine.ownedBy
  split
  · exact h
  · exact .next _

theorem Answer.Sound.notReentrant {op : State → Answer} {s : State} (h : Answer.Sound (op s)) :
    Answer.Sound (notReentrant op s) := by
  unfold Machine.notReentrant
  split
  · exact .next _
  · exact h

theorem Answer.Sound.withMotor (k : Byte) (op : Nat → Motor → State → OpResult × State) (s : State) :
    Answer.Sound (withMotor k op s) := by
  unfold Machine.withMotor
  split
  · exact .next _
  · exact .ownedBy (.next _)

/-! ## The operations on the storage complete -/

/-- The write slot exists, so a push completes (43_fifo.md R120). -/
theorem Inv.pushByte_completes {s : State} (hi : Inv s) (b : Byte) : ∃ r t, Machine.pushByte b s = .ok (r, t) := by
  cases hf : fifoFull s with
  | true => exact ⟨_, _, pushByte_eq_ok.mpr (.inl ⟨hf, rfl, rfl⟩)⟩
  | false => exact ⟨_, _, pushByte_eq_ok.mpr (.inr ⟨hf, hi.fifoWrLt, rfl, rfl⟩)⟩

/-- Every pending slot is filled, so a pop completes (43_fifo.md R121). -/
theorem Inv.popByte_completes {s : State} (hi : Inv s) : ∃ b t, Machine.popByte s = .ok (b, t) := by
  by_cases hne : s.fifoRd = s.fifoWr
  · exact ⟨_, _, popByte_eq_ok.mpr (.inl ⟨hne, rfl, rfl⟩)⟩
  · obtain ⟨b, hb⟩ := hi.read_fifoRd hne
    exact ⟨_, _, popByte_eq_ok.mpr (.inr ⟨hne, b, hb, rfl, rfl⟩)⟩

/-- Every accumulated slot is filled and the next one exists while there is room, so a byte is taken
(44_frame.md R130). -/
theorem Inv.takeByte_completes {s : State} (hi : Inv s) (b : Byte) : ∃ code t, Machine.takeByte b s = .ok (code, t) := by
  by_cases hb : b = 0x00#8
  · by_cases h0 : s.accLen = 0
    · exact ⟨_, _, takeByte_eq_ok.mpr (.inl ⟨hb, h0, rfl, rfl⟩)⟩
    · exact ⟨_, _, takeByte_eq_ok.mpr (.inr (.inl ⟨hb, h0, _, readRange_accumulatedBytes hi, rfl⟩))⟩
  · rcases hi.accLenLe.eq_or_lt with h | h
    · exact ⟨_, _, takeByte_eq_ok.mpr (.inr (.inr (.inl ⟨hb, h, rfl, rfl⟩)))⟩
    · exact ⟨_, _, takeByte_eq_ok.mpr (.inr (.inr (.inr ⟨hb, h, rfl, rfl⟩)))⟩

/-- One iteration of the receiver completes (44_frame.md R130). -/
theorem Inv.receiveByte_completes {s : State} (hi : Inv s) : ∃ r t, Machine.receiveByte s = .ok (r, t) := by
  by_cases hne : s.fifoRd = s.fifoWr
  · exact ⟨_, _, receiveByte_eq_ok.mpr (.inl ⟨hne, rfl, rfl⟩)⟩
  · obtain ⟨b, hb⟩ := hi.read_fifoRd hne
    obtain ⟨code, u, hu⟩ := (hi.advanceRead hne).takeByte_completes b
    exact ⟨_, _, receiveByte_eq_ok.mpr (.inr ⟨hne, b, code, u, hb, hu, rfl, rfl⟩)⟩

/-! ## The instructions and the step -/

theorem Inv.pumpIteration_sound {s : State} (hi : Inv s) : Answer.Sound (Machine.pumpIteration s) := by
  obtain ⟨r, u, h⟩ := hi.receiveByte_completes
  unfold Machine.pumpIteration
  rw [h]
  dsimp only
  split <;> exact .next _

theorem Inv.execFifoPush_sound {s : State} (hi : Inv s) (b : Byte) : Answer.Sound (execFifoPush b s) := by
  refine .ownedBy ?_
  split
  · obtain ⟨r, t, h⟩ := hi.pushByte_completes b
    rw [h]
    exact .next _
  · exact .fault rfl

theorem Inv.execFifoPop_sound {s : State} (hi : Inv s) : Answer.Sound (execFifoPop s) := by
  obtain ⟨b, t, h⟩ := hi.popByte_completes
  refine .ownedBy ?_
  rw [h]
  exact .next _

theorem Inv.execRxStep_sound {s : State} (hi : Inv s) : Answer.Sound (execRxStep s) := by
  obtain ⟨r, t, h⟩ := hi.receiveByte_completes
  refine .ownedBy (.notReentrant ?_)
  rw [h]
  exact .next _

theorem Inv.execRxPump_sound {s : State} (hi : Inv s) : Answer.Sound (execRxPump s) :=
  .ownedBy (.notReentrant (hi.withPump true 0 nofun).pumpIteration_sound)

theorem execCrc8Check_sound (bytes : List Byte) (s : State) : Answer.Sound (execCrc8Check bytes s) := by
  unfold execCrc8Check
  split <;> exact .next _

theorem execFifoClear_sound (s : State) : Answer.Sound (execFifoClear s) := by
  unfold execFifoClear
  split <;> exact .next _

theorem execTxFrame_sound (ch : Byte) (p : List Byte) (s : State) : Answer.Sound (execTxFrame ch p s) := by
  unfold execTxFrame
  dsimp only
  split <;> exact .next _

theorem execCmdEnq_sound (cs : CommandSet) (s : State) : Answer.Sound (execCmdEnq cs s) := by
  refine .ownedBy ?_
  split <;> exact .next _

theorem execSupStep_sound (s : State) : Answer.Sound (execSupStep s) := .ownedBy (.next _)

theorem execSetThrottle_sound (k : Byte) (v : Word64) (s : State) : Answer.Sound (execSetThrottle k v s) :=
  .withMotor k _ s

theorem execSetDutyUs_sound (k : Byte) (us : BitVec 16) (s : State) : Answer.Sound (execSetDutyUs k us s) :=
  .withMotor k _ s

theorem execNeutralAll_sound (s : State) : Answer.Sound (execNeutralAll s) := .ownedBy (.next _)

theorem execStatRead_sound (k : Byte) (s : State) : Answer.Sound (execStatRead k s) := by
  unfold execStatRead
  split <;> exact .next _

/-- No instruction stops at a storage slot or is refused. -/
theorem Inv.exec_sound {s : State} (hi : Inv s) (i : Instr) : Answer.Sound (exec i s) := by
  cases i with
  | crc8Init => exact .next _
  | crc8Step b => exact .next _
  | crc8 bytes => exact .next _
  | crc8Check bytes => exact execCrc8Check_sound bytes s
  | cobsEnc bytes => exact .next _
  | cobsDec frame => exact .next _
  | fifoPush b => exact hi.execFifoPush_sound b
  | fifoPop => exact hi.execFifoPop_sound
  | fifoClear => exact execFifoClear_sound s
  | fifoLevel => exact .next _
  | rxStep => exact hi.execRxStep_sound
  | rxPump => exact hi.execRxPump_sound
  | txFrame ch p => exact execTxFrame_sound ch p s
  | cmdEnq cs => exact execCmdEnq_sound cs s
  | supStep => exact execSupStep_sound s
  | setThrottle k v => exact execSetThrottle_sound k v s
  | setDutyUs k us => exact execSetDutyUs_sound k us s
  | neutralAll => exact execNeutralAll_sound s
  | statRead k => exact execStatRead_sound k s
  | cobsCodeZero => exact .codecAfter s none
  | cobsCodeFull => exact .codecAfter s _
  | cobsCodeRun c => exact .codecAfter s _

theorem Inv.runDecoded_sound {s : State} (hi : Inv s) (p : Packet) : Answer.Sound (runDecoded p s) := by
  unfold runDecoded
  split
  · exact .next _
  · exact hi.exec_sound _

theorem Inv.continuePump_sound {s : State} (hi : Inv s) : Answer.Sound (continuePump s) := by
  unfold continuePump pumpStep
  split
  · exact (hi.of_sameCore ⟨rfl⟩).pumpIteration_sound
  · exact .fault rfl

theorem Inv.issueCommand_sound {s : State} (hi : Inv s) (c : Command) : Answer.Sound (issueCommand c s) := by
  unfold issueCommand
  split
  · exact (hi.of_sameCore ⟨rfl⟩).runDecoded_sound _
  · exact .fault rfl

theorem Inv.byteArrives_sound {s : State} (hi : Inv s) (b : Byte) : Answer.Sound (byteArrives b s) := by
  unfold byteArrives
  split
  · exact (hi.of_sameCore ⟨rfl⟩).exec_sound _
  · exact .next _

theorem loadFrame_sound (f : List Byte) (s : State) : Answer.Sound (loadFrame f s) := by
  unfold loadFrame
  split <;> exact .next _

theorem Inv.runCodec_sound {s : State} (hi : Inv s) : Answer.Sound (runCodec s) := by
  unfold runCodec
  split
  · exact .fault rfl
  · exact (hi.of_sameCore ⟨rfl⟩).runDecoded_sound _

/-- No scheduled action stops at a storage slot or is refused. -/
theorem Inv.act_sound {s : State} (hi : Inv s) (a : Action) : Answer.Sound (act a s) := by
  cases a with
  | issue c => exact hi.issueCommand_sound c
  | pump => exact hi.continuePump_sound
  | byteArrived b => exact hi.byteArrives_sound b
  | sinkReturn => exact .next _
  | prodDisable => exact .next _
  | prodEnable => exact .next _
  | reset now => exact .next _
  | codecFrame f => exact loadFrame_sound f s
  | codecRun => exact hi.runCodec_sound

/-- Settles O60: every operation on the storage completes under the invariant, so the only stops of a step are those of a
faulted run and of an agent that has no step. -/
theorem invariantExcludesStorageFaults : Obligations.InvariantExcludesStorageFaults := by
  intro s hi
  change Answer.Sound (step s)
  rw [step_eq, nextStep, if_pos hi.cfgWf]
  split
  · exact .fault rfl
  · exact (hi.of_sameCore ⟨rfl⟩).act_sound _
  · unfold actUnscheduled
    split
    · exact hi.continuePump_sound
    · exact .next _

end Sys2Proof.Machine
end

section
/-! The running CRC register, substituted: an operation that neither reads nor writes it does the same whatever it holds,
and leaves it (10_state.md R28). -/

namespace Sys2Proof.Machine

/-- An operation that does the same whatever the running CRC register holds, and leaves it. -/
def IgnoresCrc (op : State → Answer) : Prop :=
  ∀ (x : Byte) (s : State), op { s with crcAcc := x } = mapNext (fun t => { t with crcAcc := x }) (op s)

/-- The same of a part of an operation, which may stop before it answers. -/
def PartIgnoresCrc {α : Type} (op : State → Except Fault (α × State)) : Prop :=
  ∀ (x : Byte) (s : State), op { s with crcAcc := x } = (op s).map fun p => (p.1, { p.2 with crcAcc := x })

/-- The same of a part of an operation that cannot stop. -/
def RuleIgnoresCrc {α : Type} (op : State → α × State) : Prop :=
  ∀ (x : Byte) (s : State), op { s with crcAcc := x } = ((op s).1, { (op s).2 with crcAcc := x })

/-! ## The shared operations -/

theorem IgnoresCrc.ownedBy {a : Agent} {op : State → Answer} (h : IgnoresCrc op) : IgnoresCrc (ownedBy a op) := by
  intro x s
  unfold Machine.ownedBy
  dsimp only
  split
  · exact h x s
  · rfl

theorem IgnoresCrc.notReentrant {op : State → Answer} (h : IgnoresCrc op) : IgnoresCrc (notReentrant op) := by
  intro x s
  unfold Machine.notReentrant receiverBusy
  dsimp only
  split
  · rfl
  · exact h x s

theorem IgnoresCrc.finish {op : State → Except Fault (OpResult × State)} (h : PartIgnoresCrc op) :
    IgnoresCrc fun s => finish (op s) := by
  intro x s
  dsimp only
  rw [h]
  cases op s <;> rfl

theorem IgnoresCrc.withMotor {k : Byte} {op : Nat → Motor → State → OpResult × State}
    (h : ∀ m, RuleIgnoresCrc (op k.toNat m)) : IgnoresCrc (withMotor k op) := by
  intro x s
  unfold Machine.withMotor
  dsimp only
  split
  · rfl
  · next m _ =>
    refine IgnoresCrc.ownedBy (fun x s => ?_) x s
    rw [h]
    rfl

/-! ## The FIFO and the receiver -/

theorem pushByte_ignoresCrc (b : Byte) : PartIgnoresCrc (pushByte b) := by
  intro x s
  unfold pushByte fifoFull nextIndex
  dsimp only
  split
  · rfl
  · split <;> rfl

theorem popByte_ignoresCrc : PartIgnoresCrc popByte := by
  intro x s
  unfold popByte fifoEmpty nextIndex
  dsimp only
  split
  · rfl
  · split <;> rfl

theorem validateFrame_ignoresCrc (frame : List Byte) : RuleIgnoresCrc (validateFrame frame) := by
  intro x s
  unfold validateFrame
  dsimp only
  split <;> rfl

theorem takeDelimiter_ignoresCrc : PartIgnoresCrc takeDelimiter := by
  intro x s
  unfold takeDelimiter receiverIdle
  dsimp only
  split
  · rfl
  · split
    · rfl
    · next frame _ => exact congrArg Except.ok (validateFrame_ignoresCrc frame x { s with accLen := 0 })

theorem takeDataByte_ignoresCrc (b : Byte) : PartIgnoresCrc (takeDataByte b) := by
  intro x s
  unfold takeDataByte
  dsimp only
  split
  · rfl
  · split <;> rfl

theorem takeByte_ignoresCrc (b : Byte) : PartIgnoresCrc (takeByte b) := by
  intro x s
  unfold takeByte
  split
  · exact takeDelimiter_ignoresCrc x s
  · exact takeDataByte_ignoresCrc b x s

/-- One iteration of the receiver ignores the running CRC register: the receiver's check computes its own CRC. -/
theorem receiveByte_ignoresCrc : PartIgnoresCrc receiveByte := by
  intro x s
  unfold receiveByte
  rw [popByte_ignoresCrc]
  rcases popByte s with f | ⟨_ | b, u⟩
  · rfl
  · rfl
  · dsimp only [Except.map]
    rw [takeByte_ignoresCrc]
    cases takeByte b u <;> rfl

theorem pumpIteration_ignoresCrc : IgnoresCrc pumpIteration := by
  intro x s
  unfold pumpIteration
  rw [receiveByte_ignoresCrc]
  rcases receiveByte s with f | ⟨r, u⟩
  · rfl
  · dsimp only [Except.map]
    split <;> rfl

/-! ## The supervisor -/

theorem driveThrottle_ignoresCrc (i : Nat) (m : Motor) (v : Word64) : RuleIgnoresCrc (driveThrottle i m v) := by
  intro x s
  unfold driveThrottle
  split <;> rfl

theorem drivePulse_ignoresCrc (i : Nat) (m : Motor) (us : Int) : RuleIgnoresCrc (drivePulse i m us) := by
  intro x s
  unfold drivePulse
  split <;> rfl

theorem driveValue_ignoresCrc (i : Nat) (m : Motor) (v : Word64) : RuleIgnoresCrc (driveValue i m v) := by
  intro x s
  unfold driveValue
  dsimp only
  split
  · exact driveThrottle_ignoresCrc i m v x s
  · exact drivePulse_ignoresCrc i m v.toInt x s

theorem applyEntry_ignoresCrc (e : Entry) (x : Byte) (s : State) :
    applyEntry e { s with crcAcc := x } = { applyEntry e s with crcAcc := x } := by
  unfold applyEntry
  dsimp only
  split
  · rfl
  · rw [driveValue_ignoresCrc]
    dsimp only
    split <;> rfl

theorem applyEntries_ignoresCrc (es : CommandSet) (x : Byte) (s : State) :
    applyEntries es { s with crcAcc := x } = { applyEntries es s with crcAcc := x } := by
  induction es generalizing s with
  | nil => rfl
  | cons e es ih =>
    unfold applyEntries
    rw [applyEntry_ignoresCrc, ih]

theorem wdtCheck_ignoresCrc : RuleIgnoresCrc wdtCheck := by
  intro x s
  unfold wdtCheck wdtExpired
  dsimp only
  split <;> rfl

theorem supervisorCommand_ignoresCrc (cs : CommandSet) : RuleIgnoresCrc (supervisorCommand cs) := by
  intro x s
  unfold supervisorCommand
  dsimp only
  rw [applyEntries_ignoresCrc]
  dsimp only
  split
  · rw [wdtCheck_ignoresCrc]
  · rfl

theorem supervise_ignoresCrc : RuleIgnoresCrc supervise := by
  intro x s
  unfold supervise
  dsimp only
  split
  · unfold supervisorIdle
    rw [wdtCheck_ignoresCrc]
  · next cs rest _ => exact supervisorCommand_ignoresCrc cs x { s with cmdq := rest }

/-! ## The instructions -/

theorem codecAfter_ignoresCrc (c : Option Codec) : IgnoresCrc fun s => codecAfter s c := by
  intro x s
  unfold codecAfter
  dsimp only
  split
  · rfl
  · split <;> rfl

theorem execCrc8Check_ignoresCrc (bytes : List Byte) : IgnoresCrc (execCrc8Check bytes) := by
  intro x s
  unfold execCrc8Check
  dsimp only
  split <;> rfl

theorem execFifoPush_ignoresCrc (b : Byte) : IgnoresCrc (execFifoPush b) :=
  .ownedBy fun x s => by
    split
    · exact IgnoresCrc.finish (pushByte_ignoresCrc b) x s
    · rfl

theorem execFifoPop_ignoresCrc : IgnoresCrc execFifoPop :=
  .ownedBy fun x s => by
    rw [popByte_ignoresCrc]
    cases popByte s <;> rfl

theorem execFifoClear_ignoresCrc : IgnoresCrc execFifoClear := by
  intro x s
  unfold execFifoClear quiesced
  dsimp only
  split <;> rfl

theorem execRxStep_ignoresCrc : IgnoresCrc execRxStep := .ownedBy (.notReentrant (.finish receiveByte_ignoresCrc))

theorem execRxPump_ignoresCrc : IgnoresCrc execRxPump :=
  .ownedBy (.notReentrant fun x s => pumpIteration_ignoresCrc x { s with cInPump := true, pumpCount := 0 })

theorem execTxFrame_ignoresCrc (ch : Byte) (p : List Byte) : IgnoresCrc (execTxFrame ch p) := by
  intro x s
  unfold execTxFrame
  dsimp only
  split <;> rfl

theorem execCmdEnq_ignoresCrc (cs : CommandSet) : IgnoresCrc (execCmdEnq cs) :=
  .ownedBy fun x s => by
    unfold intakeFull
    dsimp only
    split <;> rfl

theorem execSupStep_ignoresCrc : IgnoresCrc execSupStep :=
  .ownedBy fun x s => by
    rw [supervise_ignoresCrc]
    rfl

theorem execSetThrottle_ignoresCrc (k : Byte) (v : Word64) : IgnoresCrc (execSetThrottle k v) :=
  .withMotor fun m => driveThrottle_ignoresCrc k.toNat m v

theorem execSetDutyUs_ignoresCrc (k : Byte) (us : BitVec 16) : IgnoresCrc (execSetDutyUs k us) :=
  .withMotor fun m => drivePulse_ignoresCrc k.toNat m us.toNat

theorem execNeutralAll_ignoresCrc : IgnoresCrc execNeutralAll := .ownedBy fun _ _ => rfl

/-- Only the index 0x16 reads the running CRC register (46_status.md R181). -/
theorem statusValue_ignoresCrc {k : Byte} (hk : k ≠ 0x16#8) (x : Byte) (s : State) :
    statusValue { s with crcAcc := x } k = statusValue s k := by
  have hne : k.toNat ≠ 0x16 := fun h => hk (BitVec.eq_of_toNat_eq h)
  unfold statusValue
  split
  -- the seventeenth index listed is 0x16, the running CRC's
  case h_17 h => exact absurd h hne
  all_goals rfl

theorem execStatRead_ignoresCrc {k : Byte} (hk : k ≠ 0x16#8) : IgnoresCrc (execStatRead k) := by
  intro x s
  unfold execStatRead
  rw [statusValue_ignoresCrc hk]
  split <;> rfl

/-- Settles O14, instruction by instruction. -/
theorem crcAccTouchesNoOtherInstruction : Obligations.CrcAccTouchesNoOtherInstruction := by
  intro i s x hinit hstep hstat
  cases i with
  | crc8Init => exact absurd rfl hinit
  | crc8Step b => exact absurd rfl (hstep b)
  | crc8 bytes => rfl
  | crc8Check bytes => exact execCrc8Check_ignoresCrc bytes x s
  | cobsEnc bytes => rfl
  | cobsDec frame => rfl
  | fifoPush b => exact execFifoPush_ignoresCrc b x s
  | fifoPop => exact execFifoPop_ignoresCrc x s
  | fifoClear => exact execFifoClear_ignoresCrc x s
  | fifoLevel => rfl
  | rxStep => exact execRxStep_ignoresCrc x s
  | rxPump => exact execRxPump_ignoresCrc x s
  | txFrame ch p => exact execTxFrame_ignoresCrc ch p x s
  | cmdEnq cs => exact execCmdEnq_ignoresCrc cs x s
  | supStep => exact execSupStep_ignoresCrc x s
  | setThrottle k v => exact execSetThrottle_ignoresCrc k v x s
  | setDutyUs k us => exact execSetDutyUs_ignoresCrc k us x s
  | neutralAll => exact execNeutralAll_ignoresCrc x s
  | statRead k => exact execStatRead_ignoresCrc (fun h => hstat (h ▸ rfl)) x s
  | cobsCodeZero => rfl
  | cobsCodeFull => exact codecAfter_ignoresCrc _ x s
  | cobsCodeRun c => exact codecAfter_ignoresCrc _ x s

end Sys2Proof.Machine
end

section
/-! What each entry of the schedule runs, one equation for each kind of entry and for the empty schedule
(20_memory.md R50; 44_frame.md R132, R133). -/

namespace Sys2Proof.Machine

/-! ## The codec's own steps (log entry 8) -/

theorem runCodec_of_cons {s : State} {code : Byte} {frame : List Byte} (h : s.codec.rest = code :: frame) :
    runCodec s = exec (decodeCode code) { s with codec := { s.codec with rest := frame } } := by
  rw [runCodec, h]
  rfl

theorem runCodec_of_nil {s : State} (h : s.codec.rest = []) : runCodec s = .fault .stuck := by
  rw [runCodec, h]

theorem loadFrame_of_ne_nil {f : List Byte} (hf : f ≠ []) (s : State) :
    loadFrame f s = .next { s with codec := { rest := f, out := [] }, result := none } := by
  rw [loadFrame, if_neg (mt List.isEmpty_iff.mp hf)]
  rfl

theorem loadFrame_nil (s : State) :
    loadFrame [] s = .next { s with codec := { rest := [], out := [] }, result := some ⟨.none, none, .invalid⟩ } := rfl

/-! ## C's pump -/

/-- The guard of C's pump fails where no pump is in progress or the sink runs. -/
theorem pumpGuard_eq_false {s : State} (h : s.cInPump = false ∨ s.sinkBusy = true) :
    (s.cInPump && !s.sinkBusy) = false := by
  obtain h | h := h <;> simp [h]

theorem continuePump_of_blocked {s : State} (h : s.cInPump = false ∨ s.sinkBusy = true) :
    continuePump s = .fault .stuck := by
  rw [continuePump, pumpStep, pumpGuard_eq_false h]
  rfl

theorem actUnscheduled_of_pump {s : State} (hp : s.cInPump = true) (hs : s.sinkBusy = false) :
    actUnscheduled s = continuePump s := by
  rw [actUnscheduled, hp, hs]
  rfl

theorem actUnscheduled_of_blocked {s : State} (h : s.cInPump = false ∨ s.sinkBusy = true) :
    actUnscheduled s = .next s.noResult := by
  rw [actUnscheduled, pumpGuard_eq_false h]
  rfl

/-! ## The step -/

/-- Settles O6, entry by entry of the schedule. -/
theorem stepRunsTheDecodedInstruction : Obligations.StepRunsTheDecodedInstruction := by
  refine ⟨fun s c rest i hwf hf ha he hd => ?command, fun s code frame rest hwf hf ha hc => ?codecRun,
    fun s rest f hwf hf => ⟨fun ha hc => ?codecAtEnd, fun ha hne => ?frame, fun ha => ?emptyFrame, fun ha _ _ => ?pump,
      fun ha hb => ?pumpBlocked, fun ha => ?sinkReturn, fun ha hp hs => ?idlePump, fun ha hb => ?idle⟩⟩
  case command => exact (step_cons hwf hf ha).trans (issueCommand_ok (s := { s with agenda := rest }) he hd)
  case codecRun => exact (step_cons hwf hf ha).trans (runCodec_of_cons (s := { s with agenda := rest }) hc)
  case codecAtEnd => exact (step_cons hwf hf ha).trans (runCodec_of_nil (s := { s with agenda := rest }) hc)
  case frame => exact (step_cons hwf hf ha).trans (loadFrame_of_ne_nil hne _)
  case emptyFrame => exact (step_cons hwf hf ha).trans (loadFrame_nil _)
  case pump => exact step_cons hwf hf ha
  case pumpBlocked => exact (step_cons hwf hf ha).trans (continuePump_of_blocked (s := { s with agenda := rest }) hb)
  case sinkReturn => exact step_cons hwf hf ha
  case idlePump => exact (step_nil hwf hf ha).trans (actUnscheduled_of_pump hp hs)
  case idle => exact (step_nil hwf hf ha).trans (actUnscheduled_of_blocked hb)

end Sys2Proof.Machine
end

section
/-! The queries: operations that complete in every state with a result read from the state, which the result of the
operation before is no part of (20_memory.md R55). -/

namespace Sys2Proof.Machine

/-- An operation that answers, in every state, a result read from that state and does nothing else; what it reads is not
the result field. -/
def IsQuery (op : State → Answer) : Prop :=
  ∃ read : State → OpResult, ∀ s : State, op s = answer (read s) s ∧ ∀ r, read (s.answer r) = read s

/-- A query answered twice in a row gives one result, and changes nothing but that result. -/
theorem IsQuery.completes {op : State → Answer} (h : IsQuery op) (s : State) :
    ∃ r, op s = .next (s.answer r) ∧ op (s.answer r) = .next (s.answer r) := by
  obtain ⟨read, hread⟩ := h
  refine ⟨read s, (hread s).1, ?_⟩
  calc op (s.answer (read s))
      = answer (read (s.answer (read s))) (s.answer (read s)) := (hread _).1
    _ = answer (read s) (s.answer (read s)) := by rw [(hread s).2]
    _ = .next (s.answer (read s)) := rfl

/-- No status register shows the result of an operation (46_status.md R181). -/
theorem statusValue_answer (s : State) (r : OpResult) (k : Byte) : statusValue (s.answer r) k = statusValue s k := rfl

theorem execStatRead_eq (k : Byte) (s : State) :
    execStatRead k s = answer ((statusValue s k).elim .illegal .okValue) s := by
  unfold execStatRead
  cases statusValue s k <;> rfl

theorem execCrc8Check_eq (bytes : List Byte) (s : State) :
    execCrc8Check bytes s = answer ((crcCheck s.cfg bytes).getD .illegal) s := by
  unfold execCrc8Check
  cases crcCheck s.cfg bytes <;> rfl

theorem execStatRead_isQuery (k : Byte) : IsQuery (execStatRead k) :=
  ⟨_, fun s => ⟨execStatRead_eq k s, fun r => by simp only [statusValue_answer]⟩⟩

theorem execCrc8Check_isQuery (bytes : List Byte) : IsQuery (execCrc8Check bytes) :=
  ⟨_, fun s => ⟨execCrc8Check_eq bytes s, fun _ => rfl⟩⟩

theorem execFifoLevel_isQuery : IsQuery execFifoLevel := ⟨_, fun _ => ⟨rfl, fun _ => rfl⟩⟩

theorem execCrc8_isQuery (bytes : List Byte) : IsQuery (execCrc8 bytes) := ⟨_, fun _ => ⟨rfl, fun _ => rfl⟩⟩

theorem execCobsEnc_isQuery (bytes : List Byte) : IsQuery (execCobsEnc bytes) := ⟨_, fun _ => ⟨rfl, fun _ => rfl⟩⟩

theorem execCobsDec_isQuery (frame : List Byte) : IsQuery (execCobsDec frame) := ⟨_, fun _ => ⟨rfl, fun _ => rfl⟩⟩

/-- Settles O51, query by query. -/
theorem queriesChangeNothing : Obligations.QueriesChangeNothing := by
  rintro i s (⟨k, rfl⟩ | rfl | ⟨bytes, rfl⟩ | ⟨bytes, rfl⟩ | ⟨bytes, rfl⟩ | ⟨frame, rfl⟩)
  · exact (execStatRead_isQuery k).completes s
  · exact execFifoLevel_isQuery.completes s
  · exact (execCrc8_isQuery bytes).completes s
  · exact (execCrc8Check_isQuery bytes).completes s
  · exact (execCobsEnc_isQuery bytes).completes s
  · exact (execCobsDec_isQuery frame).completes s

end Sys2Proof.Machine
end

section
/-! The encodings: a command word with its data port, and a code byte, decode to an instruction exactly when they are its
encoding (30_encoding.md R73, R75 to R77). -/

namespace Sys2Proof

/-! ## From the instruction to its packet -/

/-- A command word decodes where its fields do and its data port has the announced length. -/
theorem decodeCommand_of_fields {w : CmdWord} {data : List Byte} {i : Instr} (hf : decodeFields w data = .ok i)
    (hlen : data.length = dataLength w) : decodeCommand w data = .ok i := by
  simp only [decodeCommand, hf, hlen, decide_true, require_true]

theorem decode_command_of_fields {o a : Byte} {l : BitVec 16} {data : List Byte} {i : Instr}
    (hf : decodeFields (packWord o a l) data = .ok i) (hlen : data.length = dataLength (packWord o a l)) :
    decode (.command (packWord o a l) data) = .ok i := decodeCommand_of_fields hf hlen

theorem lengthField_ne_zero {n : Nat} (hpos : 1 ≤ n) (hle : n ≤ maxL16) : lengthField n ≠ 0#16 := fun h => by
  have h0 : (lengthField n).toNat = 0 := by rw [h]; rfl
  rw [lengthField_toNat n hle] at h0
  omega

theorem encodable_crc8Check {s : List Byte} :
    (Instr.crc8Check s).encodable = true ↔ 1 ≤ s.length ∧ s.length ≤ maxL16 := by
  simp [Instr.encodable]

/-- Settles O1, instruction by instruction, those of one operand form together. -/
theorem decodeOfEncodeIsTheInstruction : Obligations.DecodeOfEncodeIsTheInstruction := by
  intro i h
  cases i with
  | crc8Init | fifoPop | fifoClear | fifoLevel | rxStep | rxPump | supStep | neutralAll | cobsCodeZero | cobsCodeFull =>
    rfl
  | crc8Step b | fifoPush b | statRead b =>
    exact decode_command_of_fields (by simp [decodeFields]) (by simp [dataLength])
  | crc8 s | cobsEnc s | cobsDec s =>
    have hlen : s.length ≤ maxL16 := of_decide_eq_true h
    exact decode_command_of_fields (by simp [decodeFields]) (by simp [dataLength, hlen])
  | crc8Check s =>
    obtain ⟨hpos, hlen⟩ := encodable_crc8Check.mp h
    exact decode_command_of_fields (by simp [decodeFields, lengthField_ne_zero hpos hlen]) (by simp [dataLength, hlen])
  | txFrame ch payload =>
    have hlen : payload.length ≤ maxL16 := of_decide_eq_true h
    exact decode_command_of_fields (by simp [decodeFields]) (by simp [dataLength, hlen])
  | cmdEnq cs =>
    have hlen : cs.length ≤ maxL16 := of_decide_eq_true h
    exact decode_command_of_fields (by simp [decodeFields, hlen]) (by simp [dataLength, hlen])
  | setThrottle k v => exact decode_command_of_fields (by simp [decodeFields]) (by simp [dataLength])
  | setDutyUs k us => exact decode_command_of_fields (by simp [decodeFields]) (by simp [dataLength])
  | cobsCodeRun c =>
    obtain ⟨h0, hFF⟩ : c ≠ 0x00#8 ∧ c ≠ 0xFF#8 := by simpa [Instr.encodable] using h
    simp [encode, decode, decodeCode, h0, hFF]

/-! ## From the packet to its instruction -/

/-- A command is determined by the fields of its word and its data port. -/
theorem command_of_fields {w : CmdWord} {o a : Byte} {l : BitVec 16} (data : List Byte)
    (hopc : (opcOf w).toNat = o.toNat) (ha : a8Of w = a) (hl : l16Of w = l) :
    Packet.command (packWord o a l) data = .command w data := by
  subst ha hl
  rw [Machine.opcOf_eq_of_toNat hopc, packWord_fields]

/-- The length field of a data port with as many bytes as `L16` announces is `L16`. -/
theorem lengthField_of_eq {n : Nat} {l : BitVec 16} (h : n = l.toNat) : lengthField n = l := by
  simp [lengthField, h]

theorem length_le_maxL16 {n : Nat} {l : BitVec 16} (h : n = l.toNat) : n ≤ maxL16 := by
  have := l.isLt
  simp only [maxL16]
  omega

/-- A passed check is a condition that holds. -/
theorem require_decide_eq_ok {p : Prop} [Decidable p] {why : Illegal} {k : Except Illegal Instr} {i : Instr}
    (h : require (decide p) why k = .ok i) : p ∧ k = .ok i :=
  (require_eq_ok h).imp_left of_decide_eq_true

/-- What a command word decodes to is encodable, and the word with its data port is its encoding. -/
theorem encode_of_decodeCommand {w : CmdWord} {data : List Byte} {i : Instr} (h : decodeCommand w data = .ok i) :
    i.encodable = true ∧ encode i = .command w data := by
  replace h := decodeCommand_eq_ok h
  obtain ⟨h, hlen⟩ := h
  unfold decodeFields at h
  dsimp only at h
  split at h <;> rename_i hopc <;> simp only [dataLength, hopc] at hlen
  -- no operand: CRC8_INIT, FIFO_POP, FIFO_CLEAR, FIFO_LEVEL, RX_STEP, RX_PUMP, SUP_STEP, NEUTRAL_ALL
  case h_1 | h_8 | h_9 | h_10 | h_11 | h_12 | h_15 | h_18 =>
    obtain ⟨ha, h⟩ := require_decide_eq_ok h
    obtain ⟨hl, h⟩ := require_decide_eq_ok h
    obtain rfl := List.eq_nil_of_length_eq_zero hlen
    cases h
    exact ⟨rfl, command_of_fields [] hopc ha hl⟩
  -- a byte in `A8`: CRC8_STEP, FIFO_PUSH, STAT_READ
  case h_2 | h_7 | h_19 =>
    obtain ⟨hl, h⟩ := require_decide_eq_ok h
    obtain rfl := List.eq_nil_of_length_eq_zero hlen
    cases h
    exact ⟨rfl, command_of_fields [] hopc rfl hl⟩
  -- the data-port bytes: CRC8, COBS_ENC, COBS_DEC
  case h_3 | h_5 | h_6 =>
    obtain ⟨ha, h⟩ := require_decide_eq_ok h
    cases h
    exact ⟨decide_eq_true (length_le_maxL16 hlen), command_of_fields data hopc ha (lengthField_of_eq hlen).symm⟩
  case h_4 => -- CRC8_CHECK
    obtain ⟨ha, h⟩ := require_decide_eq_ok h
    obtain ⟨hl, h⟩ := require_decide_eq_ok h
    have hpos : 1 ≤ data.length := by
      rw [hlen, Nat.one_le_iff_ne_zero]
      exact fun h0 => hl (BitVec.eq_of_toNat_eq h0)
    cases h
    exact ⟨encodable_crc8Check.mpr ⟨hpos, length_le_maxL16 hlen⟩,
      command_of_fields data hopc ha (lengthField_of_eq hlen).symm⟩
  case h_13 => -- TX_FRAME
    cases h
    exact ⟨decide_eq_true (length_le_maxL16 hlen), command_of_fields data hopc rfl (lengthField_of_eq hlen).symm⟩
  case h_14 => -- CMD_ENQ
    obtain ⟨ha, h⟩ := require_decide_eq_ok h
    cases h
    have hn := entriesOfBytes_length (l16Of w).toNat data
    refine ⟨decide_eq_true (length_le_maxL16 hn), ?_⟩
    rw [encode, bytesOfEntries_entriesOfBytes _ _ hlen]
    exact command_of_fields data hopc ha (lengthField_of_eq hn).symm
  case h_16 => -- SET_THROTTLE
    obtain ⟨hl, h⟩ := require_decide_eq_ok h
    cases h
    refine ⟨rfl, ?_⟩
    rw [encode, bytesOfWord64_word64OfBytes _ hlen]
    exact command_of_fields data hopc rfl hl
  case h_17 => -- SET_DUTY_US
    obtain rfl := List.eq_nil_of_length_eq_zero hlen
    cases h
    exact ⟨rfl, command_of_fields [] hopc rfl rfl⟩
  case h_20 => cases h

/-- Every code byte is in one class, whose instruction it encodes. -/
theorem encode_decodeCode (c : Byte) : (decodeCode c).encodable = true ∧ encode (decodeCode c) = .code c := by
  unfold decodeCode
  split
  · next h0 => exact ⟨rfl, congrArg Packet.code h0.symm⟩
  · next h0 =>
    split
    · next hFF => exact ⟨rfl, congrArg Packet.code hFF.symm⟩
    · next hFF => exact ⟨by simp [Instr.encodable, h0, hFF], rfl⟩

/-- Settles O2: the check of every row of the decoder fixes the fields that the encoder writes. -/
theorem encodeOfDecodeIsThePacket : Obligations.EncodeOfDecodeIsThePacket :=
  ⟨fun _ _ _ => encode_of_decodeCommand, encode_decodeCode⟩

/-! ## Words of the spec's programs and vectors -/

/-- Settles O4, word by word. -/
theorem specProgramWordsDecode : Obligations.SpecProgramWordsDecode :=
  ⟨by decide, by decide, by decide, by decide, by decide, by decide, by decide, by decide, by decide, by decide⟩

end Sys2Proof
end

section
/-! The opcode table: each of its rows is read by the decoder as its own instruction and as no other
(30_encoding.md R77; spec/opcode_table.json). -/

namespace Sys2Proof

open Laws

/-- Every row fixes the whole operation code. -/
theorem opcOf_mask_of_mem {r : TableRow} (hr : r ∈ commandRows) : opcOf r.mask = BitVec.allOnes 8 := by
  revert r
  decide

theorem opcOf_and (w v : CmdWord) : opcOf (w &&& v) = opcOf w &&& opcOf v := BitVec.extractLsb'_and

/-- A word with the fixed bits of a row has that row's operation code. -/
theorem opcOf_of_matchesWord {r : TableRow} {w : CmdWord} (hr : r ∈ commandRows) (h : r.matchesWord w = true) :
    opcOf r.pattern = opcOf w := by
  have hw : w &&& r.mask = r.pattern := of_decide_eq_true h
  rw [← hw, opcOf_and, opcOf_mask_of_mem hr, BitVec.and_allOnes]

/-- No two rows have the same operation code. -/
theorem nodup_rowOpcodes : (commandRows.map fun r => opcOf r.pattern).Nodup := by decide

/-- No two rows have the same mnemonic. -/
theorem nodup_rowMnemonics : (commandRows.map TableRow.mnemonic).Nodup := by decide

/-- A command word has the fixed bits of at most one row. -/
theorem row_unique {r r' : TableRow} {w : CmdWord} (hr : r ∈ commandRows) (hr' : r' ∈ commandRows)
    (h : r.matchesWord w = true) (h' : r'.matchesWord w = true) : r = r' :=
  List.inj_on_of_nodup_map nodup_rowOpcodes hr hr'
    ((opcOf_of_matchesWord hr h).trans (opcOf_of_matchesWord hr' h').symm)

/-- The family of Laws/PerInstr.lean holds of every instruction. -/
theorem encodesInItsRow : ∀ i : Instr, EncodesInItsRow.Statement i
  | .crc8Init => EncodesInItsRow.crc8Init
  | .crc8Step b => EncodesInItsRow.crc8Step b
  | .crc8 s => EncodesInItsRow.crc8 s
  | .crc8Check s => EncodesInItsRow.crc8Check s
  | .cobsEnc s => EncodesInItsRow.cobsEnc s
  | .cobsDec f => EncodesInItsRow.cobsDec f
  | .fifoPush b => EncodesInItsRow.fifoPush b
  | .fifoPop => EncodesInItsRow.fifoPop
  | .fifoClear => EncodesInItsRow.fifoClear
  | .fifoLevel => EncodesInItsRow.fifoLevel
  | .rxStep => EncodesInItsRow.rxStep
  | .rxPump => EncodesInItsRow.rxPump
  | .txFrame ch payload => EncodesInItsRow.txFrame ch payload
  | .cmdEnq cs => EncodesInItsRow.cmdEnq cs
  | .supStep => EncodesInItsRow.supStep
  | .setThrottle k v => EncodesInItsRow.setThrottle k v
  | .setDutyUs k us => EncodesInItsRow.setDutyUs k us
  | .neutralAll => EncodesInItsRow.neutralAll
  | .statRead k => EncodesInItsRow.statRead k
  | .cobsCodeZero => EncodesInItsRow.cobsCodeZero
  | .cobsCodeFull => EncodesInItsRow.cobsCodeFull
  | .cobsCodeRun c => EncodesInItsRow.cobsCodeRun c

/-- A command word that decodes has the fixed bits of its instruction's row. -/
theorem exists_row_of_decodeCommand {w : CmdWord} {data : List Byte} {i : Instr} (h : decodeCommand w data = .ok i) :
    ∃ r ∈ commandRows, r.mnemonic = i.mnemonic ∧ r.matchesWord w = true := by
  obtain ⟨henc, hpacket⟩ := encode_of_decodeCommand h
  have hrow := encodesInItsRow i henc
  rwa [hpacket] at hrow

/-- Settles O3: operation codes tell the rows apart, and a decoded word is its instruction's encoding. -/
theorem opcodeTableRowsAreDisjointAndDecoded : Obligations.OpcodeTableRowsAreDisjointAndDecoded := by
  refine ⟨fun w r hr r' hr' => row_unique hr hr', fun w data i hd r hr => ?_⟩
  obtain ⟨own, hown, hmnemonic, hmatches⟩ := exists_row_of_decodeCommand hd
  constructor
  · intro h
    rw [row_unique hr hown h hmatches, hmnemonic]
  · intro h
    rwa [List.inj_on_of_nodup_map nodup_rowMnemonics hr hown (h.trans hmnemonic.symm)]

end Sys2Proof
end

section
/-! Illegal command words: the cases of 30_encoding.md R78 are the words that decode to no well-formed instruction, and a
step answers them `ILLEGAL` (60_exceptions.md R203). -/

namespace Sys2Proof.Machine

/-- The cases of 30_encoding.md R78 that the fields of a command word decide in every configuration. -/
def IllegalFields (w : CmdWord) : Prop :=
  (opcOf w).toNat ∉ definedOpcodes
  ∨ ((opcOf w).toNat ∈ zeroA8Opcodes ∧ a8Of w ≠ 0x00#8)
  ∨ ((opcOf w).toNat ∈ zeroL16Opcodes ∧ l16Of w ≠ 0#16)
  ∨ ((opcOf w).toNat = 0x04 ∧ l16Of w = 0#16)

/-- The cases of 30_encoding.md R78 that depend on the configuration. -/
def IllegalOperand (c : Config) (w : CmdWord) : Prop :=
  (((opcOf w).toNat = 0x42 ∨ (opcOf w).toNat = 0x43) ∧ c.nMot ≤ (a8Of w).toNat)
  ∨ ((opcOf w).toNat = 0x50 ∧ statIndexDefined c.nMot (a8Of w) = false)

theorem illegalWord_iff {c : Config} {w : CmdWord} {data : List Byte} :
    IllegalWord c w data ↔ IllegalFields w ∨ data.length ≠ dataLength w ∨ IllegalOperand c w := by
  unfold IllegalWord IllegalFields IllegalOperand
  tauto

/-- A check whose condition holds passes. -/
theorem exists_require_ok {p : Prop} [Decidable p] {why : Illegal} {k : Except Illegal Instr} (hp : p)
    (hk : ∃ i, k = .ok i) : ∃ i, require (decide p) why k = .ok i := by
  rwa [decide_eq_true hp, require_true]

/-- A word whose fields are legal decodes: the checks of its operation code all pass. -/
theorem decodeFields_of_legal {w : CmdWord} (h : ¬ IllegalFields w) (data : List Byte) :
    ∃ i, decodeFields w data = .ok i := by
  simp only [IllegalFields, not_or, not_and, not_not] at h
  obtain ⟨hdefined, ha8, hl16, hcheck⟩ := h
  unfold decodeFields
  split <;> rename_i hopc
  -- `A8` and `L16` zero: CRC8_INIT, FIFO_POP, FIFO_CLEAR, FIFO_LEVEL, RX_STEP, RX_PUMP, SUP_STEP, NEUTRAL_ALL
  case h_1 | h_8 | h_9 | h_10 | h_11 | h_12 | h_15 | h_18 =>
    have ha := ha8 (by rw [hopc]; decide)
    have hl := hl16 (by rw [hopc]; decide)
    exact exists_require_ok ha (exists_require_ok hl ⟨_, rfl⟩)
  -- `L16` zero: CRC8_STEP, FIFO_PUSH, SET_THROTTLE, STAT_READ
  case h_2 | h_7 | h_16 | h_19 =>
    have hl := hl16 (by rw [hopc]; decide)
    exact exists_require_ok hl ⟨_, rfl⟩
  -- `A8` zero: CRC8, COBS_ENC, COBS_DEC, CMD_ENQ
  case h_3 | h_5 | h_6 | h_14 =>
    have ha := ha8 (by rw [hopc]; decide)
    exact exists_require_ok ha ⟨_, rfl⟩
  case h_4 => -- CRC8_CHECK
    have ha := ha8 (by rw [hopc]; decide)
    exact exists_require_ok ha (exists_require_ok (hcheck hopc) ⟨_, rfl⟩)
  -- no field checked: TX_FRAME, SET_DUTY_US
  case h_13 | h_17 => exact ⟨_, rfl⟩
  case h_20 => simp_all [definedOpcodes]

/-- A word that decodes, being an instruction's encoding, has legal fields. -/
theorem not_illegalFields_of_decodeCommand {w : CmdWord} {data : List Byte} {i : Instr}
    (h : decodeCommand w data = .ok i) : ¬ IllegalFields w := by
  obtain ⟨henc, hpacket⟩ := encode_of_decodeCommand h
  cases i with
  | crc8Check s =>
    obtain ⟨hpos, hlen⟩ := encodable_crc8Check.mp henc
    cases hpacket
    simp [IllegalFields, definedOpcodes, zeroA8Opcodes, zeroL16Opcodes, lengthField_ne_zero hpos hlen]
  | _ => cases hpacket <;> simp [IllegalFields, definedOpcodes, zeroA8Opcodes, zeroL16Opcodes]

/-- The configuration refuses a decoded word exactly when it refuses its instruction's operands. -/
theorem illegalOperand_iff {c : Config} {w : CmdWord} {data : List Byte} {i : Instr}
    (h : decodeCommand w data = .ok i) : IllegalOperand c w ↔ i.operandsLegal c = false := by
  have hpacket := (encode_of_decodeCommand h).2
  cases i with
  | setThrottle k v | setDutyUs k us | statRead k => cases hpacket; simp [IllegalOperand, Instr.operandsLegal]
  -- another operation code has no such check, and a code byte is no command word
  | _ => cases hpacket <;> simp [IllegalOperand, Instr.operandsLegal]

/-- The words that are not illegal in a configuration are those that decode to a well-formed instruction. -/
theorem not_illegalWord_iff {c : Config} {w : CmdWord} {data : List Byte} :
    ¬ IllegalWord c w data ↔ ∃ i, decodeCommand w data = .ok i ∧ i.wf c = true := by
  simp only [illegalWord_iff, not_or, not_not]
  constructor
  · rintro ⟨hfields, hlen, hoperand⟩
    obtain ⟨i, hi⟩ := decodeFields_of_legal hfields data
    have hd := decodeCommand_of_fields hi hlen
    rw [illegalOperand_iff hd, Bool.not_eq_false] at hoperand
    exact ⟨i, hd, by rw [Instr.wf, (encode_of_decodeCommand hd).1, hoperand]; rfl⟩
  · rintro ⟨i, hd, hwf⟩
    refine ⟨not_illegalFields_of_decodeCommand hd, (decodeCommand_eq_ok hd).2, ?_⟩
    rw [illegalOperand_iff hd, Bool.not_eq_false]
    exact (Bool.and_eq_true_iff.mp hwf).2

/-! ## What the step answers -/

theorem motor_eq_none {c : Config} {k : Byte} (h : decide (k.toNat < c.nMot) = false) : c.motors[k.toNat]? = none :=
  List.getElem?_eq_none (not_lt.mp (of_decide_eq_false h))

/-- A status index that 46_status.md R181 reserves has no register. -/
theorem statusValue_eq_none {s : State} {k : Byte} (h : statIndexDefined s.cfg.nMot k = false) :
    statusValue s k = none := by
  simp only [statIndexDefined, Bool.or_eq_false_iff, ← Bool.decide_and, decide_eq_false_iff_not] at h
  obtain ⟨⟨hcounter, hregister⟩, hduty⟩ := h
  unfold statusValue
  split
  -- the last row is the duty registers'
  case h_18 => exact if_neg hduty
  all_goals omega

/-- An instruction whose operands the configuration refuses is answered `ILLEGAL`. -/
theorem exec_of_illegalOperands {i : Instr} {s : State} (h : i.operandsLegal s.cfg = false) : exec i s = illegal s := by
  cases i with
  | setThrottle k v =>
    show execSetThrottle k v s = illegal s
    exact withMotor_none (motor_eq_none h)
  | setDutyUs k us =>
    show execSetDutyUs k us s = illegal s
    exact withMotor_none (motor_eq_none h)
  | statRead k =>
    show execStatRead k s = illegal s
    rw [execStatRead_eq, statusValue_eq_none h]
    rfl
  | _ => cases h

/-- A command that is illegal in the configuration is answered `ILLEGAL`, whether the decoder or its operation refuses
it. -/
theorem issueCommand_of_illegalWord {c : Command} {s : State} (he : agentEnabled s c.inputs.issuer = true)
    (h : IllegalWord s.cfg c.word c.data) : issueCommand c s = illegal { s with inputs := c.inputs } := by
  cases hd : decodeCommand c.word c.data with
  | error why => exact issueCommand_error he hd
  | ok i =>
    have hlegal : i.operandsLegal s.cfg = false := by
      rw [← illegalOperand_iff hd]
      obtain hfields | hlen | hoperand := illegalWord_iff.mp h
      · exact absurd hfields (not_illegalFields_of_decodeCommand hd)
      · exact absurd (decodeCommand_eq_ok hd).2 hlen
      · exact hoperand
    rw [issueCommand_ok he hd]
    exact exec_of_illegalOperands hlegal

/-- Settles O5: a word is not illegal exactly when it decodes to a well-formed instruction. -/
theorem illegalWordsChangeNothingAndOthersRun : Obligations.IllegalWordsChangeNothingAndOthersRun := by
  intro s c rest hwf hfault hagenda he
  have hstep : step s = issueCommand c { s with agenda := rest } := step_cons hwf hfault hagenda
  constructor
  · intro h
    exact hstep.trans (issueCommand_of_illegalWord (s := { s with agenda := rest }) he h)
  · intro h
    obtain ⟨i, hd, hi⟩ := not_illegalWord_iff.mp h
    exact ⟨i, hd, hi, hstep.trans (issueCommand_ok (s := { s with agenda := rest }) he hd)⟩

end Sys2Proof.Machine
end

section
/-! The codec's own steps: what one run of each class does to the frame in the codec, and that stepping a frame run by run
is `cobs_decode` (30_encoding.md R73, R74; 42_cobs.md R111; log entry 8). -/

namespace Sys2Proof.Machine

/-! ## One run -/

/-- A run is invalid where its data bytes are missing or one of them is zero. -/
theorem cobsTakeRun_eq_none {n : Nat} {implied : Bool} {c : Codec} (h : c.rest.length < n ∨ 0x00#8 ∈ c.rest.take n) :
    cobsTakeRun n implied c = none := by
  rw [Option.eq_none_iff_forall_ne_some]
  intro d hd
  obtain ⟨hlen, hzero, -⟩ := cobsTakeRun_eq_some.mp hd
  exact h.elim (not_lt.mpr hlen) hzero

/-- A run that takes the rest of the frame: its data bytes are decoded, and no zero is implied after them. -/
theorem cobsTakeRun_all {n : Nat} {implied : Bool} {c : Codec} (hlen : c.rest.length = n) (hzero : 0x00#8 ∉ c.rest) :
    cobsTakeRun n implied c = some { rest := [], out := c.out ++ c.rest } := by
  subst hlen
  rw [cobsTakeRun_eq_some]
  simp [hzero]

/-- A run after which the frame goes on: a zero is implied where its class has one. -/
theorem cobsTakeRun_part {n : Nat} {implied : Bool} {c : Codec} (hlen : n < c.rest.length)
    (hzero : 0x00#8 ∉ c.rest.take n) :
    cobsTakeRun n implied c
      = some { rest := c.rest.drop n, out := c.out ++ c.rest.take n ++ (if implied then [0x00#8] else []) } := by
  have hmore : (c.rest.drop n).isEmpty = false := by simpa using hlen
  rw [cobsTakeRun_eq_some, hmore]
  exact ⟨hlen.le, hzero, by simp⟩

/-! ## What follows a run -/

theorem codecAfter_none (s : State) :
    codecAfter s none = .next { s with codec := idleCodec, result := some .invalid } := rfl

theorem codecAfter_ended (s : State) (out : List Byte) :
    codecAfter s (some { rest := [], out := out })
      = .next { s with codec := idleCodec, result := some (.okBytes out) } := rfl

theorem codecAfter_going {c : Codec} (h : c.rest ≠ []) (s : State) :
    codecAfter s (some c) = .next { s with codec := c, result := none } := by
  rw [codecAfter, if_neg (mt List.isEmpty_iff.mp h)]
  rfl

/-- A frame that ends in a run of `n` data bytes. -/
theorem codecAfter_takeRun_all {n : Nat} {implied : Bool} {s : State} (hlen : s.codec.rest.length = n)
    (hzero : 0x00#8 ∉ s.codec.rest) :
    codecAfter s (cobsTakeRun n implied s.codec)
      = .next { s with codec := { rest := [], out := [] }
                       result := some ⟨.ok, some (s.codec.out.length + n), .bytes (s.codec.out ++ s.codec.rest)⟩ } := by
  rw [cobsTakeRun_all hlen hzero, codecAfter_ended, OpResult.okBytes, List.length_append, hlen]
  rfl

/-- A frame that goes on after a run of `n` data bytes. -/
theorem codecAfter_takeRun_part {n : Nat} {implied : Bool} {s : State} (hlen : n < s.codec.rest.length)
    (hzero : 0x00#8 ∉ s.codec.rest.take n) :
    codecAfter s (cobsTakeRun n implied s.codec)
      = .next { s with codec := { rest := s.codec.rest.drop n
                                  out := s.codec.out ++ s.codec.rest.take n ++ (if implied then [0x00#8] else []) }
                       result := none } := by
  rw [cobsTakeRun_part hlen hzero]
  exact codecAfter_going (List.drop_eq_nil_iff.not.mpr (not_le.mpr hlen)) s

/-! ## The three classes -/

theorem exec_cobsCodeFull (s : State) : exec .cobsCodeFull s = codecAfter s (cobsTakeRun 254 false s.codec) := rfl

theorem exec_cobsCodeRun {c : Byte} (hne : c ≠ 0x00#8) (s : State) :
    exec (.cobsCodeRun c) s = codecAfter s (cobsTakeRun (c.toNat - 1) true s.codec) := by
  show execCobsCodeRun c s = _
  rw [execCobsCodeRun, if_neg hne]

/-- The class of a code byte executes the decoder's step for it, on the frame in the codec. -/
theorem exec_decodeCode (code : Byte) (s : State) :
    exec (decodeCode code) s = codecAfter s (cobsCodeStep code s.codec) := by
  unfold decodeCode cobsCodeStep
  split
  · rfl
  · next hne =>
    split
    · rfl
    · exact exec_cobsCodeRun hne s

/-- Settles O20: the class answers without a run. -/
theorem cobsCodeZeroInvalidatesTheFrame : Obligations.CobsCodeZeroInvalidatesTheFrame := codecAfter_none

/-- Settles O21: the class takes one run of 254 data bytes. -/
theorem cobsCodeFullTakesTwoHundredFiftyFourBytes : Obligations.CobsCodeFullTakesTwoHundredFiftyFourBytes := by
  intro s
  rw [exec_cobsCodeFull]
  refine ⟨fun h => ?invalid, fun hlen hzero => codecAfter_takeRun_all hlen hzero, fun hlen hzero => ?goesOn⟩
  case invalid =>
    rw [cobsTakeRun_eq_none h]
    exact codecAfter_none s
  case goesOn => simpa using codecAfter_takeRun_part (implied := false) hlen hzero

/-- Settles O22: the class takes one run of `c − 1` data bytes. -/
theorem cobsCodeRunTakesItsDataBytes : Obligations.CobsCodeRunTakesItsDataBytes := by
  intro c s hpos _
  have hne : c ≠ 0x00#8 := by rintro rfl; exact absurd hpos (by decide)
  rw [exec_cobsCodeRun hne]
  refine ⟨fun h => ?invalid, fun hlen hzero => codecAfter_takeRun_all hlen hzero,
    fun hlen hzero => codecAfter_takeRun_part hlen hzero⟩
  rw [cobsTakeRun_eq_none h]
  exact codecAfter_none s

/-! ## A frame, run by run -/

/-- The codec's step on a frame that has a run to come. -/
theorem runCodec_cons (code : Byte) (rest out : List Byte) (s : State) :
    runCodec { s with codec := { rest := code :: rest, out := out } }
      = codecAfter { s with codec := { rest := rest, out := out } } (cobsCodeStep code { rest := rest, out := out }) :=
  (runCodec_of_cons rfl).trans (exec_decodeCode code _)

/-- A step that leaves the codec at rest is the last one of its frame. -/
theorem codecToEnd_of_last {n : Nat} {s t : State} (h : runCodec s = .next t) (ht : t.codec.rest = []) :
    codecToEnd (n + 1) s = .next t := by
  rw [codecToEnd, h]
  exact if_pos (by rw [ht]; rfl)

/-- After a step that does not, the codec goes on. -/
theorem codecToEnd_of_going {n : Nat} {s t : State} (h : runCodec s = .next t) (ht : t.codec.rest ≠ []) :
    codecToEnd (n + 1) s = codecToEnd n t := by
  rw [codecToEnd, h]
  exact if_neg (mt List.isEmpty_iff.mp ht)

/-- From the middle of a frame too, the codec's steps end with the result of the decoder's loop. -/
theorem codecToEnd_eq_cobsDecodeRuns (n : Nat) (c : Codec) (hne : c.rest ≠ []) (hlen : c.rest.length ≤ n) (s : State) :
    codecToEnd n { s with codec := c }
      = .next { s with codec := idleCodec, result := some (decodeResult (cobsDecodeRuns n c)) } := by
  induction n generalizing c s with
  | zero => exact absurd (List.eq_nil_of_length_eq_zero (Nat.le_zero.mp hlen)) hne
  | succ n ih =>
    obtain ⟨_ | ⟨code, rest⟩, out⟩ := c
    · exact absurd rfl hne
    have hrun := runCodec_cons code rest out s
    rw [cobsDecodeRuns_cons]
    cases hstep : cobsCodeStep code { rest := rest, out := out } with
    | none =>
      rw [hstep] at hrun
      exact codecToEnd_of_last hrun rfl
    | some d =>
      have hle : d.rest.length ≤ rest.length := cobsCodeStep_rest_le hstep
      rw [hstep] at hrun
      obtain ⟨_ | ⟨b, left⟩, decoded⟩ := d
      · rw [codecAfter_ended] at hrun
        rw [codecToEnd_of_last hrun rfl, Option.bind_some, cobsDecodeRuns_nil]
        rfl
      · rw [codecAfter_going (List.cons_ne_nil b left)] at hrun
        rw [codecToEnd_of_going hrun (List.cons_ne_nil b left)]
        exact ih { rest := b :: left, out := decoded } (List.cons_ne_nil b left)
          (hle.trans (Nat.le_of_succ_le_succ hlen)) { s with result := none }

/-- Settles O23, by induction on the bound of the number of runs. -/
theorem codecRunsReadAFrameAsCobsDecode : Obligations.CodecRunsReadAFrameAsCobsDecode := by
  intro s f hne
  rw [codecToEnd_eq_cobsDecodeRuns f.length { rest := f, out := [] } hne le_rfl, cobsDecode,
    if_neg (mt List.isEmpty_iff.mp hne)]
  cases cobsDecodeRuns f.length { rest := f, out := [] } <;> rfl

end Sys2Proof.Machine
end

section
/-! The numeric operand: its three fields as numbers, and the value they stand for (30_encoding.md R76; log entry 3). -/

namespace Sys2Proof.Machine

theorem binary64_sign (v : Word64) : v.getLsbD 63 = decide (2 ^ 63 ≤ v.toNat) := BitVec.msb_eq_decide v

theorem binary64_exponent (v : Word64) : (v.extractLsb' 52 11).toNat = v.toNat / 2 ^ 52 % 2 ^ 11 := by
  rw [BitVec.extractLsb'_toNat, Nat.shiftRight_eq_div_pow]

theorem binary64_fraction (v : Word64) : (v.extractLsb' 0 52).toNat = v.toNat % 2 ^ 52 := by
  rw [BitVec.extractLsb'_toNat, Nat.shiftRight_zero]

/-- The value of a nonzero finite operand: its significand, signed, scaled by a power of two. -/
theorem signedScaled_val (negative : Bool) (m : Nat) (e : Int) :
    ((Frac.ofInt (if negative then -(m : Int) else m)).mul (pow2 e)).val
      = (if negative then -1 else 1) * ((m : ℚ) * 2 ^ e) := by
  cases negative <;> simp

/-- Settles O40, by the exponent field: all ones, zero with a zero fraction, any other. -/
theorem binary64OperandValue : Obligations.Binary64OperandValue := by
  intro v
  simp only [binary64, binary64_sign, binary64_exponent, binary64_fraction]
  generalize v.toNat / 2 ^ 52 % 2 ^ 11 = e
  generalize v.toNat % 2 ^ 52 = m
  refine ⟨fun ⟨he, hm⟩ => by rw [if_pos he, if_neg hm], fun ⟨he, hm⟩ => by rw [if_pos he, if_pos hm], fun he => ?_⟩
  rw [if_neg he.ne]
  by_cases hzero : e = 0 ∧ m = 0
  · obtain ⟨rfl, rfl⟩ := hzero
    exact ⟨Frac.ofInt 0, rfl, Nat.one_pos, by simp⟩
  · rw [if_neg hzero]
    refine ⟨_, rfl, by simp, ?_⟩
    rw [signedScaled_val]
    by_cases h0 : e = 0 <;> simp [h0]

end Sys2Proof.Machine
end

section
/-! The CRC: one bit of the update in plain numbers, the residue, linearity and what an odd polynomial detects, and the four
operations (41_crc8.md R100 to R106). -/

namespace Sys2Proof.Machine

/-! ## The update of one byte -/

theorem topBit_eq_decide (x : Byte) : x.getLsbD 7 = decide (128 ≤ x.toNat) := BitVec.msb_eq_decide x

/-- One bit of the update in plain numbers: twice the register within eight bits, reduced when its top bit was set. -/
theorem crcShift_toNat (p x : Byte) :
    (crcShift p x).toNat = if 128 ≤ x.toNat then (2 * x.toNat % 256) ^^^ p.toNat else 2 * x.toNat % 256 := by
  have hshift : (x <<< 1).toNat = 2 * x.toNat % 256 := by
    rw [BitVec.toNat_shiftLeft, Nat.shiftLeft_eq, pow_one, Nat.mul_comm]
  simp only [crcShift, topBit_eq_decide, decide_eq_true_eq]
  split <;> simp only [BitVec.toNat_xor, hshift]

theorem crcShifts_eq_iterate (p : Byte) (n : Nat) (x : Byte) : crcShifts p n x = (crcShift p)^[n] x := by
  induction n generalizing x with
  | zero => rfl
  | succ n ih => exact ih (crcShift p x)

/-- A byte equal to the register leaves zero, whatever the polynomial. -/
@[simp] theorem crcStep_self (p c : Byte) : crcStep p c c = 0x00#8 := by simp [crcStep]

/-! ## With an odd polynomial the update loses nothing -/

/-- With an odd polynomial one bit of the update sends only zero to zero: a reduction sets bit 0, which the shift cleared, and
a shift without one drops a zero bit. -/
theorem eq_zero_of_crcShift_eq_zero {p x : Byte} (hp : p.getLsbD 0 = true) (h : crcShift p x = 0x00#8) : x = 0x00#8 := by
  cases htop : x.getLsbD 7 with
  | true =>
    have hbit : (crcShift p x).getLsbD 0 = true := by simp [crcShift, htop, hp]
    rw [h] at hbit
    cases hbit
  | false =>
    have hlow : ¬ 128 ≤ x.toNat := of_decide_eq_false ((topBit_eq_decide x).symm.trans htop)
    have hnum : (0x00#8).toNat = 2 * x.toNat % 256 := by rw [← h, crcShift_toNat, if_neg hlow]
    rw [BitVec.toNat_zero] at hnum
    exact BitVec.eq_of_toNat_eq (show x.toNat = 0 by omega)

theorem crcShift_injective {p : Byte} (hp : p.getLsbD 0 = true) : Function.Injective (crcShift p) := fun x y h =>
  BitVec.xor_eq_zero_iff.mp (eq_zero_of_crcShift_eq_zero hp (by rw [crcShift_xor, h, BitVec.xor_self]))

theorem crcShifts_injective {p : Byte} (hp : p.getLsbD 0 = true) (n : Nat) : Function.Injective (crcShifts p n) := by
  rw [funext (crcShifts_eq_iterate p n)]
  exact (crcShift_injective hp).iterate n

/-- Two updates are equal just where register and byte have the same exclusive or. -/
theorem crcStep_inj {p : Byte} (hp : p.getLsbD 0 = true) {c d b e : Byte} :
    crcStep p c b = crcStep p d e ↔ c ^^^ b = d ^^^ e := (crcShifts_injective hp 8).eq_iff

/-- The bytes that follow keep two registers apart. -/
theorem eq_of_crcFrom_eq {p : Byte} (hp : p.getLsbD 0 = true) {c d : Byte} {s : List Byte}
    (h : crcFrom p c s = crcFrom p d s) : c = d := by
  induction s generalizing c d with
  | nil => exact h
  | cons b s ih => exact (BitVec.xor_left_inj b).mp ((crcStep_inj hp).mp (ih h))

/-! ## The CRC of a sequence -/

theorem crcFrom_eq_foldl (p c : Byte) (s : List Byte) : crcFrom p c s = s.foldl (crcStep p) c := by
  induction s generalizing c with
  | nil => rfl
  | cons b s ih => exact ih (crcStep p c b)

theorem crc8_append (c : Config) (a b : List Byte) : crc8 c (a ++ b) = crcFrom c.crcPoly (crc8 c a) b :=
  crcFrom_append _ _ a b

/-- Linearity, from any two registers (41_crc8.md R106 (b)). -/
theorem crcFrom_xorBytes (p c d : Byte) {a e : List Byte} (hlen : a.length = e.length) :
    crcFrom p (c ^^^ d) (xorBytes a e) = crcFrom p c a ^^^ crcFrom p d e := by
  induction a generalizing c d e with
  | nil =>
    cases e with
    | nil => rfl
    | cons y e => cases hlen
  | cons x a ih =>
    cases e with
    | nil => cases hlen
    | cons y e =>
      calc crcFrom p (c ^^^ d) (xorBytes (x :: a) (y :: e))
          = crcFrom p (crcStep p (c ^^^ d) (x ^^^ y)) (xorBytes a e) := rfl
        _ = crcFrom p (crcStep p c x ^^^ crcStep p d y) (xorBytes a e) := by rw [crcStep_xor]
        _ = crcFrom p (crcStep p c x) a ^^^ crcFrom p (crcStep p d y) e := ih _ _ (Nat.succ.inj hlen)

/-- The residue: a sequence followed by its CRC has the CRC zero (41_crc8.md R106 (a)). -/
theorem crc8_append_crc8 (c : Config) (s : List Byte) : crc8 c (s ++ [crc8 c s]) = 0x00#8 :=
  (crc8_append c s _).trans (crcStep_self _ _)

/-- With an odd polynomial no other last byte has that residue (41_crc8.md R105). -/
theorem crc8_concat_eq_zero_iff {c : Config} (hp : c.crcPoly.getLsbD 0 = true) (s : List Byte) (last : Byte) :
    crc8 c (s ++ [last]) = 0x00#8 ↔ crc8 c s = last := by
  calc crc8 c (s ++ [last]) = 0x00#8
      ↔ crcStep c.crcPoly (crc8 c s) last = crcStep c.crcPoly last last := by rw [crc8_append, crcStep_self]; rfl
    _ ↔ crc8 c s ^^^ last = last ^^^ last := crcStep_inj hp
    _ ↔ crc8 c s = last := BitVec.xor_left_inj last

/-- With an odd polynomial a change of one byte changes the CRC, whatever follows. -/
theorem crc8_ne_of_byte_ne {c : Config} (hp : c.crcPoly.getLsbD 0 = true) (before after : List Byte) {b b' : Byte}
    (hne : b' ≠ b) : crc8 c (before ++ b' :: after) ≠ crc8 c (before ++ b :: after) := by
  rw [crc8_append, crc8_append]
  intro h
  exact hne ((BitVec.xor_right_inj _).mp ((crcStep_inj hp).mp (eq_of_crcFrom_eq hp h)))

/-! ## The check -/

/-- The check of a sequence given by its last byte and the rest. -/
theorem crcCheck_concat (c : Config) (bytes : List Byte) (last : Byte) :
    crcCheck c (bytes ++ [last])
      = some ⟨if crc8 c bytes = last then .ok else .none, some (crc8 c bytes).toNat, .absent⟩ := by
  simp only [crcCheck, List.getLast?_concat, List.dropLast_concat]
  split <;> rfl

/-- With an odd polynomial a sequence fails the check when its CRC is not zero. -/
theorem crcCheck_none_of_crc8_ne_zero {c : Config} (hp : c.crcPoly.getLsbD 0 = true) {bytes : List Byte} (hb : bytes ≠ [])
    (hz : crc8 c bytes ≠ 0x00#8) : ∃ r, crcCheck c bytes = some r ∧ r.status = .none := by
  obtain ⟨init, last, rfl⟩ := List.eq_nil_or_concat' bytes |>.resolve_left hb
  exact ⟨_, crcCheck_concat c init last, if_neg (mt (crc8_concat_eq_zero_iff hp init last).mpr hz)⟩

/-! ## The operations -/

theorem exec_crc8Init (s : State) :
    exec .crc8Init s
      = .next { s with crcAcc := s.cfg.crcInit, result := some ⟨.ok, some s.cfg.crcInit.toNat, .absent⟩ } := rfl

theorem exec_crc8Step (b : Byte) (s : State) :
    exec (.crc8Step b) s
      = .next { s with crcAcc := crcStep s.cfg.crcPoly s.crcAcc b
                       result := some ⟨.ok, some (crcStep s.cfg.crcPoly s.crcAcc b).toNat, .absent⟩ } := rfl

theorem exec_crc8 (bytes : List Byte) (s : State) :
    exec (.crc8 bytes) s = .next { s with result := some ⟨.ok, some (crc8 s.cfg bytes).toNat, .absent⟩ } := rfl

theorem exec_crc8Check_concat (bytes : List Byte) (last : Byte) (s : State) :
    exec (.crc8Check (bytes ++ [last])) s
      = .next { s with result := some ⟨if crc8 s.cfg bytes = last then .ok else .none,
                                       some (crc8 s.cfg bytes).toNat, .absent⟩ } := by
  calc exec (.crc8Check (bytes ++ [last])) s
      = answer ((crcCheck s.cfg (bytes ++ [last])).getD .illegal) s := execCrc8Check_eq _ s
    _ = _ := by rw [crcCheck_concat]; rfl

theorem exec_crc8Check_nil (s : State) :
    exec (.crc8Check []) s = .next { s with result := some ⟨.illegal, none, .absent⟩ } := rfl

/-- CRC8_STEP over a sequence takes the CRC register from its value through the sequence, and touches nothing else but the
result. -/
theorem crcSteps_eq (bytes : List Byte) (s : State) :
    ∃ r, crcSteps bytes s = .next { s with crcAcc := crcFrom s.cfg.crcPoly s.crcAcc bytes, result := r } := by
  induction bytes generalizing s with
  | nil => exact ⟨s.result, rfl⟩
  | cons b bs ih =>
    rw [crcSteps, exec_crc8Step]
    exact ih _

/-! ## The statements -/

/-- Settles O7. -/
theorem crcStepIsEightShifts : Obligations.CrcStepIsEightShifts :=
  ⟨crcShift_toNat, fun p c b => crcShifts_eq_iterate p 8 (c ^^^ b), crcStep_self,
    fun cfg s => crcFrom_eq_foldl cfg.crcPoly cfg.crcInit s⟩

/-- Settles O8. -/
theorem crc8InitLoadsTheInitialValue : Obligations.Crc8InitLoadsTheInitialValue := ⟨rfl, exec_crc8Init⟩

/-- Settles O9. -/
theorem crc8StepTakesOneByte : Obligations.Crc8StepTakesOneByte := fun b => ⟨rfl, exec_crc8Step b⟩

/-- Settles O10: the register starts at the initial value and goes through the sequence. -/
theorem serialCrcIsTheCrcOfTheSequence : Obligations.SerialCrcIsTheCrcOfTheSequence := by
  intro bytes s
  obtain ⟨r, hr⟩ := crcSteps_eq bytes
    { s with crcAcc := s.cfg.crcInit, result := some ⟨.ok, some s.cfg.crcInit.toNat, .absent⟩ }
  exact ⟨_, _, exec_crc8Init s, hr, rfl⟩

/-- Settles O11. -/
theorem crc8AnswersTheCrc : Obligations.Crc8AnswersTheCrc := fun bytes => ⟨rfl, exec_crc8 bytes⟩

/-- Settles O12; the zero CRC of the whole needs the odd polynomial of a well-formed configuration. -/
theorem crc8CheckComparesTheLastByte : Obligations.Crc8CheckComparesTheLastByte := by
  refine ⟨exec_crc8Check_concat, fun bytes last s hwf => ?_, exec_crc8Check_nil, fun _ => rfl⟩
  obtain ⟨-, -, -, -, -, -, -, -, -, -, -, -, -, -, hodd⟩ := (Config_wf_iff s.cfg).mp hwf
  exact (crc8_concat_eq_zero_iff hodd bytes last).symm

/-- Settles O13: a sequence followed by its CRC has the CRC zero, and a changed byte makes it another. -/
theorem crcResidueLinearityAndSingleByteErrors : Obligations.CrcResidueLinearityAndSingleByteErrors := by
  refine ⟨crc8_append_crc8, fun c a e hlen => ?linear, fun c s before after b b' hodd hs hne => ?detect⟩
  case linear => simpa [crc8] using crcFrom_xorBytes c.crcPoly c.crcInit 0x00#8 hlen
  case detect =>
    have hzero : crc8 c (before ++ b :: after) = 0x00#8 := hs ▸ crc8_append_crc8 c s
    exact crcCheck_none_of_crc8_ne_zero hodd (by simp) (hzero ▸ crc8_ne_of_byte_ne hodd before after hne)

end Sys2Proof.Machine
end

section
/-! The COBS encoding as a whole: the decoder reads it run by run and gets the sequence back, the decoder reads no zero byte,
and every 254 bytes of a stretch without a zero cost one code byte more (42_cobs.md R110 to R114). -/

namespace Sys2Proof.Machine

/-! ## The decoder's loop without its fuel -/

/-- The rest of a decode in progress, with the fuel the bytes left need. -/
def cobsDecodeRest (c : Codec) : Option (List Byte) := cobsDecodeRuns c.rest.length c

theorem cobsDecode_nil : cobsDecode [] = none := rfl

theorem cobsDecode_of_ne_nil {f : List Byte} (h : f ≠ []) : cobsDecode f = cobsDecodeRest { rest := f, out := [] } :=
  if_neg (mt List.isEmpty_iff.mp h)

@[simp] theorem cobsDecodeRest_nil (out : List Byte) : cobsDecodeRest { rest := [], out := out } = some out := rfl

theorem cobsDecodeRest_cons (code : Byte) (rest out : List Byte) :
    cobsDecodeRest { rest := code :: rest, out := out }
      = (cobsCodeStep code { rest := rest, out := out }).bind cobsDecodeRest := by
  refine (cobsDecodeRuns_cons rest.length code rest out).trans ?_
  cases hstep : cobsCodeStep code { rest := rest, out := out } with
  | none => rfl
  | some d => exact cobsDecodeRuns_fuel (cobsCodeStep_rest_le hstep) le_rfl

/-- An ordinary run is read whole, with its implied zero where the frame goes on. -/
theorem cobsDecodeRest_run {run : List Byte} (hl : run.length ≤ 253) (h : 0x00#8 ∉ run) (rest out : List Byte) :
    cobsDecodeRest { rest := cobsRunBytes run ++ rest, out := out }
      = cobsDecodeRest { rest := rest, out := out ++ run ++ (if rest.isEmpty then [] else [0x00#8]) } := by
  rw [cobsRunBytes, List.cons_append, cobsDecodeRest_cons, cobsCodeStep_run run rest out hl h, Option.bind_some]

theorem cobsRunBytes_full {run : List Byte} (hl : run.length = 254) : cobsRunBytes run = 0xFF#8 :: run := by
  rw [cobsRunBytes, hl]

/-- A full run is read whole, with no implied zero. -/
theorem cobsDecodeRest_fullRun {run : List Byte} (hl : run.length = 254) (h : 0x00#8 ∉ run) (rest out : List Byte) :
    cobsDecodeRest { rest := cobsRunBytes run ++ rest, out := out }
      = cobsDecodeRest { rest := rest, out := out ++ run } := by
  rw [cobsRunBytes_full hl, List.cons_append, cobsDecodeRest_cons, cobsCodeStep_full run rest out hl h, Option.bind_some]

/-- A frame that begins with a full run decodes as its data, then as what follows. -/
theorem cobsDecode_fullRun_append {x : List Byte} (hl : x.length = 254) (h : 0x00#8 ∉ x) (more : List Byte) :
    cobsDecode (0xFF#8 :: x ++ more) = cobsDecodeRest { rest := more, out := x } := by
  rw [cobsDecode_of_ne_nil (List.append_ne_nil_of_left_ne_nil (List.cons_ne_nil _ _) more), ← cobsRunBytes_full hl]
  exact cobsDecodeRest_fullRun hl h more []

/-! ## What the decoder refuses -/

/-- A run that decodes has a code byte that is not zero and data bytes of which none is, and leaves what follows them. -/
theorem cobsCodeStep_some {code : Byte} {c d : Codec} (h : cobsCodeStep code c = some d) :
    code ≠ 0x00#8 ∧ ∃ n, 0x00#8 ∉ c.rest.take n ∧ d.rest = c.rest.drop n := by
  unfold cobsCodeStep at h
  split at h
  · cases h
  · next hcode =>
    split at h <;>
    · obtain ⟨-, hzero, rfl⟩ := cobsTakeRun_eq_some.mp h
      exact ⟨hcode, _, hzero, rfl⟩

/-- The decoder reads no zero byte. -/
theorem not_mem_of_cobsDecodeRest {c : Codec} {s : List Byte} (h : cobsDecodeRest c = some s) : 0x00#8 ∉ c.rest := by
  induction hlen : c.rest.length using Nat.strong_induction_on generalizing c with
  | _ n ih =>
    obtain ⟨_ | ⟨code, rest⟩, out⟩ := c
    · exact List.not_mem_nil
    rw [cobsDecodeRest_cons] at h
    obtain ⟨d, hstep, hd⟩ := Option.bind_eq_some_iff.mp h
    obtain ⟨hcode, k, hdata, hrest⟩ := cobsCodeStep_some hstep
    have hlt : d.rest.length < n := hlen ▸ Nat.lt_succ_of_le (cobsCodeStep_rest_le hstep)
    have hleft : 0x00#8 ∉ rest.drop k := hrest ▸ ih _ hlt hd rfl
    rw [List.mem_cons, ← List.take_append_drop k rest, List.mem_append]
    rintro (hz | hz | hz)
    · exact hcode hz.symm
    · exact hdata hz
    · exact hleft hz

theorem not_mem_of_cobsDecode {f s : List Byte} (h : cobsDecode f = some s) : 0x00#8 ∉ f := by
  by_cases hf : f = []
  · simp [hf]
  · exact not_mem_of_cobsDecodeRest (cobsDecode_of_ne_nil hf ▸ h)

/-- A run that reads past the end is refused. -/
theorem cobsCodeStep_eq_none_of_short {code : Byte} {c : Codec} (h : c.rest.length + 1 < code.toNat) :
    cobsCodeStep code c = none := by
  unfold cobsCodeStep
  split
  · rfl
  · split
    · next hcode =>
      subst hcode
      exact cobsTakeRun_eq_none (.inl (Nat.lt_of_succ_lt_succ h))
    · exact cobsTakeRun_eq_none (.inl (Nat.lt_sub_of_add_lt h))

/-! ## The encoder's loop, read back -/

/-- What the encoder's loop keeps of the run in progress: no zero byte, at most 253 bytes, and none when it has just closed
a full run. -/
structure OpenRun (run : List Byte) (full : Bool) : Prop where
  noZero : 0x00#8 ∉ run
  length_le : run.length ≤ 253
  empty_of_full : full = true → run = []

theorem OpenRun.nil (full : Bool) : OpenRun [] full := ⟨List.not_mem_nil, Nat.zero_le _, fun _ => rfl⟩

theorem OpenRun.not_mem_concat {run : List Byte} {full : Bool} (h : OpenRun run full) {b : Byte} (hb : b ≠ 0x00#8) :
    0x00#8 ∉ run ++ [b] := by
  simp [h.noZero, hb.symm]

theorem OpenRun.concat {run : List Byte} {full : Bool} (h : OpenRun run full) {b : Byte} (hb : b ≠ 0x00#8)
    (hl : run.length + 1 ≠ 254) : OpenRun (run ++ [b]) false where
  noZero := h.not_mem_concat hb
  length_le := by have := h.length_le; rw [List.length_append, List.length_singleton]; omega
  empty_of_full := nofun

/-- The decoder reads what the encoder's loop writes, whatever follows it: the run in progress, then the sequence, then the
implied zero of the last run, of which there is none at the end of the frame. -/
theorem cobsDecodeRest_cobsEncodeFrom (tail : CobsTail) {run : List Byte} {full : Bool} (h : OpenRun run full)
    (s more out : List Byte) :
    ∃ implied, (more = [] → implied = []) ∧
      cobsDecodeRest { rest := cobsEncodeFrom tail run full s ++ more, out := out }
        = cobsDecodeRest { rest := more, out := out ++ run ++ s ++ implied } := by
  induction s generalizing run full out with
  | nil =>
    rw [cobsEncodeFrom_nil]
    split
    case isTrue =>
      refine ⟨if more.isEmpty then [] else [0x00#8], fun hm => by simp [hm], ?_⟩
      rw [cobsDecodeRest_run h.length_le h.noZero, List.append_nil]
    case isFalse hopen =>
      have hrun : run = [] := h.empty_of_full (Bool.not_eq_false _ |>.mp fun hf => hopen (.inr hf))
      exact ⟨[], fun _ => rfl, by simp [hrun]⟩
  | cons b s ih =>
    by_cases hb : b = 0x00#8
    · subst hb
      obtain ⟨implied, hend, hread⟩ := ih (.nil false) (out ++ run ++ [0x00#8])
      refine ⟨implied, hend, ?_⟩
      rw [cobsEncodeFrom_zero, List.append_assoc, cobsDecodeRest_run h.length_le h.noZero,
        if_neg (by simp [cobsEncodeFrom_ne_nil]), hread]
      simp
    · rw [cobsEncodeFrom_cons _ _ _ _ hb]
      split
      · next hl =>
        obtain ⟨implied, hend, hread⟩ := ih (.nil true) (out ++ (run ++ [b]))
        refine ⟨implied, hend, ?_⟩
        rw [List.append_assoc, cobsDecodeRest_fullRun (by simp [hl]) (h.not_mem_concat hb), hread]
        simp
      · next hl =>
        obtain ⟨implied, hend, hread⟩ := ih (h.concat hb hl) out
        exact ⟨implied, hend, by simpa using hread⟩

theorem cobsEncode_ne_nil (tail : CobsTail) (s : List Byte) : cobsEncode tail s ≠ [] := cobsEncodeFrom_ne_nil tail [] s

/-- A frame that begins with an encoding decodes as that sequence, then as what follows. -/
theorem cobsDecode_cobsEncode_append (tail : CobsTail) (s more : List Byte) :
    ∃ implied, (more = [] → implied = []) ∧
      cobsDecode (cobsEncode tail s ++ more) = cobsDecodeRest { rest := more, out := s ++ implied } := by
  rw [cobsDecode_of_ne_nil (List.append_ne_nil_of_left_ne_nil (cobsEncode_ne_nil tail s) more)]
  exact cobsDecodeRest_cobsEncodeFrom tail (.nil false) s more []

/-! ## The length of an encoding -/

/-- A stretch of `n` bytes without a zero ends with a full run just closed. -/
def fullStretch (n : Nat) : Bool := decide (0 < n) && decide (n % 254 = 0)

theorem fullStretch_iff (n : Nat) : fullStretch n = true ↔ 0 < n ∧ n % 254 = 0 := by simp [fullStretch]

theorem fullStretch_zero : fullStretch 0 = false := rfl

theorem fullStretch_succ (n : Nat) : fullStretch (n + 1) = decide ((n + 1) % 254 = 0) := by simp [fullStretch]

theorem length_cobsRunBytes (run : List Byte) : (cobsRunBytes run).length = run.length + 1 := rfl

/-- `n` bytes into a stretch without a zero, `n / 254` full runs are written and `n % 254` bytes are the run in progress. -/
theorem length_cobsEncodeFrom (tail : CobsTail) (run s : List Byte) (n : Nat) (hrun : run.length = n % 254) :
    (cobsEncodeFrom tail run (fullStretch n) s).length
        + (if tail = .minimal ∧ fullStretch (lastStretchFrom n s) = true then 1 else 0) + n / 254
      = run.length + s.length + 1 + fullRunsFrom n s := by
  induction s generalizing run n with
  | nil =>
    rw [cobsEncodeFrom_nil, lastStretchFrom, fullRunsFrom]
    cases tail with
    | explicit => simp [length_cobsRunBytes]
    | minimal =>
      cases hfull : fullStretch n with
      | false => simp [length_cobsRunBytes]
      | true =>
        obtain ⟨-, hmod⟩ := (fullStretch_iff n).mp hfull
        simp [hrun, hmod]
  | cons b s ih =>
    by_cases hb : b = 0x00#8
    · subst hb
      have hrest := ih [] 0 rfl
      rw [fullStretch_zero, List.length_nil] at hrest
      rw [cobsEncodeFrom_zero, lastStretchFrom, if_pos rfl, fullRunsFrom, if_pos rfl, List.length_append,
        length_cobsRunBytes, List.length_cons]
      omega
    · rw [cobsEncodeFrom_cons _ _ _ _ hb, lastStretchFrom, if_neg hb, fullRunsFrom, if_neg hb, List.length_cons]
      split
      · next hl =>
        have hmod : (n + 1) % 254 = 0 := by omega
        have hrest := ih [] (n + 1) hmod.symm
        rw [fullStretch_succ, decide_eq_true hmod, List.length_nil] at hrest
        rw [List.length_append, length_cobsRunBytes, List.length_append, List.length_singleton]
        omega
      · next hl =>
        have hmod : (n + 1) % 254 ≠ 0 := by omega
        have hrest := ih (run ++ [b]) (n + 1) (by rw [List.length_append, List.length_singleton]; omega)
        rw [fullStretch_succ, decide_eq_false hmod, List.length_append, List.length_singleton] at hrest
        omega

theorem length_cobsEncode (tail : CobsTail) (s : List Byte) :
    (cobsEncode tail s).length + (if tail = .minimal ∧ fullAtEnd s = true then 1 else 0)
      = s.length + 1 + fullRunsFrom 0 s := by
  have hlen := length_cobsEncodeFrom tail [] s 0 rfl
  rwa [fullStretch_zero, Nat.zero_div, Nat.add_zero, List.length_nil, Nat.zero_add] at hlen

theorem fullRunsFrom_le (n : Nat) (s : List Byte) : fullRunsFrom n s ≤ (n + s.length) / 254 := by
  induction s generalizing n with
  | nil => exact le_rfl
  | cons b s ih =>
    rw [fullRunsFrom, List.length_cons]
    split
    · have := ih 0
      omega
    · have := ih (n + 1)
      omega

/-! ## The operations -/

theorem exec_cobsEnc (bytes : List Byte) (s : State) :
    exec (.cobsEnc bytes) s = answer (.okBytes (cobsEncode s.cfg.cobsFfTail bytes)) s := rfl

theorem exec_cobsDec (f : List Byte) (s : State) : exec (.cobsDec f) s = answer (decodeResult (cobsDecode f)) s := rfl

/-! ## The statements -/

/-- Settles O15: the encoding read back with nothing after it. -/
theorem cobsDecodeOfEncodeIsTheSequence : Obligations.CobsDecodeOfEncodeIsTheSequence := by
  intro tail s
  obtain ⟨implied, hend, hread⟩ := cobsDecode_cobsEncode_append tail s []
  simpa [hend rfl] using hread

/-- Settles O16: an encoding has no zero byte because it decodes. -/
theorem cobsEncodingHasNoZeroAndItsLength : Obligations.CobsEncodingHasNoZeroAndItsLength := by
  intro tail s
  have hlen := length_cobsEncode tail s
  have hruns := fullRunsFrom_le 0 s
  rw [Nat.zero_add] at hruns
  exact ⟨not_mem_of_cobsDecode (cobsDecodeOfEncodeIsTheSequence tail s), hlen, by omega,
    List.length_pos_iff.mpr (cobsEncode_ne_nil tail s)⟩

/-- Settles O17: a decoded frame has no zero byte, and the encoding before a short run is read whole. -/
theorem cobsDecodeRefusesAndAccepts : Obligations.CobsDecodeRefusesAndAccepts := by
  refine ⟨cobsDecode_nil, fun f hzero => ?zero, fun s tail n f hshort => ?short, fun x hlen hzero => ⟨?bare, ?tail⟩⟩
  case zero => exact Option.eq_none_iff_forall_ne_some.mpr fun _ hs => not_mem_of_cobsDecode hs hzero
  case short =>
    obtain ⟨implied, -, hread⟩ := cobsDecode_cobsEncode_append tail s (n :: f)
    rw [hread, cobsDecodeRest_cons, cobsCodeStep_eq_none_of_short hshort, Option.bind_none]
  case bare => simpa using cobsDecode_fullRun_append hlen hzero []
  case tail =>
    calc cobsDecode (0xFF#8 :: x ++ [0x01#8])
        = cobsDecodeRest { rest := cobsRunBytes [] ++ [], out := x } := cobsDecode_fullRun_append hlen hzero _
      _ = some x := by rw [cobsDecodeRest_run (Nat.zero_le _) List.not_mem_nil]; simp

/-- Settles O18. -/
theorem cobsEncAnswersTheEncoding : Obligations.CobsEncAnswersTheEncoding := fun bytes => ⟨rfl, exec_cobsEnc bytes⟩

/-- Settles O19: the result is that of the decode. -/
theorem cobsDecAnswersTheSequence : Obligations.CobsDecAnswersTheSequence := by
  refine fun f => ⟨rfl, fun s => ⟨fun hinvalid => ?_, fun d hdecoded => ?_⟩⟩
  · rw [exec_cobsDec, hinvalid]; rfl
  · rw [exec_cobsDec, hdecoded]; rfl

end Sys2Proof.Machine
end

section
/-! The FIFO as a queue of bytes: the four operations in each of their cases, what a push appends and a pop removes, and the
capacity (43_fifo.md R120 to R126). -/

namespace Sys2Proof.Machine

/-! ## The state after a byte is stored or taken -/

/-- The byte `b` in the write slot, the write index advanced (43_fifo.md R120). -/
def storedByte (b : Byte) (s : State) : State :=
  { s with fifoMem := Memory.write s.fifoMem s.fifoWr b, fifoWr := nextIndex s s.fifoWr }

/-- The read index advanced (43_fifo.md R121). -/
def takenByte (s : State) : State := { s with fifoRd := nextIndex s s.fifoRd }

theorem pushByte_of_full {s : State} (b : Byte) (hf : fifoFull s = true) :
    pushByte b s = .ok (.nonePlain, s.raise .fifoOvf) := pushByte_eq_ok.mpr (.inl ⟨hf, rfl, rfl⟩)

theorem pushByte_of_room {s : State} (b : Byte) (hf : fifoFull s = false) (hw : s.fifoWr < s.cfg.fifoN) :
    pushByte b s = .ok (.okPlain, storedByte b s) := pushByte_eq_ok.mpr (.inr ⟨hf, hw, rfl, rfl⟩)

theorem popByte_of_empty {s : State} (he : s.fifoRd = s.fifoWr) : popByte s = .ok (none, s) :=
  popByte_eq_ok.mpr (.inl ⟨he, rfl, rfl⟩)

theorem popByte_of_pending {s : State} {b : Byte} (hne : s.fifoRd ≠ s.fifoWr)
    (hb : Memory.read s.fifoMem s.fifoRd = some b) : popByte s = .ok (some b, takenByte s) :=
  popByte_eq_ok.mpr (.inr ⟨hne, b, hb, rfl, rfl⟩)

/-! ## The operations, case by case -/

theorem exec_fifoPush (b : Byte) (s : State) : exec (.fifoPush b) s = execFifoPush b s := rfl

theorem exec_fifoPop (s : State) : exec .fifoPop s = execFifoPop s := rfl

theorem exec_fifoPush_other {s : State} (b : Byte) (h : s.inputs.issuer ≠ .producer) :
    exec (.fifoPush b) s = takeFault .wrongAgent s := (exec_fifoPush b s).trans (ownedBy_other h)

/-- A push of P is `pushByte` while the hook is attached, and no step while it is not. -/
theorem exec_fifoPush_producer {s : State} (b : Byte) (h : s.inputs.issuer = .producer) :
    exec (.fifoPush b) s = if s.prodEn then finish (pushByte b s) else .fault .stuck :=
  (exec_fifoPush b s).trans (ownedBy_owner h)

theorem exec_fifoPush_full {s : State} (b : Byte) (h : s.inputs.issuer = .producer) (hp : s.prodEn = true)
    (hf : fifoFull s = true) : exec (.fifoPush b) s = .next ((s.raise .fifoOvf).answer .nonePlain) := by
  rw [exec_fifoPush_producer b h, if_pos hp, pushByte_of_full b hf]; rfl

theorem exec_fifoPush_room {s : State} (b : Byte) (h : s.inputs.issuer = .producer) (hp : s.prodEn = true)
    (hf : fifoFull s = false) (hw : s.fifoWr < s.cfg.fifoN) :
    exec (.fifoPush b) s = .next ((storedByte b s).answer .okPlain) := by
  rw [exec_fifoPush_producer b h, if_pos hp, pushByte_of_room b hf hw]; rfl

theorem exec_fifoPop_other {s : State} (h : s.inputs.issuer ≠ .consumer) :
    exec .fifoPop s = takeFault .wrongAgent s := (exec_fifoPop s).trans (ownedBy_other h)

/-- A pop of C answers what `popByte` does. -/
theorem exec_fifoPop_of_popByte {s t : State} {b : Option Byte} (h : s.inputs.issuer = .consumer)
    (hpop : popByte s = .ok (b, t)) : exec .fifoPop s = .next (t.answer (popResult b)) := by
  rw [exec_fifoPop, execFifoPop, ownedBy_owner h, hpop]; rfl

theorem exec_fifoPop_empty {s : State} (h : s.inputs.issuer = .consumer) (he : s.fifoRd = s.fifoWr) :
    exec .fifoPop s = .next (s.answer .nonePlain) := exec_fifoPop_of_popByte h (popByte_of_empty he)

theorem exec_fifoPop_pending {s : State} {b : Byte} (h : s.inputs.issuer = .consumer) (hne : s.fifoRd ≠ s.fifoWr)
    (hb : Memory.read s.fifoMem s.fifoRd = some b) :
    exec .fifoPop s = .next ((takenByte s).answer (.okValue b.toNat)) :=
  exec_fifoPop_of_popByte h (popByte_of_pending hne hb)

theorem quiesced_eq_true (s : State) : quiesced s = true ↔ s.prodEn = false ∧ s.cInPump = false := by simp [quiesced]

theorem quiesced_eq_false (s : State) : quiesced s = false ↔ s.prodEn = true ∨ s.cInPump = true := by
  cases hp : s.prodEn <;> simp [quiesced, hp]

theorem exec_fifoClear (s : State) :
    exec .fifoClear s
      = if quiesced s then answer .okPlain { s with fifoRd := 0, fifoWr := 0 } else takeFault .clearActive s := rfl

theorem exec_fifoLevel (s : State) : exec .fifoLevel s = answer (.okValue (fifoLevel s)) s := rfl

/-! ## The pending bytes -/

/-- Every pending slot is filled, so the queue has as many bytes as the level says. -/
theorem length_pendingBytes {s : State} (hi : Inv s) : (pendingBytes s).length = fifoLevel s := by
  rw [pendingBytes, List.length_filterMap_eq_countP, List.countP_eq_length.mpr, List.length_range]
  exact fun j hj => hi.fifoFilled j (List.mem_range.mp hj)

theorem pendingBytes_of_eq {s : State} (h : s.fifoRd = s.fifoWr) : pendingBytes s = [] := by
  rw [pendingBytes, fifoLevel_of_eq h]; rfl

/-- The write slot is none of the pending ones. -/
theorem pendingSlot_ne_fifoWr {s : State} (hi : Inv s) {j : Nat} (hj : j < fifoLevel s) : pendingSlot s j ≠ s.fifoWr := by
  have hr := hi.fifoRdLt
  have hw := hi.fifoWrLt
  have hlt := fifoLevel_lt hr hw
  rw [pendingSlot_eq hr (by omega)]
  rw [fifoLevel_eq hr hw] at hj
  split_ifs at hj ⊢ <;> omega

/-- A stored byte goes to the end of the queue, and the bytes before it stay where they are. -/
theorem pendingBytes_storedByte {s : State} (hi : Inv s) (hf : fifoFull s = false) (b : Byte) :
    pendingBytes (storedByte b s) = pendingBytes s ++ [b] := by
  obtain ⟨hlevel, hslot⟩ := fifoLevel_push hi hf (Memory.write s.fifoMem s.fifoWr b)
  have hold : ∀ j ∈ List.range (fifoLevel s),
      Memory.read (storedByte b s).fifoMem (pendingSlot s j) = Memory.read s.fifoMem (pendingSlot s j) :=
    fun j hj => Memory.read_write_ne _ b (pendingSlot_ne_fifoWr hi (List.mem_range.mp hj))
  have hnew : Memory.read (storedByte b s).fifoMem (pendingSlot s (fifoLevel s)) = some b := by
    rw [hslot]; exact Memory.read_write_same _ _ b
  calc pendingBytes (storedByte b s)
      = (List.range (fifoLevel s + 1)).filterMap fun j => Memory.read (storedByte b s).fifoMem (pendingSlot s j) := by
        rw [← hlevel]; rfl
    _ = pendingBytes s ++ [b] := by
        rw [List.range_succ, List.filterMap_append, List.filterMap_congr hold]
        simp [hnew, pendingBytes]

/-- A taken byte was the first of the queue, and the rest is what is left. -/
theorem pendingBytes_eq_cons {s : State} {b : Byte} (hi : Inv s) (hne : s.fifoRd ≠ s.fifoWr)
    (hb : Memory.read s.fifoMem s.fifoRd = some b) : pendingBytes s = b :: pendingBytes (takenByte s) := by
  obtain ⟨hlevel, hslot⟩ := fifoLevel_pop hi hne
  have hfirst : pendingSlot s 0 = s.fifoRd := Nat.mod_eq_of_lt hi.fifoRdLt
  have hrest : ∀ j ∈ List.range (fifoLevel (takenByte s)),
      Memory.read s.fifoMem (pendingSlot (takenByte s) j) = Memory.read s.fifoMem (pendingSlot s (j + 1)) := by
    intro j hj
    have hlt : j < fifoLevel (takenByte s) := List.mem_range.mp hj
    exact congrArg (Memory.read s.fifoMem) (hslot j (hlevel ▸ Nat.succ_lt_succ hlt))
  calc pendingBytes s
      = (List.range (fifoLevel (takenByte s) + 1)).filterMap fun j => Memory.read s.fifoMem (pendingSlot s j) :=
        congrArg (fun n => (List.range n).filterMap _) hlevel.symm
    _ = b :: (List.range (fifoLevel (takenByte s))).filterMap fun j => Memory.read s.fifoMem (pendingSlot s (j + 1)) := by
        rw [List.range_succ_eq_map, List.filterMap_cons_some (by rw [hfirst, hb]), List.filterMap_map]; rfl
    _ = b :: pendingBytes (takenByte s) := by rw [← List.filterMap_congr hrest]; rfl

theorem pendingBytes_eq_nil_iff {s : State} (hi : Inv s) : pendingBytes s = [] ↔ s.fifoRd = s.fifoWr := by
  refine ⟨fun hnil => ?_, pendingBytes_of_eq⟩
  by_contra hne
  obtain ⟨b, hb⟩ := hi.read_fifoRd hne
  rw [pendingBytes_eq_cons hi hne hb] at hnil
  cases hnil

theorem length_pendingBytes_lt {s : State} (hi : Inv s) : (pendingBytes s).length < s.cfg.fifoN := by
  rw [length_pendingBytes hi]; exact fifoLevel_lt hi.fifoRdLt hi.fifoWrLt

/-- One slot stays unused: the FIFO is full with `FIFO_N − 1` bytes pending (10_state.md R25). -/
theorem fifoFull_iff_length {s : State} (hi : Inv s) :
    fifoFull s = true ↔ (pendingBytes s).length = s.cfg.fifoN - 1 := by
  have hr := hi.fifoRdLt
  have hw := hi.fifoWrLt
  change decide (nextIndex s s.fifoWr = s.fifoRd) = true ↔ _
  rw [decide_eq_true_iff, nextIndex_eq hw, length_pendingBytes hi, fifoLevel_eq hr hw]
  split_ifs <;> omega

/-! ## A run of pushes -/

/-- The bytes were appended to the queue, and nothing but the storage, the write index and the result has moved. -/
structure Appended (bytes : List Byte) (s t : State) : Prop where
  inv : Inv t
  pending : pendingBytes t = pendingBytes s ++ bytes
  frame : t = { s with fifoMem := t.fifoMem, fifoWr := t.fifoWr, result := t.result }

namespace Appended

variable {b : Byte} {bytes : List Byte} {s t u : State}

theorem nil (hi : Inv s) : Appended [] s s := ⟨hi, (List.append_nil _).symm, rfl⟩

theorem cons (h : Appended [b] s t) (h' : Appended bytes t u) : Appended (b :: bytes) s u where
  inv := h'.inv
  pending := by rw [h'.pending, h.pending, List.append_assoc]; rfl
  frame := h'.frame.trans (by rw [h.frame])

theorem cfg (h : Appended bytes s t) : t.cfg = s.cfg := by rw [h.frame]

theorem issuer (h : Appended bytes s t) : t.inputs.issuer = s.inputs.issuer := by rw [h.frame]

theorem prodEn (h : Appended bytes s t) : t.prodEn = s.prodEn := by rw [h.frame]

theorem cnt (h : Appended bytes s t) : t.cnt = s.cnt := by rw [h.frame]

end Appended

/-- A push with room appends its byte. -/
theorem exec_fifoPush_appends {s : State} (hi : Inv s) (b : Byte) (h : s.inputs.issuer = .producer)
    (hp : s.prodEn = true) (hroom : (pendingBytes s).length < s.cfg.fifoN - 1) :
    ∃ t, exec (.fifoPush b) s = .next t ∧ Appended [b] s t := by
  have hf : fifoFull s = false := Bool.eq_false_iff.mpr fun hfull => hroom.ne ((fifoFull_iff_length hi).mp hfull)
  have hinv : Inv (storedByte b s) := hi.pushByte (pushByte_of_room b hf hi.fifoWrLt)
  exact ⟨_, exec_fifoPush_room b h hp hf hi.fifoWrLt, hinv.answer _, pendingBytes_storedByte hi hf b, rfl⟩

theorem pushAll_cons {b : Byte} {s t : State} (bytes : List Byte) (h : exec (.fifoPush b) s = .next t) :
    pushAll (b :: bytes) s = pushAll bytes t := by
  rw [pushAll, h]

/-- Pushes that find room, one after the other, append their bytes in order. -/
theorem pushAll_appends {s : State} (bytes : List Byte) (hi : Inv s) (h : s.inputs.issuer = .producer)
    (hp : s.prodEn = true) (hroom : (pendingBytes s).length + bytes.length ≤ s.cfg.fifoN - 1) :
    ∃ t, pushAll bytes s = .next t ∧ Appended bytes s t := by
  induction bytes generalizing s with
  | nil => exact ⟨s, rfl, .nil hi⟩
  | cons b bytes ih =>
    rw [List.length_cons] at hroom
    obtain ⟨t, hpush, happ⟩ := exec_fifoPush_appends hi b h hp (by omega)
    have hleft : (pendingBytes t).length + bytes.length ≤ t.cfg.fifoN - 1 := by
      rw [happ.pending, happ.cfg, List.length_append, List.length_singleton]; omega
    obtain ⟨u, hrun, hrest⟩ := ih happ.inv (happ.issuer.trans h) (happ.prodEn.trans hp) hleft
    exact ⟨u, (pushAll_cons bytes hpush).trans hrun, happ.cons hrest⟩

/-! ## The statements -/

/-- Settles O28: room, a full queue, a byte to pop and an empty queue are read off the length and the first byte. -/
theorem fifoIsABoundedByteQueue : Obligations.FifoIsABoundedByteQueue := by
  intro s hi
  refine ⟨length_pendingBytes hi, Nat.le_sub_one_of_lt (length_pendingBytes_lt hi), fun b ho hp hroom => ?push,
    fun b ho hp hlen => ?full, fun b bs ho hcons => ?pop, fun ho hnil => ?empty⟩
  case push =>
    obtain ⟨t, hpush, happ⟩ := exec_fifoPush_appends hi b ho hp hroom
    exact ⟨t, hpush, happ.pending, happ.cnt⟩
  case full => exact ⟨_, exec_fifoPush_full b ho hp ((fifoFull_iff_length hi).mpr hlen), rfl, rfl⟩
  case pop =>
    have hne : s.fifoRd ≠ s.fifoWr := fun he => by rw [pendingBytes_of_eq he] at hcons; cases hcons
    obtain ⟨x, hx⟩ := hi.read_fifoRd hne
    obtain ⟨rfl, hrest⟩ := List.cons.inj ((pendingBytes_eq_cons hi hne hx).symm.trans hcons)
    exact ⟨_, exec_fifoPop_pending ho hne hx, hrest, rfl⟩
  case empty => exact ⟨_, exec_fifoPop_empty ho ((pendingBytes_eq_nil_iff hi).mp hnil), hnil, rfl⟩

/-- Settles O29: the pushes find room to the last, and then the FIFO is full. -/
theorem fifoTakesExactlyItsCapacity : Obligations.FifoTakesExactlyItsCapacity := by
  intro s bytes b hi ho hp he hlen
  have hnil : pendingBytes s = [] := pendingBytes_of_eq he
  obtain ⟨t, hrun, happ⟩ := pushAll_appends bytes hi ho hp (by rw [hnil, List.length_nil]; omega)
  have hpending : pendingBytes t = bytes := by rw [happ.pending, hnil, List.nil_append]
  have hf : fifoFull t = true := (fifoFull_iff_length happ.inv).mpr (by rw [hpending, hlen, happ.cfg])
  exact ⟨t, _, hrun, hpending, happ.cnt,
    exec_fifoPush_full b (happ.issuer.trans ho) (happ.prodEn.trans hp) hf, rfl, rfl⟩

/-- Settles O24, in the order of its cases. -/
theorem fifoPushStoresOrCountsTheOverflow : Obligations.FifoPushStoresOrCountsTheOverflow := by
  refine fun b s => ⟨rfl, exec_fifoPush_other b, fun ho hp => ?detached, fun ho hp hfull => ?full,
    fun ho hp hroom hw => ?room⟩
  case detached => rw [exec_fifoPush_producer b ho, hp]; rfl
  case full => exact exec_fifoPush_full b ho hp ((fifoFull_eq_true s).mpr hfull)
  case room =>
    have hf : fifoFull s = false := Bool.eq_false_iff.mpr fun h => hroom ((fifoFull_eq_true s).mp h)
    exact ⟨_, exec_fifoPush_room b ho hp hf hw, rfl, Memory.read_write_same _ _ b,
      fun a hne => Memory.read_write_ne _ b hne⟩

/-- Settles O25. -/
theorem fifoPopAnswersTheOldestByte : Obligations.FifoPopAnswersTheOldestByte := fun _ =>
  ⟨rfl, exec_fifoPop_other, exec_fifoPop_empty, fun ho hne _ hb => exec_fifoPop_pending ho hne hb⟩

/-- Settles O26, by whether both sides are quiesced. -/
theorem fifoClearNeedsBothSidesQuiesced : Obligations.FifoClearNeedsBothSidesQuiesced := by
  refine fun s => ⟨rfl, fun hp hc => ?quiet, fun hactive => ?active⟩
  case quiet => rw [exec_fifoClear, if_pos ((quiesced_eq_true s).mpr ⟨hp, hc⟩)]; rfl
  case active => rw [exec_fifoClear, (quiesced_eq_false s).mpr hactive]; rfl

/-- Settles O27. -/
theorem fifoLevelAnswersTheLevel : Obligations.FifoLevelAnswersTheLevel := fun s => ⟨rfl, exec_fifoLevel s⟩

end Sys2Proof.Machine
end

section
/-! The receiver: a byte it takes in each of its four ways, RX_STEP and RX_PUMP as iterations of it, and the checks of a
frame (44_frame.md R130 to R133). -/

namespace Sys2Proof.Machine

/-! ## One byte taken -/

theorem takeByte_idleDelim {s : State} (h : s.accLen = 0) : takeByte 0x00#8 s = .ok (.idleDelim, s) :=
  takeByte_eq_ok.mpr (.inl ⟨rfl, h, rfl, rfl⟩)

theorem takeByte_frameEnd {s : State} {frame : List Byte} (h : s.accLen ≠ 0)
    (hf : Memory.readRange s.accMem 0 s.accLen = some frame) :
    takeByte 0x00#8 s = .ok (validateFrame frame { s with accLen := 0 }) :=
  takeByte_eq_ok.mpr (.inr (.inl ⟨rfl, h, frame, hf, rfl⟩))

theorem takeByte_overflow {b : Byte} {s : State} (hb : b ≠ 0x00#8) (h : s.accLen = s.cfg.accMax) :
    takeByte b s = .ok (.accOverflow, { s with accLen := 0 }.raise .accOvf) :=
  takeByte_eq_ok.mpr (.inr (.inr (.inl ⟨hb, h, rfl, rfl⟩)))

theorem takeByte_append {b : Byte} {s : State} (hb : b ≠ 0x00#8) (h : s.accLen < s.cfg.accMax) :
    takeByte b s
      = .ok (.accumulated, { s with accMem := Memory.write s.accMem s.accLen b, accLen := s.accLen + 1 }) :=
  takeByte_eq_ok.mpr (.inr (.inr (.inr ⟨hb, h, rfl, rfl⟩)))

/-! ## One iteration -/

theorem receiveByte_of_empty {s : State} (he : s.fifoRd = s.fifoWr) :
    receiveByte s = .ok (.nonePlain, { s with rxResult := some .nonePlain }) :=
  receiveByte_eq_ok.mpr (.inl ⟨he, rfl, rfl⟩)

theorem receiveByte_of_pending {s u : State} {b : Byte} {code : RxCode} (hne : s.fifoRd ≠ s.fifoWr)
    (hb : Memory.read s.fifoMem s.fifoRd = some b) (ht : takeByte b (takenByte s) = .ok (code, u)) :
    receiveByte s = .ok (.okValue code.number, { u with rxResult := some (.okValue code.number) }) :=
  receiveByte_eq_ok.mpr (.inr ⟨hne, b, code, u, hb, ht, rfl, rfl⟩)

/-- An iteration has the status `NONE` on an empty FIFO and `OK` otherwise. -/
theorem receiveByte_status {s u : State} {r : OpResult} (h : receiveByte s = .ok (r, u)) :
    r.status = if s.fifoRd = s.fifoWr then .none else .ok := by
  rcases receiveByte_eq_ok.mp h with ⟨he, rfl, -⟩ | ⟨hne, b, code, v, -, -, rfl, -⟩
  · rw [if_pos he]; rfl
  · rw [if_neg hne]; rfl

/-! ## The guards of RX_STEP and RX_PUMP -/

theorem receiverBusy_eq_true (s : State) : receiverBusy s = true ↔ s.cInPump = true ∨ s.sinkBusy = true :=
  Bool.or_eq_true_iff

theorem receiverBusy_eq_false {s : State} (hp : s.cInPump = false) (hs : s.sinkBusy = false) :
    receiverBusy s = false := by
  rw [receiverBusy, hp, hs]; rfl

/-- An operation of the receiver issued by another agent. -/
theorem receiverOp_other {op : State → Answer} {s : State} (h : s.inputs.issuer ≠ .consumer) :
    ownedBy .consumer (notReentrant op) s = .next { s with fault := some .wrongAgent, result := none } := ownedBy_other h

/-- An operation of the receiver while another one is unfinished. -/
theorem receiverOp_busy {op : State → Answer} {s : State} (h : s.inputs.issuer = .consumer)
    (hb : s.cInPump = true ∨ s.sinkBusy = true) :
    ownedBy .consumer (notReentrant op) s = .next { s with fault := some .reentrant, result := none } :=
  (ownedBy_owner h).trans (notReentrant_busy ((receiverBusy_eq_true s).mpr hb))

/-- An operation of the receiver that nothing is in the way of. -/
theorem receiverOp_free {op : State → Answer} {s : State} (h : s.inputs.issuer = .consumer) (hp : s.cInPump = false)
    (hs : s.sinkBusy = false) : ownedBy .consumer (notReentrant op) s = op s :=
  (ownedBy_owner h).trans (notReentrant_free (receiverBusy_eq_false hp hs))

/-! ## RX_STEP -/

/-- RX_STEP answers what its iteration does. -/
theorem exec_rxStep_eq_next {s t : State} (h : s.inputs.issuer = .consumer) (hp : s.cInPump = false)
    (hs : s.sinkBusy = false) : exec .rxStep s = .next t ↔ ∃ r u, receiveByte s = .ok (r, u) ∧ t = u.answer r := by
  rw [← finish_eq_next, ← receiverOp_free (op := fun s => finish (receiveByte s)) h hp hs]
  rfl

theorem exec_rxStep_of_receiveByte {s u : State} {r : OpResult} (h : s.inputs.issuer = .consumer)
    (hp : s.cInPump = false) (hs : s.sinkBusy = false) (hr : receiveByte s = .ok (r, u)) :
    exec .rxStep s = .next (u.answer r) := (exec_rxStep_eq_next h hp hs).mpr ⟨r, u, hr, rfl⟩

/-- RX_STEP on a pending byte answers the code of how the byte was taken. -/
theorem exec_rxStep_of_takeByte {s u : State} {b : Byte} {code : RxCode} (h : s.inputs.issuer = .consumer)
    (hp : s.cInPump = false) (hs : s.sinkBusy = false) (hne : s.fifoRd ≠ s.fifoWr)
    (hb : Memory.read s.fifoMem s.fifoRd = some b) (ht : takeByte b (takenByte s) = .ok (code, u)) :
    exec .rxStep s
      = .next { u with result := some (.okValue code.number), rxResult := some (.okValue code.number) } :=
  exec_rxStep_of_receiveByte h hp hs (receiveByte_of_pending hne hb ht)

/-- A validated frame is delivered or dropped, with the result code of that. -/
theorem validateFrame_code (frame : List Byte) (s : State) :
    ∃ code t, validateFrame frame s = (code, t) ∧ (code = .delivered ∨ code = .dropped)
      ∧ code.number = if code = .delivered then 2 else 3 := by
  rcases validateFrame_cases frame s with ⟨e, -, h⟩ | ⟨ch, p, -, h⟩
  · exact ⟨_, _, h, .inr rfl, rfl⟩
  · exact ⟨_, _, h, .inl rfl, rfl⟩

/-- Settles O30: the guards, the empty FIFO, and the four ways a byte is taken. -/
theorem rxStepTakesOneByte : Obligations.RxStepTakesOneByte := by
  refine fun s => ⟨rfl, receiverOp_other, receiverOp_busy, fun ho hp hs =>
    ⟨fun he => exec_rxStep_of_receiveByte ho hp hs (receiveByte_of_empty he), fun b hne hb =>
      ⟨fun hz h0 => ?idleDelim, fun hz hpos frame hf => ?frameEnd, fun hnz hmax => ?overflow,
        fun hnz hroom => ?append⟩⟩⟩
  case idleDelim =>
    subst hz
    exact exec_rxStep_of_takeByte ho hp hs hne hb (takeByte_idleDelim h0)
  case frameEnd =>
    subst hz
    have ht := takeByte_frameEnd (s := takenByte s) hpos.ne' hf
    obtain ⟨code, t, hv, hcode, hnumber⟩ := validateFrame_code frame { takenByte s with accLen := 0 }
    refine ⟨code, t, hv, hcode, ?_⟩
    rw [← hnumber]
    exact exec_rxStep_of_takeByte ho hp hs hne hb (ht.trans (congrArg Except.ok hv))
  case overflow => exact exec_rxStep_of_takeByte ho hp hs hne hb (takeByte_overflow hnz hmax)
  case append =>
    exact ⟨_, exec_rxStep_of_takeByte ho hp hs hne hb (takeByte_append hnz hroom), rfl,
      Memory.read_write_same _ _ b, fun a ha => Memory.read_write_ne _ b ha⟩

/-! ## RX_PUMP -/

/-- The iteration that finds the FIFO empty ends the pump with its count. -/
theorem pumpIteration_of_empty {s : State} (he : s.fifoRd = s.fifoWr) :
    pumpIteration s = .next { s with cInPump := false, pumpCount := 0, rxResult := some .nonePlain
                                     result := some (.okValue (wrap32 s.pumpCount)) } :=
  pumpIteration_eq_next.mpr ⟨_, _, receiveByte_of_empty he, .inl ⟨rfl, rfl⟩⟩

/-- Any other is counted and leaves the pump in progress. -/
theorem pumpIteration_of_pending {s u : State} {r : OpResult} (hne : s.fifoRd ≠ s.fifoWr)
    (h : receiveByte s = .ok (r, u)) :
    pumpIteration s = .next { u with cInPump := true, pumpCount := u.pumpCount + 1, result := none } := by
  have hstatus : r.status ≠ .none := by rw [receiveByte_status h, if_neg hne]; decide
  exact pumpIteration_eq_next.mpr ⟨r, u, h, .inr ⟨hstatus, rfl⟩⟩

/-- A pump iteration is an iteration of the receiver, after which the pump goes on exactly where a byte was pending. -/
theorem pumpIteration_of_receiveByte {s u : State} {r : OpResult} (h : receiveByte s = .ok (r, u)) :
    ∃ n res, pumpIteration s
      = .next { u with cInPump := decide (s.fifoRd ≠ s.fifoWr), pumpCount := n, result := res } := by
  by_cases he : s.fifoRd = s.fifoWr
  · rw [receiveByte_of_empty he] at h
    cases h
    exact ⟨_, _, (pumpIteration_of_empty he).trans (by rw [decide_eq_false (not_not.mpr he)])⟩
  · exact ⟨_, _, (pumpIteration_of_pending he h).trans (by rw [decide_eq_true he])⟩

theorem exec_rxPump_free {s : State} (h : s.inputs.issuer = .consumer) (hp : s.cInPump = false)
    (hs : s.sinkBusy = false) : exec .rxPump s = pumpIteration { s with cInPump := true, pumpCount := 0 } :=
  receiverOp_free h hp hs

theorem pumpStep_of_pump {s : State} (hp : s.cInPump = true) (hs : s.sinkBusy = false) :
    pumpStep s = pumpIteration s := by
  rw [pumpStep, hp, hs]; rfl

/-- Settles O32: the pump's own fields do not matter to an iteration. -/
theorem rxPumpIsASequenceOfRxSteps : Obligations.RxPumpIsASequenceOfRxSteps := by
  refine fun s => ⟨rfl, receiverOp_other, receiverOp_busy, fun ho hp hs he => ?firstEmpty, fun ho hp hs hne u hu => ?first,
    fun _ hp hs he => ?laterEmpty, fun ho hp hs hne u hu => ?later⟩
  case firstEmpty =>
    rw [hp]
    exact (exec_rxPump_free ho hp hs).trans (pumpIteration_of_empty (s := { s with cInPump := true, pumpCount := 0 }) he)
  case first =>
    obtain ⟨r, v, hr, rfl⟩ := (exec_rxStep_eq_next ho hp hs).mp hu
    exact (exec_rxPump_free ho hp hs).trans (pumpIteration_of_pending (s := { s with cInPump := true, pumpCount := 0 }) hne
      (receiveByte_pump_fields true 0 hr))
  case laterEmpty =>
    rw [pumpStep_of_pump hp hs, pumpIteration_of_empty he]
    rfl
  case later =>
    obtain ⟨r, v, hr, rfl⟩ := (exec_rxStep_eq_next (s := { s with cInPump := false }) ho rfl hs).mp hu
    have hs' : { s with cInPump := true } = s := by rw [← hp]
    have hr' := receiveByte_pump_fields true s.pumpCount hr
    dsimp only at hr'
    rw [hs'] at hr'
    exact (pumpStep_of_pump hp hs).trans (pumpIteration_of_pending hne hr')

/-- Settles O33: an iteration of the receiver completes in every state of the invariant. -/
theorem receiverCompletesFromTheInvariant : Obligations.ReceiverCompletesFromTheInvariant := by
  intro s hi ho hp hs
  constructor
  · obtain ⟨r, u, hr⟩ := hi.receiveByte_completes
    obtain ⟨-, -, -, -, -, -, -, hfault, -⟩ := receiveByte_frame hr
    refine ⟨_, r, exec_rxStep_of_receiveByte ho hp hs hr, hfault, rfl, ?_⟩
    rw [receiveByte_status hr]
    split <;> decide
  · obtain ⟨r, u, hr⟩ := (hi.withPump true 0 nofun).receiveByte_completes
    obtain ⟨-, -, -, -, -, -, -, hfault, -⟩ := receiveByte_frame hr
    obtain ⟨n, res, hpump⟩ := pumpIteration_of_receiveByte hr
    exact ⟨_, (exec_rxPump_free ho hp hs).trans hpump, hfault, rfl⟩

/-! ## The checks of a frame -/

theorem judgeFrame_of_invalid {c : Config} {frame : List Byte} (h : cobsDecode frame = none) :
    judgeFrame c frame = .rejected .cobsErr := by rw [judgeFrame, h]

/-- A decoded sequence with no room for a payload is too short. -/
theorem judgeFrame_of_short {c : Config} {frame d : List Byte} (h : cobsDecode frame = some d) (hlen : d.length < 3) :
    judgeFrame c frame = .rejected .short := by
  rw [judgeFrame, h]
  match d, hlen with
  | [], _ | [_], _ | [_, _], _ => rfl

/-- A decoded sequence of channel, payload and last byte is judged by its checksum. -/
theorem judgeFrame_of_decoded {c : Config} {frame payload : List Byte} {ch last : Byte}
    (h : cobsDecode frame = some (ch :: payload ++ [last])) (hp : payload ≠ []) :
    judgeFrame c frame = if crc8 c (ch :: payload) = last then .message ch payload else .rejected .crcErr := by
  obtain ⟨p, ps, rfl⟩ := List.exists_cons_of_ne_nil hp
  obtain ⟨q, qs, hq⟩ := List.exists_cons_of_ne_nil (List.append_ne_nil_of_right_ne_nil ps (List.cons_ne_nil last []))
  have hdrop : (p :: q :: qs).dropLast = p :: ps := by rw [← hq, ← List.cons_append, List.dropLast_concat]
  have hlast : (p :: q :: qs).getLastD 0x00#8 = last := by rw [← hq, ← List.cons_append, List.getLastD_concat]
  rw [judgeFrame, h, List.cons_append, List.cons_append, hq]
  simp only [hdrop, hlast]

/-- A sequence of three bytes or more is a channel, a payload and a last byte. -/
theorem exists_payload_of_length {d : List Byte} (h : 3 ≤ d.length) :
    ∃ ch payload last, payload ≠ [] ∧ d = ch :: payload ++ [last] := by
  obtain ⟨init, last, rfl⟩ := List.eq_nil_or_concat' d |>.resolve_left (by rintro rfl; simp at h)
  match init, h with
  | ch :: p :: ps, _ => exact ⟨ch, p :: ps, last, List.cons_ne_nil _ _, rfl⟩

/-- The parts of such a sequence, by their places in it. -/
theorem parts_of_decoded {d payload : List Byte} {ch last : Byte} (h : d = ch :: payload ++ [last]) :
    d.take (d.length - 1) = ch :: payload ∧ d.getD (d.length - 1) 0x00#8 = last ∧ d.getD 0 0x00#8 = ch
      ∧ (d.drop 1).take (d.length - 2) = payload := by
  subst h
  simp

theorem validateFrame_of_rejected {frame : List Byte} {s : State} {e : Event}
    (h : judgeFrame s.cfg frame = .rejected e) : validateFrame frame s = (.dropped, s.raise e) := by
  rw [validateFrame, h]

theorem validateFrame_of_message {frame payload : List Byte} {s : State} {ch : Byte}
    (h : judgeFrame s.cfg frame = .message ch payload) :
    validateFrame frame s = (.delivered, deliver ch payload s) := by
  rw [validateFrame, h]

/-- Settles O31, check by check. -/
theorem frameChecksComeInOrder : Obligations.FrameChecksComeInOrder := by
  refine fun frame s => ⟨fun h => validateFrame_of_rejected (judgeFrame_of_invalid h), fun d h =>
    ⟨fun hlen => validateFrame_of_rejected (judgeFrame_of_short h hlen), fun hlen hcrc => ?wrong,
      fun hlen hcrc => ?right⟩⟩
  all_goals
    obtain ⟨ch, payload, last, hp, hd⟩ := exists_payload_of_length hlen
    obtain ⟨htake, hlast, hfirst, hmiddle⟩ := parts_of_decoded hd
    have hjudge := judgeFrame_of_decoded (c := s.cfg) (hd ▸ h) hp
    rw [htake, hlast] at hcrc
  case wrong =>
    rw [if_neg hcrc] at hjudge
    exact validateFrame_of_rejected hjudge
  case right =>
    rw [if_pos hcrc] at hjudge
    rw [validateFrame_of_message hjudge, hfirst, hmiddle]
    rfl

end Sys2Proof.Machine
end

section
/-! The receiver while the message sink runs: every operation and every entry of the schedule but the sink's return and RESET
leaves the accumulation buffer, the delivered messages and the sink as they are (44_frame.md R132; 60_exceptions.md R202). -/

namespace Sys2Proof.Machine

/-- The accumulation buffer, the delivered messages and the sink are the same in both states. -/
structure ReceiverStill (s t : State) : Prop where
  accMem : t.accMem = s.accMem
  accLen : t.accLen = s.accLen
  msgOut : t.msgOut = s.msgOut
  sinkBusy : t.sinkBusy = s.sinkBusy

namespace ReceiverStill

variable {s t u : State}

theorem refl (s : State) : ReceiverStill s s := ⟨rfl, rfl, rfl, rfl⟩

/-! ## The shared operations -/

theorem of_answer {r : OpResult} (h : answer r u = .next t) (hu : ReceiverStill s u) : ReceiverStill s t := by
  obtain rfl := (answer_eq_next ..).mp h
  exact ⟨hu.accMem, hu.accLen, hu.msgOut, hu.sinkBusy⟩

theorem of_takeFault {why : Misuse} (h : takeFault why s = .next t) : ReceiverStill s t := by
  obtain rfl := (takeFault_eq_next ..).mp h
  exact ⟨rfl, rfl, rfl, rfl⟩

theorem of_ownedBy {a : Agent} {op : State → Answer} (h : ownedBy a op s = .next t)
    (hop : op s = .next t → ReceiverStill s t) : ReceiverStill s t := by
  unfold ownedBy at h
  split at h
  · exact hop h
  · exact .of_takeFault h

/-- An operation of the receiver only takes its fault while the sink runs. -/
theorem of_receiverOp {op : State → Answer} (h : ownedBy .consumer (notReentrant op) s = .next t)
    (hb : s.sinkBusy = true) : ReceiverStill s t :=
  .of_ownedBy h fun h => by
    rw [notReentrant_busy ((receiverBusy_eq_true s).mpr (.inr hb))] at h
    exact .of_takeFault h

theorem of_withMotor {k : Byte} {op : Nat → Motor → State → OpResult × State} (h : withMotor k op s = .next t)
    (hop : ∀ m, ReceiverStill s (op k.toNat m s).2) : ReceiverStill s t := by
  unfold withMotor at h
  split at h
  · exact .of_answer h (.refl s)
  · exact .of_ownedBy h fun h => .of_answer h (hop _)

theorem of_codecAfter {c : Option Codec} (h : codecAfter s c = .next t) : ReceiverStill s t := by
  obtain ⟨d, r, hd⟩ := codecAfter_eq_next s c
  rw [hd] at h
  cases h
  exact ⟨rfl, rfl, rfl, rfl⟩

/-! ## The instructions -/

theorem of_execFifoPush {b : Byte} (h : execFifoPush b s = .next t) : ReceiverStill s t := by
  refine .of_ownedBy h fun h => ?_
  split at h
  · obtain ⟨r, u, hpush, rfl⟩ := finish_eq_next.mp h
    rw [pushByte_frame hpush]
    exact ⟨rfl, rfl, rfl, rfl⟩
  · cases h

theorem of_execFifoPop (h : execFifoPop s = .next t) : ReceiverStill s t := by
  refine .of_ownedBy h fun h => ?_
  split at h
  · cases h
  · next hpop =>
    rw [popByte_frame hpop] at h
    exact .of_answer h ⟨rfl, rfl, rfl, rfl⟩

theorem of_execFifoClear (h : execFifoClear s = .next t) : ReceiverStill s t := by
  unfold execFifoClear at h
  split at h
  · exact .of_answer h ⟨rfl, rfl, rfl, rfl⟩
  · exact .of_takeFault h

theorem of_execTxFrame {ch : Byte} {p : List Byte} (h : execTxFrame ch p s = .next t) : ReceiverStill s t := by
  unfold execTxFrame at h
  dsimp only at h
  split at h
  · exact .of_answer h ⟨rfl, rfl, rfl, rfl⟩
  · exact .of_answer h ⟨rfl, rfl, rfl, rfl⟩

theorem of_execCmdEnq {cs : CommandSet} (h : execCmdEnq cs s = .next t) : ReceiverStill s t := by
  refine .of_ownedBy h fun h => ?_
  split at h
  · exact .of_answer h ⟨rfl, rfl, rfl, rfl⟩
  · exact .of_answer h ⟨rfl, rfl, rfl, rfl⟩

theorem of_execSupStep (h : execSupStep s = .next t) : ReceiverStill s t := by
  refine .of_ownedBy h fun h => .of_answer h ?_
  rw [(supervise_frame s).eq]
  exact ⟨rfl, rfl, rfl, rfl⟩

theorem of_execSetThrottle {k : Byte} {v : Word64} (h : execSetThrottle k v s = .next t) : ReceiverStill s t := by
  refine .of_withMotor h fun m => ?_
  rw [driveThrottle_frame]
  exact ⟨rfl, rfl, rfl, rfl⟩

theorem of_execSetDutyUs {k : Byte} {us : BitVec 16} (h : execSetDutyUs k us s = .next t) : ReceiverStill s t := by
  refine .of_withMotor h fun m => ?_
  rw [drivePulse_frame]
  exact ⟨rfl, rfl, rfl, rfl⟩

theorem of_execNeutralAll (h : execNeutralAll s = .next t) : ReceiverStill s t :=
  .of_ownedBy h fun h => .of_answer h ⟨rfl, rfl, rfl, rfl⟩

/-- No instruction moves the receiver while the sink runs. -/
theorem of_exec {i : Instr} (h : exec i s = .next t) (hb : s.sinkBusy = true) : ReceiverStill s t := by
  cases i with
  | crc8Init | crc8Step b | crc8 bytes | cobsEnc bytes | cobsDec frame | fifoLevel =>
    exact .of_answer h ⟨rfl, rfl, rfl, rfl⟩
  | crc8Check bytes => exact .of_answer ((execCrc8Check_eq bytes s).symm.trans h) (.refl s)
  | statRead k => exact .of_answer ((execStatRead_eq k s).symm.trans h) (.refl s)
  | fifoPush b => exact .of_execFifoPush h
  | fifoPop => exact .of_execFifoPop h
  | fifoClear => exact .of_execFifoClear h
  | rxStep | rxPump => exact .of_receiverOp h hb
  | txFrame ch p => exact .of_execTxFrame h
  | cmdEnq cs => exact .of_execCmdEnq h
  | supStep => exact .of_execSupStep h
  | setThrottle k v => exact .of_execSetThrottle h
  | setDutyUs k us => exact .of_execSetDutyUs h
  | neutralAll => exact .of_execNeutralAll h
  | cobsCodeZero => exact .of_codecAfter (c := none) h
  | cobsCodeFull | cobsCodeRun c => exact .of_codecAfter h

/-! ## The schedule -/

/-- An instruction run with other inputs, schedule or codec contents. -/
theorem of_exec_from {i : Instr} (h : exec i u = .next t) (hu : ReceiverStill s u) (hb : s.sinkBusy = true) :
    ReceiverStill s t :=
  have ht := of_exec h (hu.sinkBusy.trans hb)
  ⟨ht.accMem.trans hu.accMem, ht.accLen.trans hu.accLen, ht.msgOut.trans hu.msgOut, ht.sinkBusy.trans hu.sinkBusy⟩

theorem of_runCodec (h : runCodec s = .next t) (hb : s.sinkBusy = true) : ReceiverStill s t := by
  cases hrest : s.codec.rest with
  | nil => rw [runCodec_of_nil hrest] at h; cases h
  | cons code frame =>
    rw [runCodec_of_cons hrest] at h
    exact .of_exec_from h ⟨rfl, rfl, rfl, rfl⟩ hb

theorem of_loadFrame {f : List Byte} (h : loadFrame f s = .next t) : ReceiverStill s t := by
  unfold loadFrame at h
  split at h
  · exact .of_answer h ⟨rfl, rfl, rfl, rfl⟩
  · cases h; exact ⟨rfl, rfl, rfl, rfl⟩

/-- No entry of the schedule moves the receiver while the sink runs, but the sink's return and RESET. -/
theorem of_act {a : Action} (h : act a s = .next t) (hb : s.sinkBusy = true) (hreturn : a ≠ .sinkReturn)
    (hreset : ∀ now, a ≠ .reset now) : ReceiverStill s t := by
  cases a with
  | issue c =>
    obtain ⟨-, ⟨i, -, h⟩ | ⟨why, -, rfl⟩⟩ := issueCommand_next h
    · exact .of_exec_from h ⟨rfl, rfl, rfl, rfl⟩ hb
    · exact ⟨rfl, rfl, rfl, rfl⟩
  | pump =>
    have hstuck : act .pump s = .fault .stuck := continuePump_of_blocked (.inr hb)
    rw [hstuck] at h
    cases h
  | byteArrived b =>
    change byteArrives b s = _ at h
    unfold byteArrives at h
    split at h
    · exact .of_exec_from h ⟨rfl, rfl, rfl, rfl⟩ hb
    · cases h; exact ⟨rfl, rfl, rfl, rfl⟩
  | sinkReturn => exact absurd rfl hreturn
  | prodDisable | prodEnable => cases h; exact ⟨rfl, rfl, rfl, rfl⟩
  | reset now => exact absurd rfl (hreset now)
  | codecFrame f => exact .of_loadFrame h
  | codecRun => exact .of_runCodec h hb

end ReceiverStill

/-- Settles O34, by the entry of the schedule; with none the pump waits for the sink. -/
theorem receiverIsStillWhileTheSinkRuns : Obligations.ReceiverIsStillWhileTheSinkRuns := by
  intro s t h hb hreset
  obtain ⟨-, -, ⟨a, rest, ha, h⟩ | ⟨-, h⟩⟩ := step_next h
  · by_cases hreturn : a = .sinkReturn
    · subst hreturn
      cases h
      exact ⟨rfl, rfl, rfl, .inr ⟨rest, ha⟩⟩
    · have hstill := ReceiverStill.of_act h hb hreturn fun now hnow => hreset now rest (hnow ▸ ha)
      exact ⟨hstill.accMem, hstill.accLen, hstill.msgOut, .inl (hstill.sinkBusy.trans hb)⟩
  · rw [actUnscheduled_of_blocked (.inr hb)] at h
    cases h
    exact ⟨rfl, rfl, rfl, .inl hb⟩

end Sys2Proof.Machine
end

section
/-! The transmitter: the wire bytes of a frame, and TX_FRAME by what the link accepts of them (44_frame.md R136, R137). -/

namespace Sys2Proof.Machine

/-- The wire bytes of a frame with no delimiter between them: the encoding of channel, payload and checksum
(44_frame.md R136). -/
def wireBody (c : Config) (ch : Byte) (payload : List Byte) : List Byte :=
  cobsEncode c.cobsFfTail (ch :: payload ++ [crc8 c (ch :: payload)])

theorem cobsDecode_wireBody (c : Config) (ch : Byte) (payload : List Byte) :
    cobsDecode (wireBody c ch payload) = some (ch :: payload ++ [crc8 c (ch :: payload)]) :=
  cobsDecodeOfEncodeIsTheSequence _ _

theorem not_mem_wireBody (c : Config) (ch : Byte) (payload : List Byte) : 0x00#8 ∉ wireBody c ch payload :=
  not_mem_of_cobsDecode (cobsDecode_wireBody c ch payload)

theorem wireBody_ne_nil (c : Config) (ch : Byte) (payload : List Byte) : wireBody c ch payload ≠ [] :=
  cobsEncode_ne_nil _ _

theorem buildWire_eq (c : Config) (ch : Byte) (payload : List Byte) :
    buildWire c ch payload = (if c.txLeadingDelim then [0x00#8] else []) ++ wireBody c ch payload ++ [0x00#8] := rfl

theorem exec_txFrame_whole {ch : Byte} {payload : List Byte} {s : State}
    (h : (buildWire s.cfg ch payload).length ≤ s.inputs.linkAccepts) :
    exec (.txFrame ch payload) s
      = .next { s with linkOut := s.linkOut ++ buildWire s.cfg ch payload
                       result := some (.okValue (buildWire s.cfg ch payload).length) } := by
  change execTxFrame ch payload s = _
  rw [execTxFrame, min_eq_right h, if_neg (lt_irrefl _), List.take_length]
  rfl

theorem exec_txFrame_short {ch : Byte} {payload : List Byte} {s : State}
    (h : s.inputs.linkAccepts < (buildWire s.cfg ch payload).length) :
    exec (.txFrame ch payload) s
      = .next { s with linkOut := s.linkOut ++ (buildWire s.cfg ch payload).take s.inputs.linkAccepts
                       cnt := s.cnt.bump .txShort
                       result := some (.noneValue s.inputs.linkAccepts) } := by
  change execTxFrame ch payload s = _
  rw [execTxFrame, min_eq_left h.le, if_pos h]
  rfl

/-- Settles O35: an encoding has no zero byte. -/
theorem wireIsTheEncodedMessageAndItsDelimiters : Obligations.WireIsTheEncodedMessageAndItsDelimiters := by
  refine fun c ch payload => ⟨wireBody c ch payload, rfl, not_mem_wireBody c ch payload, buildWire_eq c ch payload, ?_⟩
  rw [buildWire_eq, List.length_append, List.length_append]
  split <;> simp only [List.length_cons, List.length_nil] <;> omega

/-- Settles O36. -/
theorem txFrameWritesWhatTheLinkAccepts : Obligations.TxFrameWritesWhatTheLinkAccepts :=
  fun _ _ _ => ⟨rfl, exec_txFrame_whole, exec_txFrame_short⟩

end Sys2Proof.Machine
end

section
/-! A frame arriving over the link, byte by byte: what the bytes of a frame make of a receiver when it takes them one after
the other with the sink returning at once (44_frame.md R130, R138). -/

namespace Sys2Proof.Machine

/-! ## The accumulated bytes -/

theorem length_accumulatedBytes {s : State} (hi : Inv s) : (accumulatedBytes s).length = s.accLen :=
  (Memory.readRange_eq_some.mp (readRange_accumulatedBytes hi)).1

theorem accumulatedBytes_idle {s : State} (h : s.accLen = 0) : accumulatedBytes s = [] := by
  rw [accumulatedBytes, h]; rfl

/-- The byte `b` in the next slot of the buffer (44_frame.md R130). -/
def appendedByte (b : Byte) (s : State) : State :=
  { s with accMem := Memory.write s.accMem s.accLen b, accLen := s.accLen + 1 }

/-- An appended byte goes to the end of the accumulated bytes. -/
theorem accumulatedBytes_appendedByte (b : Byte) (s : State) :
    accumulatedBytes (appendedByte b s) = accumulatedBytes s ++ [b] := by
  have hold : ∀ a ∈ List.range s.accLen, Memory.read (appendedByte b s).accMem a = Memory.read s.accMem a :=
    fun a ha => Memory.read_write_ne _ b (List.mem_range.mp ha).ne
  have hnew : Memory.read (appendedByte b s).accMem s.accLen = some b := Memory.read_write_same _ _ b
  calc accumulatedBytes (appendedByte b s)
      = (List.range (s.accLen + 1)).filterMap fun a => Memory.read (appendedByte b s).accMem a := rfl
    _ = accumulatedBytes s ++ [b] := by
        rw [List.range_succ, List.filterMap_append, List.filterMap_congr hold]
        simp [hnew, accumulatedBytes]

/-! ## The bytes between two delimiters -/

/-- The bytes were appended to the buffer, and nothing but the buffer and the sink has moved. -/
structure Accumulated (bytes : List Byte) (s t : State) : Prop where
  inv : Inv t
  accumulated : accumulatedBytes t = accumulatedBytes s ++ bytes
  frame : t = { s with accMem := t.accMem, accLen := t.accLen, sinkBusy := t.sinkBusy }

namespace Accumulated

variable {b : Byte} {bytes : List Byte} {s t u : State}

theorem nil (hi : Inv s) : Accumulated [] s s := ⟨hi, (List.append_nil _).symm, rfl⟩

theorem cons (h : Accumulated [b] s t) (h' : Accumulated bytes t u) : Accumulated (b :: bytes) s u where
  inv := h'.inv
  accumulated := by rw [h'.accumulated, h.accumulated, List.append_assoc]; rfl
  frame := h'.frame.trans (by rw [h.frame])

theorem cfg (h : Accumulated bytes s t) : t.cfg = s.cfg := by rw [h.frame]

theorem cnt (h : Accumulated bytes s t) : t.cnt = s.cnt := by rw [h.frame]

theorem msgOut (h : Accumulated bytes s t) : t.msgOut = s.msgOut := by rw [h.frame]

end Accumulated

/-- The message sink returned. -/
def sinkReturned (s : State) : State := { s with sinkBusy := false }

theorem Inv.sinkReturned {s : State} (hi : Inv s) : Inv (sinkReturned s) := hi.of_sameCore ⟨rfl⟩

/-- Bytes that are no delimiters and find room in the buffer are appended in order. -/
theorem receiveAll_accumulates {bytes : List Byte} {s : State} (hi : Inv s) (hzero : 0x00#8 ∉ bytes)
    (hroom : (accumulatedBytes s).length + bytes.length ≤ s.cfg.accMax) :
    ∃ t, receiveAll bytes s = .ok t ∧ Accumulated bytes s t := by
  induction bytes generalizing s with
  | nil => exact ⟨s, rfl, .nil hi⟩
  | cons b bytes ih =>
    rw [List.mem_cons, not_or] at hzero
    rw [List.length_cons] at hroom
    have hlen := length_accumulatedBytes hi
    have htake := takeByte_append (s := s) (b := b) (Ne.symm hzero.1) (by omega)
    have hfirst : Accumulated [b] s (sinkReturned (appendedByte b s)) :=
      ⟨(hi.takeByte htake).sinkReturned, accumulatedBytes_appendedByte b s, rfl⟩
    obtain ⟨t, hrun, hrest⟩ := ih hfirst.inv hzero.2 (by
      rw [hfirst.accumulated, hfirst.cfg, List.length_append, List.length_singleton]; omega)
    exact ⟨t, (receiveAll_cons htake).trans hrun, hfirst.cons hrest⟩

/-! ## A delimiter -/

/-- A delimiter has ended the frame being received, where there was one, and left the receiver idle. -/
structure FrameEnded (s t : State) : Prop where
  inv : Inv t
  cfg : t.cfg = s.cfg
  accLen : t.accLen = 0
  cnt : t.cnt = (endedFrame s).cnt
  msgOut : t.msgOut = (endedFrame s).msgOut

theorem FrameEnded.of_idle {s : State} (hi : Inv s) (h : s.accLen = 0) : FrameEnded s s where
  inv := hi
  cfg := rfl
  accLen := h
  cnt := by rw [endedFrame_idle h]
  msgOut := by rw [endedFrame_idle h]

theorem FrameEnded.sinkReturned {s t : State} (h : FrameEnded s t) : FrameEnded s (sinkReturned t) :=
  ⟨h.inv.sinkReturned, h.cfg, h.accLen, h.cnt, h.msgOut⟩

/-- The buffer's length is nothing to what a frame's checks count and deliver. -/
theorem validateFrame_accLen (frame : List Byte) (n : Nat) (s : State) :
    validateFrame frame { s with accLen := n }
      = ((validateFrame frame s).1, { (validateFrame frame s).2 with accLen := n }) := by
  unfold validateFrame
  dsimp only
  split <;> rfl

theorem validateFrame_cfg (frame : List Byte) (s : State) : (validateFrame frame s).2.cfg = s.cfg := by
  rcases validateFrame_cases frame s with ⟨e, -, h⟩ | ⟨ch, p, -, h⟩ <;> rw [h] <;> rfl

theorem receiveAll_delimiter {s : State} (hi : Inv s) : ∃ t, receiveAll [0x00#8] s = .ok t ∧ FrameEnded s t := by
  by_cases h0 : s.accLen = 0
  · exact ⟨_, receiveAll_cons (takeByte_idleDelim h0), (FrameEnded.of_idle hi h0).sinkReturned⟩
  · have htake := takeByte_frameEnd h0 (readRange_accumulatedBytes hi)
    rw [validateFrame_accLen] at htake
    refine ⟨_, receiveAll_cons htake, FrameEnded.sinkReturned ⟨hi.takeByte htake, validateFrame_cfg _ s, rfl, ?_, ?_⟩⟩
    · rw [endedFrame_accumulating h0]
    · rw [endedFrame_accumulating h0]

/-! ## The wire bytes of a frame -/

theorem crc8_congr {c d : Config} (hpoly : d.crcPoly = c.crcPoly) (hinit : d.crcInit = c.crcInit) (s : List Byte) :
    crc8 d s = crc8 c s := by
  rw [crc8, crc8, hpoly, hinit]

/-- The frame between the delimiters passes the checks of a receiver with the same polynomial and initial value. -/
theorem judgeFrame_wireBody {c d : Config} {ch : Byte} {payload : List Byte} (hp : payload ≠ [])
    (hpoly : d.crcPoly = c.crcPoly) (hinit : d.crcInit = c.crcInit) :
    judgeFrame d (wireBody c ch payload) = .message ch payload := by
  rw [judgeFrame_of_decoded (cobsDecode_wireBody c ch payload) hp, crc8_congr hpoly hinit, if_pos rfl]

/-- An idle receiver delivers the frame between the delimiters at the delimiter that ends it. -/
theorem endedFrame_wireBody {c : Config} {ch : Byte} {payload : List Byte} {s t : State} (hp : payload ≠ [])
    (hpoly : s.cfg.crcPoly = c.crcPoly) (hinit : s.cfg.crcInit = c.crcInit) (hidle : s.accLen = 0)
    (h : Accumulated (wireBody c ch payload) s t) : endedFrame t = deliver ch payload t := by
  have hbytes : accumulatedBytes t = wireBody c ch payload := by
    rw [h.accumulated, accumulatedBytes_idle hidle, List.nil_append]
  have hbusy : t.accLen ≠ 0 := by
    rw [← length_accumulatedBytes h.inv, hbytes]
    exact (List.length_pos_iff.mpr (wireBody_ne_nil c ch payload)).ne'
  have hjudge := judgeFrame_wireBody (ch := ch) hp (h.cfg ▸ hpoly) (h.cfg ▸ hinit)
  rw [endedFrame_accumulating hbusy, hbytes, validateFrame_of_message hjudge]

/-- The delimiter a transmitter may lead with leaves a receiver idle that was idle before it or has just ended its frame. -/
theorem receiveAll_leadingDelimiter {lead : Bool} {s : State} (hi : Inv s) (hidle : s.accLen = 0 ∨ lead = true) :
    ∃ t, receiveAll (if lead then [0x00#8] else []) s = .ok t ∧ FrameEnded s t := by
  cases lead with
  | true => exact receiveAll_delimiter hi
  | false => exact ⟨s, rfl, .of_idle hi (hidle.resolve_right nofun)⟩

/-- Taken one after the other, the wire bytes of a frame with a payload deliver it, once, and count nothing else. -/
theorem receiveAll_buildWire {c : Config} {ch : Byte} {payload : List Byte} {s : State} (hi : Inv s) (hp : payload ≠ [])
    (hpoly : s.cfg.crcPoly = c.crcPoly) (hinit : s.cfg.crcInit = c.crcInit)
    (hidle : s.accLen = 0 ∨ c.txLeadingDelim = true) (hroom : (wireBody c ch payload).length ≤ s.cfg.accMax) :
    ∃ t, receiveAll (buildWire c ch payload) s = .ok t
      ∧ t.msgOut = (endedFrame s).msgOut ++ [(ch, payload)]
      ∧ t.cnt = (endedFrame s).cnt.bump .msgOut
      ∧ t.accLen = 0 := by
  obtain ⟨u, hlead, hu⟩ := receiveAll_leadingDelimiter hi hidle
  have hfits : (accumulatedBytes u).length + (wireBody c ch payload).length ≤ u.cfg.accMax := by
    rw [accumulatedBytes_idle hu.accLen, hu.cfg, List.length_nil, Nat.zero_add]
    exact hroom
  obtain ⟨v, hbody, hv⟩ := receiveAll_accumulates hu.inv (not_mem_wireBody c ch payload) hfits
  obtain ⟨t, hdelim, ht⟩ := receiveAll_delimiter hv.inv
  have hended := endedFrame_wireBody hp (hu.cfg ▸ hpoly) (hu.cfg ▸ hinit) hu.accLen hv
  refine ⟨t, ?_, ?_, ?_, ht.accLen⟩
  · rw [buildWire_eq, List.append_assoc, receiveAll_append _ _ hlead, receiveAll_append _ _ hbody, hdelim]
  · rw [ht.msgOut, hended, deliver_msgOut, hv.msgOut, hu.msgOut]
  · rw [ht.cnt, hended, deliver_cnt, hv.cnt, hu.cnt]

end Sys2Proof.Machine
end

section
/-! A frame arriving through the operations: whatever the interleaving of arrivals with C's steps, the receiver stands where
taking the popped bytes one after the other puts it, and the bytes not yet popped are pending in order
(44_frame.md R130, R133, R138; 43_fifo.md R120; log entries 5 and 12). -/

namespace Sys2Proof.Machine

/-! ## The receiver's own elements -/

/-- The parameters, the accumulation buffer, the counters and the delivered messages are the same in both states. -/
structure SameReceiver (s t : State) : Prop where
  cfg : t.cfg = s.cfg
  accMem : t.accMem = s.accMem
  accLen : t.accLen = s.accLen
  cnt : t.cnt = s.cnt
  msgOut : t.msgOut = s.msgOut

namespace SameReceiver

variable {s t u : State}

theorem refl (s : State) : SameReceiver s s := ⟨rfl, rfl, rfl, rfl, rfl⟩

theorem trans (h : SameReceiver s t) (h' : SameReceiver t u) : SameReceiver s u :=
  ⟨h'.cfg.trans h.cfg, h'.accMem.trans h.accMem, h'.accLen.trans h.accLen, h'.cnt.trans h.cnt, h'.msgOut.trans h.msgOut⟩

theorem symm (h : SameReceiver s t) : SameReceiver t s :=
  ⟨h.cfg.symm, h.accMem.symm, h.accLen.symm, h.cnt.symm, h.msgOut.symm⟩

/-- A byte taken in two such states leaves two such states. -/
theorem takeByte {b : Byte} {code : RxCode} (h : SameReceiver s t) (ht : takeByte b t = .ok (code, u)) :
    ∃ v, Machine.takeByte b s = .ok (code, v) ∧ SameReceiver v u := by
  obtain ⟨v, hv, hcfg, hmem, hlen, hcnt, hout⟩ :=
    takeByte_congr h.symm.cfg h.symm.accMem h.symm.accLen h.symm.cnt h.symm.msgOut ht
  exact ⟨v, hv, SameReceiver.symm ⟨hcfg, hmem, hlen, hcnt, hout⟩⟩

end SameReceiver

/-! ## One iteration, on the queue of pending bytes -/

theorem pendingBytes_congr {s t : State} (hcfg : t.cfg = s.cfg) (hmem : t.fifoMem = s.fifoMem) (hrd : t.fifoRd = s.fifoRd)
    (hwr : t.fifoWr = s.fifoWr) : pendingBytes t = pendingBytes s := by
  simp only [pendingBytes, fifoLevel, pendingSlot, hcfg, hmem, hrd, hwr]

/-- An iteration finds nothing pending and moves nothing of the receiver, or takes the first pending byte. -/
theorem receiveByte_pending {s u : State} {r : OpResult} (hi : Inv s) (h : receiveByte s = .ok (r, u)) :
    (pendingBytes s = [] ∧ pendingBytes u = [] ∧ SameReceiver s u)
    ∨ ∃ b code v, pendingBytes s = b :: pendingBytes u ∧ takeByte b (takenByte s) = .ok (code, v)
        ∧ SameReceiver v u := by
  rcases receiveByte_eq_ok.mp h with ⟨he, -, rfl⟩ | ⟨hne, b, code, v, hb, hv, -, rfl⟩
  · exact .inl ⟨pendingBytes_of_eq he, pendingBytes_of_eq he, rfl, rfl, rfl, rfl, rfl⟩
  · obtain ⟨hcfg, hmem, hrd, hwr, -⟩ := takeByte_frame hv
    have hrest : pendingBytes v = pendingBytes (takenByte s) := pendingBytes_congr hcfg hmem hrd hwr
    refine .inr ⟨b, code, v, ?_, hv, rfl, rfl, rfl, rfl, rfl⟩
    rw [pendingBytes_eq_cons hi hne hb, ← hrest]
    rfl

/-! ## C's step of the receiver -/

/-- The state a scheduled step runs in: its entry taken off the schedule, its inputs drawn (20_memory.md R50). -/
def atStep (rest : List Action) (i : Inputs) (s : State) : State := { s with agenda := rest, inputs := i }

/-- The state in which C's step of the receiver runs its iteration: the schedule, the inputs and the pump's own fields are
that step's, and the rest is as it was. -/
structure TurnOf (s a : State) : Prop where
  inv : Inv a
  frame : a = { s with agenda := a.agenda, inputs := a.inputs, cInPump := a.cInPump, pumpCount := a.pumpCount }

/-- C goes on with its pump. -/
theorem step_pump {s : State} (hi : Inv s) (hf : s.fault = none) (hp : s.cInPump = true) (hs : s.sinkBusy = false)
    (rest : List Action) :
    step { s with agenda := .pump :: rest } = pumpIteration (atStep rest { s.inputs with issuer := .consumer } s) :=
  (step_cons (s := { s with agenda := .pump :: rest }) hi.cfgWf hf rfl).trans
    (pumpStep_of_pump (s := atStep rest { s.inputs with issuer := .consumer } s) hp hs)

/-- C issues a command of the receiver. -/
theorem step_consumerCommand {s : State} {w : CmdWord} {i : Instr} (hi : Inv s) (hf : s.fault = none)
    (hd : decodeCommand w [] = .ok i) (rest : List Action) :
    step { s with agenda := .issue (consumerCommand w) :: rest }
      = exec i (atStep rest (consumerCommand w).inputs s) :=
  (step_cons (s := { s with agenda := .issue (consumerCommand w) :: rest }) hi.cfgWf hf rfl).trans (issueCommand_ok rfl hd)

/-- C's step of the receiver is one iteration, after which C is in a pump where it is pumping and a byte was pending. -/
theorem step_takesAction {s : State} {inPump : Bool} (hi : Inv s) (hf : s.fault = none) (hp : s.cInPump = inPump)
    (hs : s.sinkBusy = false) (byPump : Bool) (rest : List Action) :
    ∃ a r u n res, TurnOf s a ∧ receiveByte a = .ok (r, u)
      ∧ step { s with agenda := takesAction inPump byPump :: rest }
        = .next { u with cInPump := (inPump || byPump) && decide (s.fifoRd ≠ s.fifoWr), pumpCount := n
                         result := res } := by
  have hturn : ∀ i, TurnOf s (atStep rest i s) := fun i => ⟨hi.of_sameCore ⟨rfl⟩, rfl⟩
  cases inPump with
  | true =>
    obtain ⟨r, u, hr⟩ := (hturn { s.inputs with issuer := .consumer }).inv.receiveByte_completes
    obtain ⟨n, res, hpump⟩ := pumpIteration_of_receiveByte hr
    exact ⟨_, r, u, n, res, hturn _, hr, (step_pump hi hf hp hs rest).trans hpump⟩
  | false =>
    cases byPump with
    | true =>
      have hissue := step_consumerCommand (w := 0x31000000#32) (i := .rxPump) hi hf rfl rest
      have hfree := exec_rxPump_free (s := atStep rest (consumerCommand 0x31000000#32).inputs s) rfl hp hs
      have ha := (hturn (consumerCommand 0x31000000#32).inputs).inv.withPump true 0 nofun
      obtain ⟨r, u, hr⟩ := ha.receiveByte_completes
      obtain ⟨n, res, hpump⟩ := pumpIteration_of_receiveByte hr
      exact ⟨_, r, u, n, res, ⟨ha, rfl⟩, hr, (hissue.trans hfree).trans hpump⟩
    | false =>
      have hissue := step_consumerCommand (w := 0x30000000#32) (i := .rxStep) hi hf rfl rest
      obtain ⟨r, u, hr⟩ := (hturn (consumerCommand 0x30000000#32).inputs).inv.receiveByte_completes
      have hanswer : u.answer r = { u with cInPump := false, result := some r } := by
        obtain ⟨-, -, -, -, -, -, -, -, -, hpump, -⟩ := receiveByte_frame hr
        rw [← hpump.trans hp]
        rfl
      exact ⟨_, r, u, u.pumpCount, some r, hturn _, hr,
        (hissue.trans (exec_rxStep_of_receiveByte rfl hp hs hr)).trans (congrArg _ hanswer)⟩

theorem step_sinkReturn {s : State} (hi : Inv s) (hf : s.fault = none) (rest : List Action) :
    step { s with agenda := .sinkReturn :: rest } = .next { sinkReturned s with agenda := rest, result := none } :=
  step_cons (s := { s with agenda := .sinkReturn :: rest }) hi.cfgWf hf rfl

/-! ## The run -/

/-- While a frame arrives at `r`: C is in a pump or not, the sink has returned, and the receiver stands where the bytes
`taken`, one after the other, have put it. -/
structure Receiving (r : State) (taken : List Byte) (inPump : Bool) (s : State) : Prop where
  inv : Inv s
  cfg : s.cfg = r.cfg
  noFault : s.fault = none
  hookAttached : s.prodEn = true
  pump : s.cInPump = inPump
  noSink : s.sinkBusy = false
  reached : ∃ v, receiveAll taken r = .ok v ∧ SameReceiver v s

namespace Receiving

variable {r s : State} {taken : List Byte} {inPump : Bool}

theorem start (hi : Inv r) (h : ReceiverReady r) : Receiving r [] false r :=
  ⟨hi, rfl, h.noFault, h.hookAttached, h.noPump, h.noSink, r, rfl, .refl r⟩

/-- A byte that arrives and finds room is pending behind the others. -/
theorem arrives (h : Receiving r taken inPump s) (b : Byte) (rest : List Action)
    (hroom : (pendingBytes s).length < r.cfg.fifoN - 1) :
    ∃ t, runAll (.byteArrived b :: rest) s = runAll rest t ∧ Receiving r taken inPump t
      ∧ pendingBytes t = pendingBytes s ++ [b] := by
  rw [← h.cfg] at hroom
  obtain ⟨t, hpush, happ⟩ := exec_fifoPush_appends (s := atStep rest { s.inputs with issuer := .producer } s)
    (h.inv.of_sameCore ⟨rfl⟩) b rfl h.hookAttached hroom
  have hstep : step { s with agenda := .byteArrived b :: rest } = .next t :=
    (step_cons (s := { s with agenda := .byteArrived b :: rest }) h.inv.cfgWf h.noFault rfl).trans
      ((if_pos h.hookAttached).trans hpush)
  have hsame : SameReceiver s t := by rw [happ.frame]; exact ⟨rfl, rfl, rfl, rfl, rfl⟩
  obtain ⟨v, hv, hvs⟩ := h.reached
  refine ⟨t, runAll_cons hstep, ⟨happ.inv, happ.cfg.trans h.cfg, ?_, happ.prodEn.trans h.hookAttached, ?_, ?_,
    v, hv, hvs.trans hsame⟩, happ.pending⟩
  · rw [happ.frame]; exact h.noFault
  · rw [happ.frame]; exact h.pump
  · rw [happ.frame]; exact h.noSink

/-- An iteration takes the first pending byte, where there is one, as the sequence of taken bytes goes on. -/
theorem turn {a u : State} {x : OpResult} (h : Receiving r taken inPump s) (ha : TurnOf s a)
    (hx : receiveByte a = .ok (x, u)) :
    pendingBytes u = (pendingBytes s).drop 1
      ∧ ∃ v, receiveAll (taken ++ (pendingBytes s).take 1) r = .ok v ∧ SameReceiver v u := by
  have hpending : pendingBytes a = pendingBytes s := by rw [ha.frame]; rfl
  have hsame : SameReceiver s a := by rw [ha.frame]; exact ⟨rfl, rfl, rfl, rfl, rfl⟩
  obtain ⟨v, hv, hvs⟩ := h.reached
  rw [← hpending]
  rcases receiveByte_pending ha.inv hx with ⟨hnil, hleft, hu⟩ | ⟨b, code, w, hcons, hw, hu⟩
  · rw [hnil]
    exact ⟨hleft, v, by simpa using hv, (hvs.trans hsame).trans hu⟩
  · have hva : SameReceiver v (takenByte a) := (hvs.trans hsame).trans ⟨rfl, rfl, rfl, rfl, rfl⟩
    obtain ⟨w', hw', hsame'⟩ := hva.takeByte hw
    have hrun : receiveAll (taken ++ [b]) r = .ok (sinkReturned w') :=
      (receiveAll_append taken [b] hv).trans (receiveAll_cons hw')
    have hreturned : SameReceiver (sinkReturned w') w :=
      ⟨hsame'.cfg, hsame'.accMem, hsame'.accLen, hsame'.cnt, hsame'.msgOut⟩
    rw [hcons]
    exact ⟨rfl, _, hrun, hreturned.trans hu⟩

/-- C's step of the receiver, and the sink's return, take the first pending byte, where there is one. -/
theorem takes (h : Receiving r taken inPump s) (byPump : Bool) (rest : List Action) :
    ∃ t, runAll (takesAction inPump byPump :: .sinkReturn :: rest) s = runAll rest t
      ∧ Receiving r (taken ++ (pendingBytes s).take 1)
          ((inPump || byPump) && decide ((pendingBytes s).length ≠ 0)) t
      ∧ pendingBytes t = (pendingBytes s).drop 1 := by
  obtain ⟨a, x, u, n, res, ha, hx, hstep⟩ := step_takesAction h.inv h.noFault h.pump h.noSink byPump
    (.sinkReturn :: rest)
  obtain ⟨hleft, v, hv, hvu⟩ := h.turn ha hx
  obtain ⟨hcfg, -, -, -, -, -, -, hfault, hhook, -⟩ := receiveByte_frame hx
  rw [ha.frame] at hcfg hfault hhook
  have hi := everyStepKeepsTheInvariant _ _ (h.inv.of_sameCore ⟨rfl⟩) hstep
  have hempty : s.fifoRd ≠ s.fifoWr ↔ (pendingBytes s).length ≠ 0 := by
    rw [ne_eq, ← pendingBytes_eq_nil_iff h.inv, ne_eq, List.length_eq_zero_iff]
  rw [decide_eq_decide.mpr hempty] at hstep hi
  have hreturn := step_sinkReturn hi (hfault.trans h.noFault) rest
  exact ⟨_, (runAll_cons hstep).trans (runAll_cons hreturn),
    ⟨hi.of_sameCore ⟨rfl⟩, hcfg.trans h.cfg, hfault.trans h.noFault, hhook.trans h.hookAttached, rfl, rfl, v, hv,
      hvu.trans ⟨rfl, rfl, rfl, rfl, rfl⟩⟩, hleft⟩

/-- The run of the schedule completes, and has then taken every byte: those pending before it and those that arrived. -/
theorem run {events : List LinkEvent} {n : Nat} (h : Receiving r taken inPump s) (hn : (pendingBytes s).length = n)
    (hroom : pendingAfter (r.cfg.fifoN - 1) n events = some 0) :
    ∃ p t, runAll (receiverSchedule n inPump events) s = .next t
      ∧ Receiving r (taken ++ pendingBytes s ++ arrivedBytes events) p t := by
  induction events generalizing n inPump taken s with
  | nil =>
    have hnil : pendingBytes s = [] := List.length_eq_zero_iff.mp (hn.trans (Option.some.inj hroom))
    exact ⟨inPump, s, rfl, by simpa [hnil, arrivedBytes] using h⟩
  | cons e events ih =>
    cases e with
    | arrives b =>
      rw [pendingAfter] at hroom
      split at hroom
      · next hlt =>
        obtain ⟨t, hrun, ht, hpending⟩ := h.arrives b (receiverSchedule (n + 1) inPump events) (hn ▸ hlt)
        obtain ⟨p, u, hrest, hu⟩ := ih ht (by rw [hpending, List.length_append, hn]; rfl) hroom
        rw [hpending] at hu
        exact ⟨p, u, hrun.trans hrest, by simpa [arrivedBytes] using hu⟩
      · cases hroom
    | takes byPump =>
      obtain ⟨t, hrun, ht, hpending⟩ := h.takes byPump
        (receiverSchedule (n - 1) ((inPump || byPump) && decide (n ≠ 0)) events)
      rw [hn] at ht
      obtain ⟨p, u, hrest, hu⟩ := ih ht (by rw [hpending, List.length_drop, hn]) hroom
      rw [hpending, List.append_assoc taken, List.take_append_drop] at hu
      exact ⟨p, u, hrun.trans hrest, hu⟩

end Receiving

/-- Settles O37: the bytes one after the other deliver the frame, and any run of the events takes them so. -/
theorem receiverDeliversWhatTheTransmitterSent : Obligations.ReceiverDeliversWhatTheTransmitterSent := by
  refine ⟨fun s ch payload hi h0 hp hroom => ?taken, fun s r ch payload events hp haccepts hi hready hpoly hinit hidle
    hroom harrived hpending => ⟨?sent, ?received⟩⟩
  case taken =>
    have hwire := receiveAll_buildWire (c := s.cfg) hi hp rfl rfl (.inl h0) hroom
    rwa [endedFrame_idle h0] at hwire
  case sent => exact ⟨_, exec_txFrame_whole haccepts, congrArg _ harrived.symm⟩
  case received =>
    have hnil : pendingBytes r = [] := pendingBytes_of_eq hready.nonePending
    obtain ⟨p, t, hrun, ht⟩ := (Receiving.start hi hready).run (congrArg List.length hnil) hpending
    rw [hnil, harrived] at ht
    obtain ⟨v, hv, hsame⟩ := ht.reached
    obtain ⟨w, hw, hout, hcnt, hlen⟩ := receiveAll_buildWire hi hp hpoly hinit hidle hroom
    obtain rfl := Except.ok.inj (hv.symm.trans hw)
    exact ⟨t, hrun, ht.noFault, hsame.msgOut.trans hout, hsame.cnt.trans hcnt, hsame.accLen.trans hlen⟩

end Sys2Proof.Machine
end

section
/-! The actuation driver's arithmetic under EXACT: clamp, map and duty conversion as functions on the rationals
(45_motor.md R152 to R156). -/

namespace Sys2Proof.Machine

/-! ## Clamp -/

theorem throttleLow_val (m : Motor) : (throttleLow m).val = if m.bidir = true then -1 else 0 := by
  rw [throttleLow, Frac.val_ofInt]
  split <;> simp

/-- Only NaN has no clamped value. -/
theorem clampThrottle_eq_none_iff {m : Motor} {x : Binary64} : clampThrottle m x = none ↔ x = .nan := by
  cases x <;> simp [clampThrottle]

theorem clampThrottle_finite_val {m : Motor} {q y : Frac} (hq : 0 < q.den) (h : clampThrottle m (.finite q) = some y) :
    y.val = max (if m.bidir = true then -1 else 0) (min 1 q.val) := by
  obtain rfl := Option.some.inj h
  have hone : 0 < (Frac.ofInt 1).den := Nat.one_pos
  rw [Frac.val_max Nat.one_pos (Frac.min_den_pos hone hq), Frac.val_min hone hq, throttleLow_val, Frac.val_ofInt,
    Int.cast_one]

theorem clampThrottle_posInf_val {m : Motor} {y : Frac} (h : clampThrottle m (.inf false) = some y) : y.val = 1 := by
  obtain rfl := Option.some.inj h
  exact (Frac.val_ofInt 1).trans Int.cast_one

theorem clampThrottle_negInf_val {m : Motor} {y : Frac} (h : clampThrottle m (.inf true) = some y) :
    y.val = if m.bidir = true then -1 else 0 := by
  obtain rfl := Option.some.inj h
  exact throttleLow_val m

/-- Zero is in the range of every motor. -/
theorem clampThrottle_zero (m : Motor) : clampThrottle m (.finite (Frac.ofInt 0)) = some (Frac.ofInt 0) := by
  cases hb : m.bidir <;> simp only [clampThrottle, throttleLow, hb] <;> decide

/-! ## Map -/

/-- One linear piece of the map: a base and a multiple of a span. -/
theorem linearPiece_val {y : Frac} (hy : 0 < y.den) (base span : Int) :
    ((Frac.ofInt base).add (y.mul (Frac.ofInt span))).val = base + y.val * span := by
  rw [Frac.val_add Nat.one_pos (by simpa using hy), Frac.val_mul, Frac.val_ofInt, Frac.val_ofInt]

theorem mapThrottle_exact_val (m : Motor) {y : Frac} (hy : 0 < y.den) :
    (mapThrottle .exactRational m y).val
      = if m.bidir = true then
          if 0 ≤ y.val then m.centerUs + y.val * (m.maxUs - m.centerUs)
          else m.centerUs + y.val * (m.centerUs - m.minUs)
        else m.minUs + y.val * (m.maxUs - m.minUs) := by
  simp only [mapThrottle, inArith_exactRational, linearPiece_val hy, Frac.num_nonneg_iff hy]
  cases m.bidir with
  | false => simp
  | true => by_cases h0 : 0 ≤ y.val <;> simp [h0]

/-- Throttle zero maps to the pulse width of zero commanded motion. -/
theorem mapThrottle_exact_zero_val (m : Motor) :
    (mapThrottle .exactRational m (Frac.ofInt 0)).val = neutralUs m := by
  rw [mapThrottle_exact_val m Nat.one_pos, neutralUs]
  cases m.bidir <;> simp

/-! ## Duty conversion -/

theorem usToDuty_exact {c : Config} (h : c.throttleArith = .exactRational) (u : Frac) :
    usToDuty c u = ⌊u.val * c.pwmFreqHz * 2 ^ c.dutyResBits / 1000000⌋.toNat := by
  simp only [usToDuty, h, inArith_exactRational, Frac.floor_eq, Frac.val_divNat, Frac.val_mul, Frac.val_ofInt,
    Int.cast_natCast, Int.cast_pow, Int.cast_ofNat, Nat.cast_ofNat]

/-- Under EXACT the duty depends on the pulse width alone, not on the fraction that stands for it. -/
theorem usToDuty_exact_congr {c : Config} (h : c.throttleArith = .exactRational) {u w : Frac} (hval : u.val = w.val) :
    usToDuty c u = usToDuty c w := by
  rw [usToDuty_exact h, usToDuty_exact h, hval]

theorem usToDuty_exact_of_nonneg {c : Config} (h : c.throttleArith = .exactRational) {u : Frac} (h0 : 0 ≤ u.val) :
    (usToDuty c u : Int) = ⌊u.val * c.pwmFreqHz * 2 ^ c.dutyResBits / 1000000⌋ := by
  rw [usToDuty_exact h]
  exact Int.toNat_of_nonneg (Int.floor_nonneg.mpr (by positivity))

/-- A pulse of at most `MAX_US` is no longer than the PWM period, so its duty is at most full scale. -/
theorem usToDuty_le_of_le_maxUs {c : Config} (hwf : c.wf = true) {m : Motor} (hm : m ∈ c.motors) {u : Frac}
    (hd : 0 < u.den) (h0 : 0 ≤ u.val) (hu : u.val ≤ m.maxUs) : usToDuty c u ≤ 2 ^ c.dutyResBits := by
  obtain ⟨-, -, hperiod, -⟩ := motor_of_wf hwf hm
  refine usToDuty_le hd h0 ?_
  calc u.val * c.pwmFreqHz ≤ m.maxUs * c.pwmFreqHz := by gcongr
    _ ≤ 1000000 := by exact_mod_cast hperiod

/-! ## The statement -/

/-- Settles O39: each of clamp, map and conversion is its formula on the rationals. -/
theorem throttleDutyIsTheExactFormula : Obligations.ThrottleDutyIsTheExactFormula := by
  intro c m hwf hm harith
  refine ⟨fun v y hy => ?throttle,
    fun u hd h0 => ⟨usToDuty_exact_of_nonneg harith h0, usToDuty_le_of_le_maxUs hwf hm hd h0⟩⟩
  obtain ⟨hmin, hmax, -, hsmall⟩ := motor_of_wf hwf hm
  obtain ⟨hden, hlow, hhigh⟩ := clampThrottle_bounds (fun q hq => binary64_den_pos hq) hy
  refine ⟨fun q hq => ?finite, fun hv => ?posInf, fun hv => ?negInf, ?map,
    mapThrottle_bounds c.throttleArith hmin hmax hsmall hden hlow hhigh⟩
  case finite => exact clampThrottle_finite_val (binary64_den_pos hq) (hq ▸ hy)
  case posInf => exact clampThrottle_posInf_val (hv ▸ hy)
  case negInf => exact clampThrottle_negInf_val (hv ▸ hy)
  case map => rw [harith]; exact mapThrottle_exact_val m hden

end Sys2Proof.Machine
end

section
/-! The motor supervisor: the intake queue, the driver operations, one entry of a command set, the watchdog, one
SUP_STEP, and the failsafe (45_motor.md R151, R155 to R162). -/

namespace Sys2Proof.Machine

/-! ## The intake queue -/

theorem intakeFull_eq_true (s : State) : intakeFull s = true ↔ s.cmdq.length = s.cfg.qDepth := decide_eq_true_iff

theorem exec_cmdEnq (cs : CommandSet) (s : State) : exec (.cmdEnq cs) s = execCmdEnq cs s := rfl

theorem exec_cmdEnq_other {s : State} (cs : CommandSet) (h : s.inputs.issuer ≠ .consumer) :
    exec (.cmdEnq cs) s = takeFault .wrongAgent s := (exec_cmdEnq cs s).trans (ownedBy_other h)

/-- A CMD_ENQ of C drops the command set on a full queue and appends it to any other. -/
theorem exec_cmdEnq_consumer {s : State} (cs : CommandSet) (h : s.inputs.issuer = .consumer) :
    exec (.cmdEnq cs) s
      = if intakeFull s then answer .nonePlain (s.raise .cmdqDrop)
        else answer .okPlain { s with cmdq := s.cmdq ++ [cs] } := (exec_cmdEnq cs s).trans (ownedBy_owner h)

/-- Settles O38, by whether the queue is full. -/
theorem cmdEnqAppendsOrDropsTheNewest : Obligations.CmdEnqAppendsOrDropsTheNewest := by
  refine fun cs s => ⟨rfl, exec_cmdEnq_other cs, fun ho hfull => ?full, fun ho hroom => ?room⟩
  case full => rw [exec_cmdEnq_consumer cs ho, if_pos ((intakeFull_eq_true s).mpr hfull)]; rfl
  case room => rw [exec_cmdEnq_consumer cs ho, if_neg (mt (intakeFull_eq_true s).mp hroom)]; rfl

/-! ## The driver rules -/

theorem driveThrottle_of_nan {v : Word64} (i : Nat) (m : Motor) (s : State) (h : binary64 v = .nan) :
    driveThrottle i m v s = (.nonePlain, s.raise .dutyRej) := by
  rw [driveThrottle, clampThrottle_eq_none_iff.mpr h]

theorem driveThrottle_of_clamp {m : Motor} {v : Word64} {y : Frac} (i : Nat) (s : State)
    (h : clampThrottle m (binary64 v) = some y) :
    driveThrottle i m v s
      = (.okValue (usToDuty s.cfg (mapThrottle s.cfg.throttleArith m y)),
          setDuty s i (usToDuty s.cfg (mapThrottle s.cfg.throttleArith m y))) := by
  rw [driveThrottle, h]

theorem drivePulse_of_outside {m : Motor} {us : Int} (i : Nat) (s : State) (h : us < m.minUs ∨ (m.maxUs : Int) < us) :
    drivePulse i m us s = (.nonePlain, s.raise .dutyRej) := if_pos h

theorem drivePulse_of_inside {m : Motor} {us : Int} (i : Nat) (s : State) (hlo : (m.minUs : Int) ≤ us)
    (hhi : us ≤ m.maxUs) :
    drivePulse i m us s = (.okValue (usToDuty s.cfg (Frac.ofInt us)), setDuty s i (usToDuty s.cfg (Frac.ofInt us))) :=
  if_neg (by omega)

/-! ## The driver operations -/

section
variable {i : Byte} {m : Motor} {s : State}

theorem withMotor_beyond (op : Nat → Motor → State → OpResult × State) (h : s.cfg.nMot ≤ i.toNat) :
    withMotor i op s = illegal s := withMotor_none (List.getElem?_eq_none h)

theorem withMotor_other (op : Nat → Motor → State → OpResult × State) (hm : s.cfg.motors[i.toNat]? = some m)
    (ho : s.inputs.issuer ≠ .supervisor) : withMotor i op s = takeFault .wrongAgent s := by
  rw [withMotor_some hm, if_neg ho]

/-- A driver operation of S on a motor that is there answers what its rule does. -/
theorem withMotor_owner {op : Nat → Motor → State → OpResult × State} (hm : s.cfg.motors[i.toNat]? = some m)
    (ho : s.inputs.issuer = .supervisor) :
    withMotor i op s = answer (op i.toNat m s).1 (op i.toNat m s).2 := by
  rw [withMotor_some hm, if_pos ho]

end

theorem exec_setThrottle (i : Byte) (v : Word64) (s : State) :
    exec (.setThrottle i v) s = withMotor i (fun i m s => driveThrottle i m v s) s := rfl

/-- Settles O41, in the order of its cases. -/
theorem setThrottleWritesOneDutyOrRejects : Obligations.SetThrottleWritesOneDutyOrRejects := by
  intro i v s
  rw [exec_setThrottle]
  refine ⟨rfl, withMotor_beyond _, fun hi => withMotor_other _ (List.getElem?_eq_getElem hi),
    fun hi ho hnan => ?nan, fun m hm ho hnan => ?number⟩
  case nan => rw [withMotor_owner (List.getElem?_eq_getElem hi) ho, driveThrottle_of_nan _ _ s hnan]; rfl
  case number =>
    obtain ⟨y, hy⟩ := Option.ne_none_iff_exists'.mp (mt clampThrottle_eq_none_iff.mp hnan)
    refine ⟨y, hy, ?_⟩
    rw [withMotor_owner hm ho, driveThrottle_of_clamp _ s hy]
    rfl

theorem exec_setDutyUs (i : Byte) (us : BitVec 16) (s : State) :
    exec (.setDutyUs i us) s = withMotor i (fun i m s => drivePulse i m us.toNat s) s := rfl

/-- Settles O42, by whether the pulse width is in the motor's range. -/
theorem setDutyUsWritesOneDutyOrRejects : Obligations.SetDutyUsWritesOneDutyOrRejects := by
  intro i us s
  rw [exec_setDutyUs]
  refine ⟨rfl, withMotor_beyond _, fun m hm => ⟨withMotor_other _ hm, fun ho hout => ?outside,
    fun ho hlo hhi => ?inside⟩⟩
  case outside => rw [withMotor_owner hm ho, drivePulse_of_outside _ s (by omega)]; rfl
  case inside => rw [withMotor_owner hm ho, drivePulse_of_inside _ s (by omega) (by omega)]; rfl

/-! ## NEUTRAL_ALL -/

theorem exec_neutralAll (s : State) : exec .neutralAll s = execNeutralAll s := rfl

theorem exec_neutralAll_other {s : State} (h : s.inputs.issuer ≠ .supervisor) :
    exec .neutralAll s = takeFault .wrongAgent s := (exec_neutralAll s).trans (ownedBy_other h)

theorem exec_neutralAll_supervisor {s : State} (h : s.inputs.issuer = .supervisor) :
    exec .neutralAll s = .next ((neutralise s).answer .okPlain) := (exec_neutralAll s).trans (ownedBy_owner h)

/-- The bits of zero, of either sign, are the number zero (log entry 3). -/
theorem binary64_of_zero {v : Word64} (h : v = 0#64 ∨ v = 0x8000000000000000#64) :
    binary64 v = .finite (Frac.ofInt 0) := by
  rcases h with rfl | rfl <;> decide

/-- Settles O43: throttle zero is clamped to zero, which maps to the neutral pulse width. -/
theorem neutralAllWritesEveryNeutralDuty : Obligations.NeutralAllWritesEveryNeutralDuty := by
  refine ⟨fun s => ⟨rfl, exec_neutralAll_other, exec_neutralAll_supervisor⟩, fun c m v harith hv =>
    ⟨Frac.ofInt 0, by rw [binary64_of_zero hv, clampThrottle_zero], usToDuty_exact_congr harith ?_⟩⟩
  rw [harith, mapThrottle_exact_zero_val, Frac.val_ofInt]
  exact (Int.cast_natCast _).symm

/-! ## One entry of a command set -/

theorem motorOfKey_eq_none {c : Config} {key : Word64}
    (h : key.toInt < c.keyBase ∨ c.keyBase + c.nMot ≤ key.toInt) : motorOfKey c key = none := by
  refine Option.eq_none_iff_forall_not_mem.mpr fun ⟨i, m⟩ hsome => ?_
  obtain ⟨hkey, hm⟩ := motorOfKey_eq_some.mp hsome
  have hi : i < c.nMot := (List.getElem?_eq_some_iff.mp hm).1
  omega

theorem applyEntry_ignored {e : Entry} {s : State} (h : motorOfKey s.cfg e.key = none) : applyEntry e s = s := by
  rw [applyEntry, h]

/-- A key `KEY_BASE + i` addresses motor `i`. -/
theorem motorOfKey_of_eq {c : Config} {key : Word64} {i : Nat} {m : Motor} (hkey : key.toInt = c.keyBase + i)
    (hm : c.motors[i]? = some m) : motorOfKey c key = some (i, m) :=
  motorOfKey_eq_some.mpr ⟨by omega, hm⟩

section
variable {e : Entry} {s : State} {i : Nat} {m : Motor}

theorem applyEntry_rejected (hk : motorOfKey s.cfg e.key = some (i, m))
    (h : driveValue i m e.value s = (.nonePlain, s.raise .dutyRej)) : applyEntry e s = s.raise .dutyRej := by
  rw [applyEntry, hk]
  dsimp only
  rw [h]
  rfl

theorem applyEntry_applied {d : Nat} (hk : motorOfKey s.cfg e.key = some (i, m))
    (h : driveValue i m e.value s = (.okValue d, setDuty s i d)) :
    applyEntry e s = { setDuty s i d with lastCmdTime := s.inputs.now } := by
  rw [applyEntry, hk]
  dsimp only
  rw [h]
  rfl

end

theorem driveValue_throttle {s : State} (i : Nat) (m : Motor) (v : Word64) (h : s.cfg.cmdMode = .throttle) :
    driveValue i m v s = driveThrottle i m v s := by rw [driveValue, h]

theorem driveValue_rawUs {s : State} (i : Nat) (m : Motor) (v : Word64) (h : s.cfg.cmdMode = .rawUs) :
    driveValue i m v s = drivePulse i m v.toInt s := by rw [driveValue, h]

/-- Settles O44, by the command mode and by whether its driver rule rejects the value. -/
theorem onlyAnAppliedEntryRefreshesTheWatchdog : Obligations.OnlyAnAppliedEntryRefreshesTheWatchdog := by
  refine fun e s => ⟨fun hout => applyEntry_ignored (motorOfKey_eq_none hout), fun i m hkey hm => ?_⟩
  have hk := motorOfKey_of_eq hkey hm
  refine ⟨fun hmode hnan => ?nan, fun hmode y hy => ?number, fun hmode hout => ?outside,
    fun hmode hlo hhi => ?inside⟩
  case nan => exact applyEntry_rejected hk ((driveValue_throttle i m _ hmode).trans (driveThrottle_of_nan _ _ s hnan))
  case number => exact applyEntry_applied hk ((driveValue_throttle i m _ hmode).trans (driveThrottle_of_clamp _ s hy))
  case outside => exact applyEntry_rejected hk ((driveValue_rawUs i m _ hmode).trans (drivePulse_of_outside _ s hout))
  case inside => exact applyEntry_applied hk ((driveValue_rawUs i m _ hmode).trans (drivePulse_of_inside _ s hlo hhi))

/-! ## The watchdog -/

theorem elapsed_toNat (now last : Time) :
    (now - last).toNat = (now.toNat + 2 ^ 32 - last.toNat) % 2 ^ 32 := by
  rw [BitVec.toNat_sub]
  congr 1
  omega

theorem wdtExpired_eq_true (s : State) : wdtExpired s = true ↔ s.cfg.wdtT < (s.inputs.now - s.lastCmdTime).toNat :=
  decide_eq_true_iff

theorem wdtCheck_of_expired {s : State} (h : s.cfg.wdtT < (s.inputs.now - s.lastCmdTime).toNat) :
    wdtCheck s = (true, { neutralise s with lastCmdTime := s.inputs.now }.raise .wdtTrip) :=
  if_pos ((wdtExpired_eq_true s).mpr h)

theorem wdtCheck_of_not_expired {s : State} (h : ¬ s.cfg.wdtT < (s.inputs.now - s.lastCmdTime).toNat) :
    wdtCheck s = (false, s) := if_neg (mt (wdtExpired_eq_true s).mp h)

/-- Settles O45. -/
theorem watchdogTripsStrictlyAfterItsTimeout : Obligations.WatchdogTripsStrictlyAfterItsTimeout := by
  refine fun s => ⟨fun h => wdtCheck_of_expired ?_, fun h => wdtCheck_of_not_expired ?_⟩
  · rwa [elapsed_toNat]
  · rwa [elapsed_toNat, not_lt]

/-! ## SUP_STEP -/

theorem exec_supStep (s : State) : exec .supStep s = execSupStep s := rfl

theorem exec_supStep_other {s : State} (h : s.inputs.issuer ≠ .supervisor) :
    exec .supStep s = takeFault .wrongAgent s := (exec_supStep s).trans (ownedBy_other h)

/-- A SUP_STEP of S answers the code of its iteration. -/
theorem exec_supStep_supervisor {s : State} (h : s.inputs.issuer = .supervisor) :
    exec .supStep s = .next ((supervise s).2.answer (.okValue (supervise s).1.number)) :=
  (exec_supStep s).trans (ownedBy_owner h)

theorem supervise_of_empty {s : State} (h : s.cmdq = []) :
    supervise s = (if (wdtCheck s).1 then .trip else .idle, (wdtCheck s).2) := by rw [supervise, h]; rfl

theorem supervise_of_cons {s : State} {cs : CommandSet} {rest : List CommandSet} (h : s.cmdq = cs :: rest) :
    supervise s = supervisorCommand cs { s with cmdq := rest } := by rw [supervise, h]

theorem applyEntries_eq_foldl (es : CommandSet) (s : State) :
    applyEntries es s = es.foldl (fun u e => applyEntry e u) s := by
  induction es generalizing s with
  | nil => rfl
  | cons e es ih => exact ih _

theorem applyEntries_cfg (es : CommandSet) (s : State) : (applyEntries es s).cfg = s.cfg := by rw [applyEntries_frame]

theorem supervisorCommand_of_unchecked {s : State} (cs : CommandSet) (h : s.cfg.wdtCheckOnCmd = false) :
    supervisorCommand cs s = (.cmd, applyEntries cs s) := by
  simp only [supervisorCommand, applyEntries_cfg, h, Bool.false_eq_true, if_false]

theorem supervisorCommand_of_checked {s : State} (cs : CommandSet) (h : s.cfg.wdtCheckOnCmd = true) :
    supervisorCommand cs s
      = (if (wdtCheck (applyEntries cs s)).1 then .cmdTrip else .cmd, (wdtCheck (applyEntries cs s)).2) := by
  simp only [supervisorCommand, applyEntries_cfg, h, if_true]

/-! ### What a SUP_STEP leaves alone -/

theorem wdtCheck_cmdq (s : State) : (wdtCheck s).2.cmdq = s.cmdq := by rw [wdtCheck_frame]

theorem supervisorCommand_cmdq (cs : CommandSet) (s : State) : (supervisorCommand cs s).2.cmdq = s.cmdq := by
  have happly : (applyEntries cs s).cmdq = s.cmdq := by rw [applyEntries_frame]
  unfold supervisorCommand
  dsimp only
  split
  · exact (wdtCheck_cmdq _).trans happly
  · exact happly

/-- One iteration takes the oldest command set off the queue, where there is one. -/
theorem supervise_cmdq (s : State) : (supervise s).2.cmdq = s.cmdq.tail := by
  cases hq : s.cmdq with
  | nil => rw [supervise_of_empty hq]; exact (wdtCheck_cmdq s).trans hq
  | cons cs rest => rw [supervise_of_cons hq]; exact supervisorCommand_cmdq cs _

/-- The supervisor's events are `DUTY_REJ` and `WDT_TRIP`. -/
theorem CountsOnlyFor.eq_of_supervisor {c d : Counters} (h : CountsOnlyFor .supervisor c d) :
    d = { c with dutyRej := d.dutyRej, wdtTrip := d.wdtTrip } := by
  refine Counters.ext_get fun e => ?_
  cases e with
  | dutyRej => rfl
  | wdtTrip => rfl
  | _ => exact by_contra fun hne => nomatch h _ hne

/-- The whole frame of a SUP_STEP of S. -/
theorem exec_supStep_frame {s t : State} (ho : s.inputs.issuer = .supervisor) (h : exec .supStep s = .next t) :
    t = { s with cmdq := s.cmdq.tail, duty := t.duty, lastCmdTime := t.lastCmdTime, result := t.result
                 cnt := { s.cnt with dutyRej := t.cnt.dutyRej, wdtTrip := t.cnt.wdtTrip } } := by
  rw [exec_supStep_supervisor ho] at h
  have hframe := (supervise_frame s).eq
  have hcnt := (supervise_counts s).eq_of_supervisor
  have hcmdq := supervise_cmdq s
  cases h
  generalize supervise s = p at *
  conv_lhs => rw [hframe, hcmdq, hcnt]
  rfl

/-- Settles O46, by whether the queue is empty and whether a command set is followed by a watchdog check. -/
theorem supStepAppliesACommandOrChecksTheWatchdog : Obligations.SupStepAppliesACommandOrChecksTheWatchdog := by
  refine fun s => ⟨rfl, exec_supStep_other, fun ho hq => ?idle, fun cs rest ho hq => ⟨fun hoff => ?unchecked,
    fun hon => ⟨_, (applyEntries_eq_foldl ..), ?checked⟩⟩, fun t ho h => exec_supStep_frame ho h⟩
  case idle =>
    rw [exec_supStep_supervisor ho, supervise_of_empty hq]
    cases (wdtCheck s).1 <;> rfl
  case unchecked =>
    rw [exec_supStep_supervisor ho, supervise_of_cons hq,
      supervisorCommand_of_unchecked (s := { s with cmdq := rest }) cs hoff, applyEntries_eq_foldl]
    rfl
  case checked =>
    rw [exec_supStep_supervisor ho, supervise_of_cons hq,
      supervisorCommand_of_checked (s := { s with cmdq := rest }) cs hon]
    cases (wdtCheck (applyEntries cs { s with cmdq := rest })).1 <;> rfl

/-! ## The failsafe -/

/-- The state in which S issues a command at a time. -/
def supervisedAt (now : Time) (s : State) : State :=
  { s with inputs := { s.inputs with issuer := .supervisor, now := now } }

/-- A SUP_STEP at a time while the queue is empty is a check of the watchdog at that time. -/
theorem supervisorAt_cons {s : State} (now : Time) (times : List Time) (hq : s.cmdq = []) :
    ∃ r, supervisorAt (now :: times) s = supervisorAt times ((wdtCheck (supervisedAt now s)).2.answer r) := by
  have hstep := exec_supStep_supervisor (s := supervisedAt now s) rfl
  rw [supervise_of_empty (s := supervisedAt now s) hq] at hstep
  rw [supervisorAt, ← supervisedAt, hstep]
  exact ⟨_, rfl⟩

/-- While the queue is empty, neutral duties stay neutral: a check of the watchdog writes no others. -/
theorem supervisorAt_keeps_neutral (times : List Time) {s : State} (hq : s.cmdq = []) (hn : Neutral s) :
    ∃ t, supervisorAt times s = .next t ∧ Neutral t ∧ t.cmdq = [] := by
  induction times generalizing s with
  | nil => exact ⟨s, rfl, hn, hq⟩
  | cons now times ih =>
    obtain ⟨r, hrun⟩ := supervisorAt_cons now times hq
    rw [hrun]
    refine ih ((wdtCheck_cmdq _).trans hq) ?_
    rcases wdtCheck_cases (supervisedAt now s) with ⟨-, h⟩ | ⟨-, h⟩
    · rw [h]; rfl
    · rw [h]; exact hn

/-- Settles O47, by induction on the times: the first expired one makes the duties neutral, and the ones before it leave
the last command time as it was. -/
theorem failsafeDrivesEveryDutyToNeutral : Obligations.FailsafeDrivesEveryDutyToNeutral := by
  intro times
  induction times with
  | nil => rintro s - ⟨now, hmem, -⟩; cases hmem
  | cons now times ih =>
    intro s hq hlate
    obtain ⟨r, hrun⟩ := supervisorAt_cons now times hq
    rw [hrun]
    by_cases hexp : s.cfg.wdtT < (now - s.lastCmdTime).toNat
    · refine supervisorAt_keeps_neutral times ((wdtCheck_cmdq _).trans hq) ?_
      rw [wdtCheck_of_expired (s := supervisedAt now s) hexp]
      rfl
    · rw [wdtCheck_of_not_expired (s := supervisedAt now s) hexp]
      obtain ⟨late, hmem, hlate⟩ := hlate
      exact ih _ hq ⟨late, (List.mem_cons.mp hmem).resolve_left fun he => hexp (he ▸ hlate), hlate⟩

end Sys2Proof.Machine
end

section
/-! STAT_READ: the value the status registers show at each index, and that it fits a result (46_status.md R180, R181). -/

namespace Sys2Proof.Machine

/-! ## A value in its field -/

/-- A register at most 32 bits wide reads a 32-bit value. -/
theorem statField_lt {w : Nat} (hw : w ≤ 32) (v : Nat) : statField w v < 2 ^ 32 :=
  calc statField w v
      < 2 ^ w := Nat.mod_lt v (Nat.two_pow_pos w)
    _ ≤ 2 ^ 32 := Nat.pow_le_pow_right Nat.two_pos hw

/-- A value its register is wide enough for reads as it is. -/
theorem statField_eq_self {w v : Nat} (h : v < 2 ^ w) : statField w v = v := Nat.mod_eq_of_lt h

/-! ## The register of each index -/

/-- The code of an event is the index of its counter (60_exceptions.md R200). -/
theorem statusValue_of_event {s : State} {k : Byte} {e : Event} (hk : k.toNat = e.code) :
    statusValue s k = some (s.cnt.get e).toNat := by
  rw [statusValue, hk]
  cases e <;> rfl

theorem statusValue_fifoRd {s : State} (hi : Inv s) : statusValue s 0x10#8 = some s.fifoRd := by
  obtain ⟨-, hn, -⟩ := (Config_wf_iff s.cfg).mp hi.cfgWf
  exact congrArg some (statField_eq_self (hi.fifoRdLt.trans_le hn))

theorem statusValue_fifoWr {s : State} (hi : Inv s) : statusValue s 0x11#8 = some s.fifoWr := by
  obtain ⟨-, hn, -⟩ := (Config_wf_iff s.cfg).mp hi.cfgWf
  exact congrArg some (statField_eq_self (hi.fifoWrLt.trans_le hn))

theorem statusValue_fifoLevel {s : State} (hi : Inv s) : statusValue s 0x12#8 = some (fifoLevel s) := by
  obtain ⟨-, hn, -⟩ := (Config_wf_iff s.cfg).mp hi.cfgWf
  exact congrArg some (statField_eq_self ((fifoLevel_lt hi.fifoRdLt hi.fifoWrLt).trans_le hn))

theorem statusValue_accLen {s : State} (hi : Inv s) : statusValue s 0x13#8 = some s.accLen := by
  obtain ⟨-, -, -, hmax, -⟩ := (Config_wf_iff s.cfg).mp hi.cfgWf
  exact congrArg some (statField_eq_self (Nat.lt_succ_of_le (hi.accLenLe.trans hmax)))

theorem statusValue_cmdqLevel {s : State} (hi : Inv s) : statusValue s 0x14#8 = some s.cmdq.length := by
  obtain ⟨-, -, -, -, -, hdepth, -⟩ := (Config_wf_iff s.cfg).mp hi.cfgWf
  exact congrArg some (statField_eq_self (Nat.lt_succ_of_le (hi.cmdqLe.trans hdepth)))

theorem statusValue_lastCmdTime (s : State) : statusValue s 0x15#8 = some s.lastCmdTime.toNat := rfl

theorem statusValue_crcAcc (s : State) : statusValue s 0x16#8 = some s.crcAcc.toNat := rfl

/-- From the index 0x20 on stand the duty registers, and no register past the last motor's: a duty is at most
`2 ^ DUTY_RES_BITS`, which the extra bit of its register holds. -/
theorem statusValue_duty {s : State} (hi : Inv s) {k : Byte} {i : Nat} (hk : k.toNat = 0x20 + i) :
    statusValue s k = s.duty[i]? := by
  unfold statusValue
  split
  case h_18 =>
    rw [hk, Nat.add_sub_cancel_left, List.getD_eq_getElem?_getD]
    by_cases hlt : i < s.cfg.nMot
    · have hlen : i < s.duty.length := hi.dutyLength ▸ hlt
      have hfits : s.duty[i] < 2 ^ (s.cfg.dutyResBits + 1) :=
        (hi.dutyLe _ (List.getElem_mem hlen)).trans_lt (Nat.pow_lt_pow_succ Nat.one_lt_two)
      rw [if_pos (by omega), List.getElem?_eq_getElem hlen, Option.getD_some, statField_eq_self hfits]
    · rw [if_neg (by omega), List.getElem?_eq_none (by rw [hi.dutyLength]; omega)]
  -- the indices listed one by one are all below 0x20
  all_goals omega

/-- An index that is not reserved has a register, at most 32 bits wide. -/
theorem statusValue_of_defined {s : State} (hwf : s.cfg.wf = true) {k : Byte}
    (h : statIndexDefined s.cfg.nMot k = true) : ∃ v, v < 2 ^ 32 ∧ statusValue s k = some v := by
  unfold statusValue
  split
  case h_11 | h_12 | h_13 | h_14 | h_15 => exact ⟨_, statField_lt (by decide) _, rfl⟩
  case h_17 => exact ⟨_, s.crcAcc.isLt.trans (by decide), rfl⟩
  case h_18 =>
    obtain ⟨-, -, -, -, -, -, -, -, -, -, -, hres, -⟩ := (Config_wf_iff s.cfg).mp hwf
    refine ⟨_, statField_lt (by omega) _, if_pos ?_⟩
    simp only [statIndexDefined, Bool.or_eq_true, Bool.and_eq_true, decide_eq_true_eq] at h
    -- the index is none of the seventeen listed
    simp only [imp_false] at *
    omega
  -- the ten counters and the last command time, 32 bits each
  all_goals exact ⟨_, BitVec.isLt _, rfl⟩

/-! ## STAT_READ -/

theorem exec_statRead_of_some {s : State} {k : Byte} {v : Nat} (h : statusValue s k = some v) :
    exec (.statRead k) s = answer (.okValue v) s := by
  show execStatRead k s = _
  rw [execStatRead_eq, h]
  rfl

/-- Settles O49, register by register. -/
theorem statReadAnswersTheRegisterOfItsIndex : Obligations.StatReadAnswersTheRegisterOfItsIndex := by
  intro s k hi
  refine ⟨rfl, fun hreserved => exec_of_illegalOperands (i := .statRead k) hreserved, fun hdefined => ?_⟩
  obtain ⟨v, hlt, hread⟩ := statusValue_of_defined hi.cfgWf hdefined
  have eq_of_register {u : Nat} (hu : statusValue s k = some u) : v = u := Option.some.inj (hread.symm.trans hu)
  refine ⟨v, hlt, exec_statRead_of_some hread, fun e hk => eq_of_register (statusValue_of_event hk),
    ?fifoRd, ?fifoWr, ?fifoLevel, ?accLen, ?cmdqLevel, ?lastCmdTime, ?crcAcc, ?duty⟩
  case fifoRd => rintro rfl; exact eq_of_register (statusValue_fifoRd hi)
  case fifoWr => rintro rfl; exact eq_of_register (statusValue_fifoWr hi)
  case fifoLevel => rintro rfl; exact eq_of_register (statusValue_fifoLevel hi)
  case accLen => rintro rfl; exact eq_of_register (statusValue_accLen hi)
  case cmdqLevel => rintro rfl; exact eq_of_register (statusValue_cmdqLevel hi)
  case lastCmdTime => rintro rfl; exact eq_of_register (statusValue_lastCmdTime s)
  case crcAcc => rintro rfl; exact eq_of_register (statusValue_crcAcc s)
  case duty => exact fun i hk => (statusValue_duty hi hk).symm.trans hread

end Sys2Proof.Machine
end

section
/-! The forbidden uses: which operation takes which fault, what a step leaves alone where it takes one, and what
the hook decides about a byte that arrives (60_exceptions.md R202, R204; 10_state.md R33, R38; log entry 7). -/

namespace Sys2Proof.Machine

/-! ## An operation of another agent -/

/-- An owned instruction that is not `ILLEGAL` takes `fault(WRONG_AGENT)` where another agent issues it. -/
theorem exec_of_wrongAgent {i : Instr} {s : State} {a : Agent} (howner : ownerOfInstr i = some a)
    (hlegal : i.operandsLegal s.cfg = true) (ho : s.inputs.issuer ≠ a) : exec i s = takeFault .wrongAgent s := by
  cases i with
  | fifoPush b => cases howner; exact exec_fifoPush_other b ho
  | fifoPop => cases howner; exact exec_fifoPop_other ho
  | rxStep | rxPump => cases howner; exact receiverOp_other ho
  | cmdEnq cs => cases howner; exact exec_cmdEnq_other cs ho
  | supStep => cases howner; exact exec_supStep_other ho
  | setThrottle k v =>
    cases howner
    exact (exec_setThrottle k v s).trans (withMotor_other _ (List.getElem?_eq_getElem (of_decide_eq_true hlegal)) ho)
  | setDutyUs k us =>
    cases howner
    exact (exec_setDutyUs k us s).trans (withMotor_other _ (List.getElem?_eq_getElem (of_decide_eq_true hlegal)) ho)
  | neutralAll => cases howner; exact exec_neutralAll_other ho
  | crc8Init | crc8Step | crc8 | crc8Check | cobsEnc | cobsDec | fifoClear | fifoLevel | txFrame | statRead
  | cobsCodeZero | cobsCodeFull | cobsCodeRun => cases howner

/-! ## The steps that are not taken -/

theorem step_of_faulted {s : State} {why : Misuse} (hwf : s.cfg.wf = true) (hf : s.fault = some why) :
    step s = .fault (.forbidden why) := by
  rw [step_eq, nextStep, if_pos hwf, hf]

theorem step_of_badConfig {s : State} (hwf : s.cfg.wf = false) : step s = .fault (.forbidden .badConfig) := by
  rw [step_eq, nextStep, hwf]
  rfl

/-- Settles O52: each guard takes its own fault, and the step looks at the configuration and at `FAULTED` before the
schedule. -/
theorem forbiddenUsesFaultAndAFaultIsFinal : Obligations.ForbiddenUsesFaultAndAFaultIsFinal := by
  refine ⟨fun i s a => exec_of_wrongAgent, fun s hactive => ?clearActive, fun i s hi ho hbusy => ?reentrant,
    fun s why => step_of_faulted, fun s => step_of_badConfig⟩
  case clearActive => rw [exec_fifoClear, (quiesced_eq_false s).mpr hactive]; rfl
  case reentrant => obtain rfl | rfl := hi <;> exact receiverOp_busy ho hbusy

/-! ## What a fault leaves -/

/-- `FAULTED` after an operation from `s` that ends in `t`: as it was, or set with the rest of the block as it was. Only
the inputs, which every step draws anew, may differ then. -/
inductive FaultEffect (s t : State) : Prop
  | kept (h : t.fault = s.fault)
  | taken (why : Misuse) (h : t = { s with fault := some why, result := none, inputs := t.inputs })

namespace FaultEffect

variable {s t u : State}

theorem of_answer {r : OpResult} (h : answer r u = .next t) (hu : u.fault = s.fault) : FaultEffect s t := by
  obtain rfl := (answer_eq_next ..).mp h
  exact .kept hu

theorem of_takeFault {why : Misuse} (h : takeFault why s = .next t) : FaultEffect s t := by
  obtain rfl := (takeFault_eq_next ..).mp h
  exact .taken why rfl

theorem of_ownedBy {a : Agent} {op : State → Answer} (h : ownedBy a op s = .next t)
    (hop : op s = .next t → FaultEffect s t) : FaultEffect s t := by
  obtain ⟨-, h⟩ | ⟨-, rfl⟩ := ownedBy_next h
  · exact hop h
  · exact .taken .wrongAgent rfl

theorem of_receiverOp {op : State → Answer} (h : ownedBy .consumer (notReentrant op) s = .next t)
    (hop : op s = .next t → t.fault = s.fault) : FaultEffect s t := by
  refine .of_ownedBy h fun h => ?_
  obtain ⟨-, h⟩ | ⟨-, rfl⟩ := notReentrant_next h
  · exact .kept (hop h)
  · exact .taken .reentrant rfl

theorem of_withMotor {k : Byte} {op : Nat → Motor → State → OpResult × State} (h : withMotor k op s = .next t)
    (hop : ∀ m, (op k.toNat m s).2.fault = s.fault) : FaultEffect s t := by
  unfold withMotor at h
  split at h
  · exact .of_answer h rfl
  · exact .of_ownedBy h fun h => .of_answer h (hop _)

/-- The inputs a step draws are no part of what a fault leaves. -/
theorem of_inputs {x : Inputs} (h : FaultEffect { s with inputs := x } t) : FaultEffect s t := by
  cases h with
  | kept h => exact .kept h
  | taken why h => exact .taken why h

end FaultEffect

/-! ## The operations that take no fault -/

theorem receiveByte_fault {s t : State} {r : OpResult} (h : receiveByte s = .ok (r, t)) : t.fault = s.fault := by
  obtain ⟨-, -, -, -, -, -, -, hfault, -⟩ := receiveByte_frame h
  exact hfault

theorem pumpIteration_fault {s t : State} (h : pumpIteration s = .next t) : t.fault = s.fault := by
  obtain ⟨r, u, hr, ⟨-, rfl⟩ | ⟨-, rfl⟩⟩ := pumpIteration_eq_next.mp h
  · exact (receiveByte_fault hr :)
  · exact (receiveByte_fault hr :)

theorem continuePump_fault {s t : State} (h : continuePump s = .next t) : t.fault = s.fault :=
  (pumpIteration_fault (continuePump_next h) :)

theorem codecAfter_fault {s t : State} {c : Option Codec} (h : codecAfter s c = .next t) : t.fault = s.fault := by
  obtain ⟨d, r, hd⟩ := codecAfter_eq_next s c
  rw [hd] at h
  cases h
  rfl

theorem runCodec_fault {s t : State} (h : runCodec s = .next t) : t.fault = s.fault := by
  cases hrest : s.codec.rest with
  | nil => rw [runCodec_of_nil hrest] at h; cases h
  | cons code frame =>
    rw [runCodec_of_cons hrest, exec_decodeCode] at h
    exact codecAfter_fault h

theorem loadFrame_fault {f : List Byte} {s t : State} (h : loadFrame f s = .next t) : t.fault = s.fault := by
  unfold loadFrame at h
  split at h <;> cases h <;> rfl

/-! ## The instructions -/

namespace FaultEffect

variable {s t : State}

theorem of_execFifoPush {b : Byte} (h : execFifoPush b s = .next t) : FaultEffect s t := by
  refine .of_ownedBy h fun h => ?_
  split at h
  · obtain ⟨r, u, hpush, rfl⟩ := finish_eq_next.mp h
    rw [pushByte_frame hpush]
    exact .kept rfl
  · cases h

theorem of_execFifoPop (h : execFifoPop s = .next t) : FaultEffect s t := by
  refine .of_ownedBy h fun h => ?_
  split at h
  · cases h
  · next hpop =>
    rw [popByte_frame hpop] at h
    exact .of_answer h rfl

theorem of_execFifoClear (h : execFifoClear s = .next t) : FaultEffect s t := by
  unfold execFifoClear at h
  split at h
  · exact .of_answer h rfl
  · exact .of_takeFault h

theorem of_execRxStep (h : execRxStep s = .next t) : FaultEffect s t := by
  refine .of_receiverOp h fun h => ?_
  obtain ⟨r, u, hr, rfl⟩ := finish_eq_next.mp h
  exact (receiveByte_fault hr :)

theorem of_execRxPump (h : execRxPump s = .next t) : FaultEffect s t :=
  .of_receiverOp h fun h => (pumpIteration_fault h :)

theorem of_execTxFrame {ch : Byte} {p : List Byte} (h : execTxFrame ch p s = .next t) : FaultEffect s t := by
  unfold execTxFrame at h
  dsimp only at h
  split at h
  · exact .of_answer h rfl
  · exact .of_answer h rfl

theorem of_execCmdEnq {cs : CommandSet} (h : execCmdEnq cs s = .next t) : FaultEffect s t := by
  refine .of_ownedBy h fun h => ?_
  split at h
  · exact .of_answer h rfl
  · exact .of_answer h rfl

theorem of_execSupStep (h : execSupStep s = .next t) : FaultEffect s t :=
  .of_ownedBy h fun h => .of_answer h (by rw [(supervise_frame s).eq])

theorem of_execSetThrottle {k : Byte} {v : Word64} (h : execSetThrottle k v s = .next t) : FaultEffect s t :=
  .of_withMotor h fun m => by rw [driveThrottle_frame]

theorem of_execSetDutyUs {k : Byte} {us : BitVec 16} (h : execSetDutyUs k us s = .next t) : FaultEffect s t :=
  .of_withMotor h fun m => by rw [drivePulse_frame]

theorem of_execNeutralAll (h : execNeutralAll s = .next t) : FaultEffect s t :=
  .of_ownedBy h fun h => .of_answer h rfl

/-- An instruction keeps `FAULTED`, or sets it and leaves the rest. -/
theorem of_exec {i : Instr} (h : exec i s = .next t) : FaultEffect s t := by
  cases i with
  | crc8Init | crc8Step b | crc8 bytes | cobsEnc bytes | cobsDec frame | fifoLevel => exact .of_answer h rfl
  | crc8Check bytes => exact .of_answer ((execCrc8Check_eq bytes s).symm.trans h) rfl
  | statRead k => exact .of_answer ((execStatRead_eq k s).symm.trans h) rfl
  | fifoPush b => exact .of_execFifoPush h
  | fifoPop => exact .of_execFifoPop h
  | fifoClear => exact .of_execFifoClear h
  | rxStep => exact .of_execRxStep h
  | rxPump => exact .of_execRxPump h
  | txFrame ch p => exact .of_execTxFrame h
  | cmdEnq cs => exact .of_execCmdEnq h
  | supStep => exact .of_execSupStep h
  | setThrottle k v => exact .of_execSetThrottle h
  | setDutyUs k us => exact .of_execSetDutyUs h
  | neutralAll => exact .of_execNeutralAll h
  | cobsCodeZero => exact .kept (codecAfter_fault (c := none) h)
  | cobsCodeFull | cobsCodeRun c => exact .kept (codecAfter_fault h)

/-! ## The schedule -/

/-- So does every entry of the schedule, in a run that no fault has ended. -/
theorem of_act {a : Action} (h : act a s = .next t) (hf : s.fault = none) : FaultEffect s t := by
  cases a with
  | issue c =>
    obtain ⟨-, ⟨i, -, h⟩ | ⟨why, -, rfl⟩⟩ := issueCommand_next h
    · exact (of_exec h).of_inputs
    · exact .kept rfl
  | pump => exact .kept (continuePump_fault h)
  | byteArrived b =>
    change byteArrives b s = _ at h
    unfold byteArrives at h
    split at h
    · exact (of_exec h).of_inputs
    · cases h; exact .kept rfl
  | sinkReturn | prodDisable | prodEnable => cases h; exact .kept rfl
  | reset now => cases h; exact .kept hf.symm
  | codecFrame f => exact .kept (loadFrame_fault h)
  | codecRun => exact .kept (runCodec_fault h)

end FaultEffect

theorem actUnscheduled_fault {s t : State} (h : actUnscheduled s = .next t) : t.fault = s.fault := by
  unfold actUnscheduled at h
  split at h
  · exact continuePump_fault h
  · cases h; rfl

/-- Settles O53: the run had no fault before the step, so the entry of the schedule that left one has set it. -/
theorem faultLeavesTheBlockAsItWas : Obligations.FaultLeavesTheBlockAsItWas := by
  intro s t why h ht
  obtain ⟨-, hf, ⟨a, rest, ha, h⟩ | ⟨-, h⟩⟩ := step_next h
  · cases FaultEffect.of_act h hf with
    | kept hkept => cases (ht.symm.trans hkept).trans hf
    | taken why' htaken =>
      have hwhy : why' = why := Option.some.inj ((congrArg State.fault htaken).symm.trans ht)
      rw [ha, ← hwhy]
      exact htaken
  · cases (ht.symm.trans (actUnscheduled_fault h)).trans hf

/-! ## The hook -/

theorem byteArrives_attached {b : Byte} {s : State} (h : s.prodEn = true) :
    byteArrives b s = exec (.fifoPush b) { s with inputs := { s.inputs with issuer := .producer } } := if_pos h

theorem byteArrives_detached {b : Byte} {s : State} (h : s.prodEn = false) : byteArrives b s = .next s.noResult := by
  rw [byteArrives, h]
  rfl

/-- While its hook is detached P has no step. -/
theorem issueCommand_detached {c : Command} {s : State} (ho : c.inputs.issuer = .producer) (h : s.prodEn = false) :
    issueCommand c s = .fault .stuck := by
  rw [issueCommand, agentEnabled, ho, h]
  rfl

/-- Settles O55, entry by entry of the schedule. -/
theorem byteArrivalIsAPushWhileTheHookIsAttached : Obligations.ByteArrivalIsAPushWhileTheHookIsAttached := by
  refine fun s rest b c hwf hf => ⟨fun ha hp => ?attached, fun ha hp => ?detached, fun ha ho hp => ?command,
    fun ha => ?disable, fun ha => ?enable⟩
  case attached => exact (step_cons hwf hf ha).trans (byteArrives_attached (s := { s with agenda := rest }) hp)
  case detached => exact (step_cons hwf hf ha).trans (byteArrives_detached (s := { s with agenda := rest }) hp)
  case command => exact (step_cons hwf hf ha).trans (issueCommand_detached (s := { s with agenda := rest }) ho hp)
  case disable => exact step_cons hwf hf ha
  case enable => exact step_cons hwf hf ha

end Sys2Proof.Machine
end

section
/-! RESET and the reset state: what a RESET leaves, and what the first supervisor steps after one do to duties that are
neutral already (70_reset_and_hazards.md R230, R231; log entries 2, 7 and 23). -/

namespace Sys2Proof.Machine

/-! ## RESET -/

theorem step_of_reset {s : State} {now : Time} {rest : List Action} (hwf : s.cfg.wf = true) (hf : s.fault = none)
    (ha : s.agenda = .reset now :: rest) : step s = .next (resetBlock now { s with agenda := rest }) :=
  step_cons hwf hf ha

theorem atReset_cnt_get (c : Config) (now : Time) (e : Event) : (State.atReset c now).cnt.get e = 0#32 := by
  cases e <;> rfl

/-- Settles O56: the step runs the RESET, which leaves the elements of the reset state and the rest of the schedule. -/
theorem resetSetsEveryElement : Obligations.ResetSetsEveryElement := by
  intro s now rest hwf hf ha
  have hcnt : ∀ e, (resetBlock now { s with agenda := rest }).cnt.get e = 0#32 := atReset_cnt_get s.cfg now
  exact ⟨_, step_of_reset hwf hf ha, rfl, rfl, rfl, rfl, rfl, rfl, rfl, rfl, hcnt, rfl, rfl, rfl, rfl⟩

/-! ## The first trip -/

theorem neutralise_of_neutral {s : State} (hn : Neutral s) : neutralise s = s := by
  unfold neutralise
  rw [← hn]

theorem atReset_neutral (c : Config) (now : Time) : Neutral (State.atReset c now) := rfl

/-- With an empty queue and an expired watchdog SUP_STEP answers `TRIP`; duties that are neutral already stay as they are. -/
theorem exec_supStep_trip_of_neutral {s : State} (ho : s.inputs.issuer = .supervisor) (hq : s.cmdq = []) (hn : Neutral s)
    (h : s.cfg.wdtT < (s.inputs.now - s.lastCmdTime).toNat) :
    exec .supStep s = .next (({ s with lastCmdTime := s.inputs.now }.raise .wdtTrip).answer (.okValue 2)) := by
  rw [exec_supStep_supervisor ho, supervise_of_empty hq, wdtCheck_of_expired h, neutralise_of_neutral hn]
  rfl

/-- With an empty queue and a watchdog that has not expired SUP_STEP answers `IDLE` and changes nothing else. -/
theorem exec_supStep_idle {s : State} (ho : s.inputs.issuer = .supervisor) (hq : s.cmdq = [])
    (h : ¬ s.cfg.wdtT < (s.inputs.now - s.lastCmdTime).toNat) :
    exec .supStep s = .next (s.answer (.okValue 1)) := by
  rw [exec_supStep_supervisor ho, supervise_of_empty hq, wdtCheck_of_not_expired h]
  rfl

/-- Settles O57: a reset leaves the queue empty and the duties neutral, so the trip writes the duties they have. -/
theorem firstTripAfterResetChangesNoDuty : Obligations.FirstTripAfterResetChangesNoDuty := by
  rintro c t0 now s rfl
  have hneutral : Neutral { State.atReset c t0 with inputs := ⟨.supervisor, now, 0⟩ } := atReset_neutral c t0
  exact ⟨fun hlate => exec_supStep_trip_of_neutral rfl rfl hneutral hlate,
    fun hearly => exec_supStep_idle rfl rfl (not_lt.mpr hearly)⟩

/-! ## The invariant -/

/-- Settles O58: the reset state of every well-formed configuration meets the invariant, and the test configuration, whose
reset state is the machine's, is well-formed. -/
theorem resetMeetsTheInvariant : Obligations.ResetMeetsTheInvariant :=
  have htest : Config.testConfig.wf = true := by decide
  ⟨Inv.atReset htest _, fun _ now hwf => Inv.atReset hwf now⟩

end Sys2Proof.Machine
end
